-- ==== Sys2Proof/Word.lean ====
section
/-! DEFINITION. The value types of the FASTCON codec block (spec/30_encoding.md R47) and the plain data they are
made of. Nothing here computes. -/

namespace Sys2Proof

/-- R47 byte: "8-bit unsigned". -/
abbrev Byte := BitVec 8

/-- R47 half: "16-bit unsigned". -/
abbrev Half := BitVec 16

/-- R47 bytes: "a finite sequence of bytes with its length". -/
abbrev Bytes := List Byte

/-- R47 light_id: `LIGHT_ID_WIDTH = 32` bits (R6), of which only bits 11:0 are read (R57). -/
abbrev LightId := BitVec 32

/-- R47 kind: "3-bit unsigned". -/
abbrev Kind := BitVec 3

/-- R47 time: `TIME_WIDTH = 32` bits, milliseconds (R6, R61). -/
abbrev Time := BitVec 32

/-- R47 rational: "an exact non-negative rational number", the number `num / den`. A pair with `den = 0` is no
number and is refused by the decoder (log 19). -/
structure Ratio where
  num : Nat
  den : Nat
deriving DecidableEq, Repr

/-- R23, R47: the whitening state, "seven 1-bit registers" `W[0..6]`. -/
structure WhState where
  w0 : Bool
  w1 : Bool
  w2 : Bool
  w3 : Bool
  w4 : Bool
  w5 : Bool
  w6 : Bool
deriving DecidableEq, Repr

/-- R60: the status a radio call returns, "`ok` or `fail`". -/
inductive RadioStatus where
  | ok
  | fail
deriving DecidableEq, Repr, Inhabited

end Sys2Proof
end

