-- ==== Sys2Proof/Syntax.lean ====
section
/-! DEFINITION. The sixteen operations of spec/30_encoding.md R46 as one inductive type, and the request that
carries one: a 4-bit select code and a typed operand record (R45, R47). -/

namespace Sys2Proof

/-- One constructor per row of spec/opcode_table.json (R46), the operands in the order of R46. -/
inductive Instr where
  /-- 0x0 REV8 (R63). -/
  | rev8 (b : Byte)
  /-- 0x1 REV16 (R64). -/
  | rev16 (h : Half)
  /-- 0x2 BYTEREV (R65). -/
  | byterev (str : Bytes)
  /-- 0x3 CRC16 (R68). -/
  | crc16 (address data : Bytes)
  /-- 0x4 WH_INIT (R76). -/
  | whInit (seed : Byte)
  /-- 0x5 WH_ENCODE (R81). -/
  | whEncode (state : WhState) (buffer : Bytes)
  /-- 0x6 RF_BUILD (R84). -/
  | rfBuild (address data : Bytes)
  /-- 0x7 RF_PREPARE (R89). -/
  | rfPrepare (address data : Bytes)
  /-- 0x8 CMD_ENCODE (R92). -/
  | cmdEncode (kind : Kind) (lightId : LightId) (body : Bytes) (forward : Bool)
  /-- 0x9 LV_MAP (R104). -/
  | lvMap (isOn : Bool) (brightness r g b : Ratio)
  /-- 0xA SLC_FRAME (R109). -/
  | slcFrame (lightId : LightId) (lightData : Bytes)
  /-- 0xB LIGHT_WRITE (R112). -/
  | lightWrite (lightId : LightId) (isOn : Bool) (brightness r g b : Ratio)
  /-- 0xC Q_ENQUEUE (R115). -/
  | qEnqueue (lightId : LightId) (payload : Bytes)
  /-- 0xD Q_CLEAR (R119). -/
  | qClear
  /-- 0xE TICK (R125). -/
  | tick (now : Time)
  /-- 0xF ADV_FRAME (R121). -/
  | advFrame (payload : Bytes)
deriving DecidableEq, Repr

/-- The sixteen operations without their operands: the rows of R46. -/
inductive Op where
  | rev8 | rev16 | byterev | crc16 | whInit | whEncode | rfBuild | rfPrepare
  | cmdEncode | lvMap | slcFrame | lightWrite | qEnqueue | qClear | tick | advFrame
deriving DecidableEq, Repr

/-- One typed operand value (R47). -/
inductive Operand where
  | bit (v : Bool)
  | byte (v : Byte)
  | half (v : Half)
  | bytes (v : Bytes)
  | lightId (v : LightId)
  | kind (v : Kind)
  | rational (v : Ratio)
  | time (v : Time)
  | whState (v : WhState)
deriving DecidableEq, Repr

/-- The operand types of R47. -/
inductive OperandType where
  | bit | byte | half | bytes | lightId | kind | rational | time | whState
deriving DecidableEq, Repr

/-- R45: "one request: a 4-bit select code `op[3:0]` and an operand record whose fields depend on the operation."
The record is the list of its typed values in the order of R46 (log 1). -/
structure Request where
  op : BitVec 4
  args : List Operand
deriving DecidableEq, Repr

/-- Why the decoder refuses a request, by name. -/
inductive DecodeError where
  /-- The operand record does not have the fields of the operation's row of R46. -/
  | operandRecord (op : Op)
  /-- A rational operand has denominator 0, so it is no number (R47; log 19). -/
  | zeroDenominator (op : Op)
deriving DecidableEq, Repr

end Sys2Proof
end

