-- ==== Sys2Proof/WellFormed.lean ====
section
/-! DEFINITION. Which terms of Instr are operations of the block: every operand is a value of its type of
spec/30_encoding.md R47. The types of Syntax.lean leave one thing to check, a rational's denominator. The operand
limits of R48 (light data over 14 bytes and the like) are not checked here: such a request is a request, and its
meaning refuses it by name. -/

namespace Sys2Proof

/-- R47: a rational is a number, so its denominator is not 0. -/
def Ratio.wf (q : Ratio) : Bool := q.den != 0

/-- Every operand is a value of its type (R47). -/
def Instr.wf : Instr → Bool
  | .rev8 _ => true
  | .rev16 _ => true
  | .byterev _ => true
  | .crc16 _ _ => true
  | .whInit _ => true
  | .whEncode _ _ => true
  | .rfBuild _ _ => true
  | .rfPrepare _ _ => true
  | .cmdEncode _ _ _ _ => true
  | .lvMap _ brightness r g b => brightness.wf && r.wf && g.wf && b.wf
  | .slcFrame _ _ => true
  | .lightWrite _ _ brightness r g b => brightness.wf && r.wf && g.wf && b.wf
  | .qEnqueue _ _ => true
  | .qClear => true
  | .tick _ => true
  | .advFrame _ => true

end Sys2Proof
end

