-- ==== Sys2Proof/Decode.lean ====
section
/-! DEFINITION. From a request (select code and operand record, spec/30_encoding.md R45 to R48) to an operation,
total, refusing by name; then the encoder; then the words of spec/opcode_table.json. -/

namespace Sys2Proof

/-- R46: the select code of each operation. -/
def Op.code : Op → BitVec 4
  | .rev8 => 0x0
  | .rev16 => 0x1
  | .byterev => 0x2
  | .crc16 => 0x3
  | .whInit => 0x4
  | .whEncode => 0x5
  | .rfBuild => 0x6
  | .rfPrepare => 0x7
  | .cmdEncode => 0x8
  | .lvMap => 0x9
  | .slcFrame => 0xA
  | .lightWrite => 0xB
  | .qEnqueue => 0xC
  | .qClear => 0xD
  | .tick => 0xE
  | .advFrame => 0xF

/-- R46: the operation of each select code. R48: "all sixteen values of `op[3:0]` are assigned". -/
def Op.ofCode (c : BitVec 4) : Op :=
  match c.toNat with
  | 0x0 => .rev8
  | 0x1 => .rev16
  | 0x2 => .byterev
  | 0x3 => .crc16
  | 0x4 => .whInit
  | 0x5 => .whEncode
  | 0x6 => .rfBuild
  | 0x7 => .rfPrepare
  | 0x8 => .cmdEncode
  | 0x9 => .lvMap
  | 0xA => .slcFrame
  | 0xB => .lightWrite
  | 0xC => .qEnqueue
  | 0xD => .qClear
  | 0xE => .tick
  | _ => .advFrame

/-- R46: the operand types of each operation, in order. -/
def Op.operandTypes : Op → List OperandType
  | .rev8 => [.byte]
  | .rev16 => [.half]
  | .byterev => [.bytes]
  | .crc16 => [.bytes, .bytes]
  | .whInit => [.byte]
  | .whEncode => [.whState, .bytes]
  | .rfBuild => [.bytes, .bytes]
  | .rfPrepare => [.bytes, .bytes]
  | .cmdEncode => [.kind, .lightId, .bytes, .bit]
  | .lvMap => [.bit, .rational, .rational, .rational, .rational]
  | .slcFrame => [.lightId, .bytes]
  | .lightWrite => [.lightId, .bit, .rational, .rational, .rational, .rational]
  | .qEnqueue => [.lightId, .bytes]
  | .qClear => []
  | .tick => [.time]
  | .advFrame => [.bytes]

/-- The operation of a term of Instr. -/
def Instr.op : Instr → Op
  | .rev8 _ => .rev8
  | .rev16 _ => .rev16
  | .byterev _ => .byterev
  | .crc16 _ _ => .crc16
  | .whInit _ => .whInit
  | .whEncode _ _ => .whEncode
  | .rfBuild _ _ => .rfBuild
  | .rfPrepare _ _ => .rfPrepare
  | .cmdEncode _ _ _ _ => .cmdEncode
  | .lvMap _ _ _ _ _ => .lvMap
  | .slcFrame _ _ => .slcFrame
  | .lightWrite _ _ _ _ _ _ => .lightWrite
  | .qEnqueue _ _ => .qEnqueue
  | .qClear => .qClear
  | .tick _ => .tick
  | .advFrame _ => .advFrame

/-- The type of an operand value (R47). -/
def Operand.type : Operand → OperandType
  | .bit _ => .bit
  | .byte _ => .byte
  | .half _ => .half
  | .bytes _ => .bytes
  | .lightId _ => .lightId
  | .kind _ => .kind
  | .rational _ => .rational
  | .time _ => .time
  | .whState _ => .whState

/-- The operation `op` with the operand record `args`, where the record has the fields of the row (R46). -/
def build (op : Op) (args : List Operand) : Option Instr :=
  match op with
  | .rev8 => match args with
    | [.byte b] => some (.rev8 b)
    | _ => none
  | .rev16 => match args with
    | [.half h] => some (.rev16 h)
    | _ => none
  | .byterev => match args with
    | [.bytes str] => some (.byterev str)
    | _ => none
  | .crc16 => match args with
    | [.bytes address, .bytes data] => some (.crc16 address data)
    | _ => none
  | .whInit => match args with
    | [.byte seed] => some (.whInit seed)
    | _ => none
  | .whEncode => match args with
    | [.whState state, .bytes buffer] => some (.whEncode state buffer)
    | _ => none
  | .rfBuild => match args with
    | [.bytes address, .bytes data] => some (.rfBuild address data)
    | _ => none
  | .rfPrepare => match args with
    | [.bytes address, .bytes data] => some (.rfPrepare address data)
    | _ => none
  | .cmdEncode => match args with
    | [.kind kind, .lightId lightId, .bytes body, .bit forward] => some (.cmdEncode kind lightId body forward)
    | _ => none
  | .lvMap => match args with
    | [.bit isOn, .rational brightness, .rational r, .rational g, .rational b] =>
      some (.lvMap isOn brightness r g b)
    | _ => none
  | .slcFrame => match args with
    | [.lightId lightId, .bytes lightData] => some (.slcFrame lightId lightData)
    | _ => none
  | .lightWrite => match args with
    | [.lightId lightId, .bit isOn, .rational brightness, .rational r, .rational g, .rational b] =>
      some (.lightWrite lightId isOn brightness r g b)
    | _ => none
  | .qEnqueue => match args with
    | [.lightId lightId, .bytes payload] => some (.qEnqueue lightId payload)
    | _ => none
  | .qClear => match args with
    | [] => some .qClear
    | _ => none
  | .tick => match args with
    | [.time now] => some (.tick now)
    | _ => none
  | .advFrame => match args with
    | [.bytes payload] => some (.advFrame payload)
    | _ => none

/-- R45 to R48: the operation a request asks for. Total on every request; a record that does not fit its select
code, and a rational that is no number, are refused by name. -/
def decode (q : Request) : Except DecodeError Instr :=
  match build (Op.ofCode q.op) q.args with
  | none => .error (.operandRecord (Op.ofCode q.op))
  | some i => if i.wf then .ok i else .error (.zeroDenominator (Op.ofCode q.op))

/-- The operand record of an operation, in the order of R46. -/
def Instr.args : Instr → List Operand
  | .rev8 b => [.byte b]
  | .rev16 h => [.half h]
  | .byterev str => [.bytes str]
  | .crc16 address data => [.bytes address, .bytes data]
  | .whInit seed => [.byte seed]
  | .whEncode state buffer => [.whState state, .bytes buffer]
  | .rfBuild address data => [.bytes address, .bytes data]
  | .rfPrepare address data => [.bytes address, .bytes data]
  | .cmdEncode kind lightId body forward => [.kind kind, .lightId lightId, .bytes body, .bit forward]
  | .lvMap isOn brightness r g b => [.bit isOn, .rational brightness, .rational r, .rational g, .rational b]
  | .slcFrame lightId lightData => [.lightId lightId, .bytes lightData]
  | .lightWrite lightId isOn brightness r g b =>
    [.lightId lightId, .bit isOn, .rational brightness, .rational r, .rational g, .rational b]
  | .qEnqueue lightId payload => [.lightId lightId, .bytes payload]
  | .qClear => []
  | .tick now => [.time now]
  | .advFrame payload => [.bytes payload]

/-- The request that asks for an operation (R45, R46). -/
def encode (i : Instr) : Request := ⟨i.op.code, i.args⟩

/-- The value of each operand type that stands for operand words of zeros: the number zero, the empty string
(log 1). -/
def OperandType.zero : OperandType → Operand
  | .bit => .bit false
  | .byte => .byte 0
  | .half => .half 0
  | .bytes => .bytes []
  | .lightId => .lightId 0
  | .kind => .kind 0
  | .rational => .rational ⟨0, 1⟩
  | .time => .time 0
  | .whState => .whState ⟨false, false, false, false, false, false, false⟩

/-- The request of a word of spec/opcode_table.json: its four low bits are `op[3:0]` ("the four select bits are
the only encoded bits", R45), its operands are the zero values of their types. -/
def tableRequest (nbits w : Nat) : Request :=
  let c := BitVec.ofNat 4 (w % 2 ^ nbits)
  ⟨c, (Op.ofCode c).operandTypes.map OperandType.zero⟩

/-- The operation the decoder reads from a word of spec/opcode_table.json. -/
def decodeTableWord (nbits w : Nat) : Option Instr :=
  match decode (tableRequest nbits w) with
  | .ok i => some i
  | .error _ => none

end Sys2Proof
end

