-- ==== Sys2Proof/Config.lean ====
section
/-! DEFINITION. What is fixed for one instance of the block: the configuration registers (spec/10_state.md R14 to
R18, R28 and the parameters of spec/00_scope.md R6), the two function parameters CRC_ROUND and WH_WIRING as tables of
exceptions from the spec's default (log 9), and the free values: constants with no body, so that no proof can see what
they are. -/

namespace Sys2Proof

/-- R14: `MESH_KEY[0..3]`, "four 8-bit registers"; also the shape of the constant `ENC_KEY[0..3]` (R16). -/
structure Key where
  k0 : Byte
  k1 : Byte
  k2 : Byte
  k3 : Byte
deriving DecidableEq, Repr

/-- R15: `MESH_ADDRESS[0..A-1]`, `A = 3`. -/
structure MeshAddress where
  a0 : Byte
  a1 : Byte
  a2 : Byte
deriving DecidableEq, Repr

/-- The configuration registers. No operation writes one (R44); every value is allowed. -/
structure Config where
  /-- R14 `MESH_KEY`. -/
  meshKey : Key
  /-- R15 `MESH_ADDRESS`. -/
  meshAddress : MeshAddress
  /-- R17 `ADV_DURATION`, milliseconds. -/
  advDuration : Time
  /-- R17 `ADV_GAP`, milliseconds. -/
  advGap : Time
  /-- R17 `ADV_INTERVAL_MIN`, the radio's clock ticks. -/
  advIntervalMin : Half
  /-- R17 `ADV_INTERVAL_MAX`, the radio's clock ticks. -/
  advIntervalMax : Half
  /-- R18 `MAX_QUEUE_SIZE`. -/
  maxQueueSize : Nat
  /-- R28 `BOUND`, one bit per light: the 12-bit ids whose bit is 1 (log 22). -/
  bound : List (BitVec 12)
  /-- R6, R52 `CTRL_TYPE`. -/
  ctrlType : BitVec 4
  /-- R6, R111 `SLC_PAD_LEN`. -/
  slcPadLen : Nat
  /-- R6, R56 `MANUFACTURER_ID`. -/
  manufacturerId : Half
  /-- R6, R56 `ADV_FLAGS`. -/
  advFlags : Byte
  /-- R6, R70, U1 `CRC_ROUND`: the inputs at which it differs from R70's round, each with the pair (what the round
  leaves in CRC_TMP, what it returns). -/
  crcRoundTable : List (Half × (Half × Half))
  /-- R6, R76, U2 `WH_WIRING`, the initial-state function: the seeds at which it differs from R76. -/
  whInitTable : List (Byte × WhState)
  /-- R6, R77, R78, U2 `WH_WIRING`, the byte-step function: the states and bytes at which it differs from R78. -/
  whByteTable : List ((WhState × Byte) × (WhState × Byte))
deriving DecidableEq, Repr

/-- The configuration at reset. DESIGN CHOICE (log 3): MESH_KEY, the durations, the interval bounds,
MAX_QUEUE_SIZE are zero and no light is bound, since the spec gives them no value. The other five are the spec's
defaults (R6; log 4), and so are the two function parameters: no exceptions (R6, R70, R76 to R78; logs 9 and 10). -/
def Config.atReset : Config where
  meshKey := ⟨0x00, 0x00, 0x00, 0x00⟩
  meshAddress := ⟨0xC1, 0xC2, 0xC3⟩
  advDuration := 0
  advGap := 0
  advIntervalMin := 0
  advIntervalMax := 0
  maxQueueSize := 0
  bound := []
  ctrlType := 2
  slcPadLen := 0
  manufacturerId := 0xFFF0
  advFlags := 0x06
  crcRoundTable := []
  whInitTable := []
  whByteTable := []

/-- The parameter `CRC_ROUND` (R6, R70, U1): from the accumulator, the intermediate value `CRC_TMP` and the
accumulator after the round. -/
abbrev CrcRound := Half → Half × Half

/-- The parameter `WH_WIRING` (R6, U2): "an initial-state function and a byte-step function". -/
structure WhWiring where
  init : Byte → WhState
  byteStep : WhState → Byte → WhState × Byte

/-- The two function parameters together, as functions. The units' functions take them as arguments; the operations
take those the configuration gives (Config.engine), so a claim over all configurations is one over all functions. -/
structure Engine where
  round : CrcRound
  wiring : WhWiring

/-- FREE VALUE (R60, log 29): the status of a radio call that no scripted status answers. -/
opaque Config.freeStatus : Nat → RadioStatus

/-- FREE VALUE (R61, log 30): a clock read that no scripted value answers. -/
opaque Config.freeClock : Nat → Time

/-- FREE VALUE (U12, R166, log 26): RADIO_ON after a failed stop, and after a call made while it may be on. -/
opaque Config.freeRadioOn : Nat → Bool

/-- FREE VALUE (U13, log 27): RADIO_DATA after a failed configure. -/
opaque Config.freeRadioData : Nat → Bytes

end Sys2Proof
end

