-- ==== Sys2Proof/Machine/State.lean ====
section
/-! DEFINITION. All the state of the FASTCON codec block (spec/10_state.md), the radio's state that its calls change
(R27), what is observed of a run (R172), the inputs (R59 to R61), the reasons a step can stop, and the state after
reset (R29). INVENTORY.md lists every field with its rule and its reset value. -/

namespace Sys2Proof.Machine

/-- R20: a queue entry, "{ payload: byte sequence, enqueue_timestamp, retry_count }". -/
structure Command where
  payload : Bytes
  enqueueTimestamp : Time
  retryCount : Nat
deriving DecidableEq, Repr

/-- R21: `ADV_STATE`, "exactly three values, `Idle`, `Advertising`, `Gap`". -/
inductive AdvState where
  | idle
  | advertising
  | gap
deriving DecidableEq, Repr

/-- R25, R30: the assembly buffer, offsets `0` to `len - 1`. `cells` lists, by rising offset, the bytes that are not
0x00; an offset below `len` that is not listed holds 0x00 ("every byte zero when allocated"). -/
structure Buf where
  len : Nat
  cells : List Host.Cell
deriving DecidableEq, Repr

/-- R23 to R25: the transient registers of the units. -/
structure Units where
  /-- R23 `W[0..6]`. -/
  w : WhState
  /-- R24 `CRC_ACC`. -/
  crcAcc : Half
  /-- R24 `CRC_TMP`. -/
  crcTmp : Half
  /-- R25 `BUF`. -/
  buf : Buf
deriving DecidableEq, Repr

/-- R60: "advertisement type (non-connectable, undirected)"; symbolic (D30, log 35). -/
inductive AdvType where
  | nonConnectableUndirected
deriving DecidableEq, Repr

/-- R60: "public address type"; symbolic. -/
inductive OwnAddressType where
  | publicAddress
deriving DecidableEq, Repr

/-- R60: "broadcast channel map"; symbolic. -/
inductive ChannelMap where
  | broadcastChannels
deriving DecidableEq, Repr

/-- R60: "filter policy (allow any scanner/connector)"; symbolic. -/
inductive FilterPolicy where
  | allowAny
deriving DecidableEq, Repr

/-- R60: the argument of `start_advertising`. -/
structure AdvParams where
  intervalMin : Half
  intervalMax : Half
  advType : AdvType
  ownAddressType : OwnAddressType
  channelMap : ChannelMap
  filterPolicy : FilterPolicy
deriving DecidableEq, Repr

/-- R60, R172 (b): one call to the radio driver, its argument, and the status it returned. -/
inductive RadioCall where
  | configure (frame : Bytes) (status : RadioStatus)
  | start (params : AdvParams) (status : RadioStatus)
  | stop (status : RadioStatus)
deriving DecidableEq, Repr

/-- R135: the four error events, with the information each records. -/
inductive LogEvent where
  | queueFull (lightId : LightId)
  | radioConfigFailure
  | radioStartFailure
  | missingController (lightId : LightId)
deriving DecidableEq, Repr

/-- R45, R46: the result record of a request, "a value, a byte string, or nothing". -/
inductive Result where
  | byte (v : Byte)
  | half (v : Half)
  | bytes (v : Bytes)
  | whState (w : WhState)
  | whBuffer (w : WhState) (buffer : Bytes)
  | nothing
deriving DecidableEq, Repr

/-- R59, R171: one move of a context on the host port (log 32). -/
inductive HostAction where
  /-- A context with nothing in progress issues a request that runs to its end before any other context acts. -/
  | request (q : Request)
  /-- Context `context` issues a request and runs its first atomic action (R40). -/
  | start (context : Nat) (q : Request)
  /-- The TICK in progress runs its next atomic action. -/
  | resumeTick
  /-- The LIGHT_WRITE in progress of context `context` runs its next atomic action. -/
  | resumeWrite (context : Nat)
  /-- R139, R158 (3): the setup-time check of one light. -/
  | setupLight (lightId : LightId)
deriving DecidableEq, Repr

/-- R40, R127, R128: what a TICK in progress does next, one atomic action each. -/
inductive TickActivity where
  /-- The head has been removed; the next action is the configure call with this frame. -/
  | configure (now : Time) (frame : Bytes)
  /-- The next action is the start call. -/
  | startRadio (now : Time)
  /-- The next action is the write of `ADV_STATE`. -/
  | setState (target : AdvState) (now : Time)
  /-- The next action is the write of `STATE_START_TIME`. -/
  | setTime (now : Time)
deriving DecidableEq, Repr

/-- R40: a TICK in progress and the context that issued it. -/
structure PendingTick where
  context : Nat
  activity : TickActivity
deriving DecidableEq, Repr

/-- R42: a LIGHT_WRITE of one context between its CMD_ENCODE and its Q_ENQUEUE. -/
structure PendingWrite where
  context : Nat
  lightId : LightId
  payload : Bytes
deriving DecidableEq, Repr

/-- The machine. -/
structure State where
  /-- The configuration registers and function parameters (R14, R15, R17, R18, R28, R6). -/
  cfg : Config
  /-- R13 `SEQ`. -/
  seq : Byte
  /-- R19 `QUEUE`, the oldest entry first. -/
  queue : List Command
  /-- R21 `ADV_STATE`. -/
  advState : AdvState
  /-- R22 `STATE_START_TIME`. -/
  stateStartTime : Time
  /-- R26 `QLOCK`, true when held. -/
  qlock : Bool
  /-- R23 to R25, the transient registers. -/
  units : Units
  /-- R27 `RADIO_ON`. -/
  radioOn : Bool
  /-- R27 `RADIO_DATA`. -/
  radioData : Bytes
  /-- R60, R172 (b): the radio trace, oldest first. -/
  radioTrace : List RadioCall
  /-- R62, R172 (c): the log trace, oldest first. -/
  logTrace : List LogEvent
  /-- R172 (a): the result records, oldest first. -/
  results : List Result
  /-- R59, R171: the moves of the contexts still to come, next first. -/
  host : List HostAction
  /-- R60: the statuses the radio driver will return, next first (log 29). -/
  radioStatuses : List RadioStatus
  /-- R61: the values the clock port will give to Q_ENQUEUE, next first (log 30). -/
  clockReads : List Time
  /-- R40: the TICK in progress, if any. -/
  tickInProgress : Option PendingTick
  /-- R42: the LIGHT_WRITEs in progress. -/
  writesInProgress : List PendingWrite
  /-- The model's own: how many free values have been used (log 41). -/
  freeIndex : Nat
deriving DecidableEq, Repr

/-- Why the machine stops. Every one is safe: it stops where the spec says the situation does not arise. -/
inductive Fault where
  /-- An offset outside `0 .. L-1` of BUF; raised by RF_BUILD and its callers. R30: "no rule of the spec computes an
  offset outside that range". Safe. -/
  | bufOffset
  /-- QLOCK is held when an operation acquires it; raised by Q_ENQUEUE, Q_CLEAR, TICK and LIGHT_WRITE. R26: "No
  operation leaves it held when it returns", so its holder would never release it: a stuck state. Safe. -/
  | queueLockHeld
  /-- A TICK while another is in progress; raised by TICK. R174 lists "two TICK requests that overlap in time" under
  never: a race. Safe. -/
  | tickOverlap
  /-- A context issues a request while its TICK or LIGHT_WRITE is in progress; raised by the host port. R40: "each
  context's own actions keep their program order". Safe. -/
  | contextBusy
deriving DecidableEq, Repr

/-- Why a request has no meaning. -/
inductive Refusal where
  /-- An instruction with no meaning yet; raised by exec's arms only. Safe. -/
  | notModelled (mnemonic : String)
  /-- The decoder refuses the request; raised by the host port. Safe. -/
  | badRequest (reason : DecodeError)
  /-- R48 (a): SLC_FRAME with more than 14 bytes of light data; raised by SLC_FRAME. Safe (D34). -/
  | lightDataTooLong
  /-- R48 (b), R122: an AD frame longer than 31 bytes; raised by ADV_FRAME and by TICK in Idle. Safe (D20). -/
  | advertisementTooLong
  /-- R48 (c): a channel above 1; raised by LV_MAP and LIGHT_WRITE. Safe (D14). -/
  | channelAboveOne
  /-- A rational operand with denominator 0, which the decoder never lets through; raised by LV_MAP and LIGHT_WRITE.
  Safe (log 19). -/
  | notARational
deriving DecidableEq, Repr

/-- A fault or a refusal, as the operations pass it on. -/
inductive Stop where
  | fault (r : Fault)
  | refusal (r : Refusal)
deriving DecidableEq, Repr

/-- R29: the state after reset with the configuration `cfg`, which the environment supplies before the first
operation (R157, log 36). -/
def State.configured (cfg : Config) : State where
  cfg := cfg
  seq := 0
  queue := []
  advState := .idle
  stateStartTime := 0
  qlock := false
  units := ⟨⟨false, false, false, false, false, false, false⟩, 0, 0, ⟨0, []⟩⟩
  radioOn := false
  radioData := []
  radioTrace := []
  logTrace := []
  results := []
  host := []
  radioStatuses := []
  clockReads := []
  tickInProgress := none
  writesInProgress := []
  freeIndex := 0

/-- R29, R153: the state after reset, with the configuration of log 3 and log 4. -/
def State.reset : State := .configured .atReset

end Sys2Proof.Machine
end

