-- ==== Sys2Proof/Machine/Ops.lean ====
section
/-! DEFINITION. The named operations over memory, registers and ports that the units share: the assembly buffer
(spec/20_memory.md R30), the queue lock (R26, R38), the log, result and clock ports (spec/30_encoding.md R60 to
R62), the radio driver's calls (R60, R27), and raising an error event, which is all this block has in place of an
exception entry and return (spec/60_exceptions.md R135, R143, R144). -/

namespace Sys2Proof

/-- R60: the argument of `start_advertising`. -/
def Config.params (cfg : Config) : Machine.AdvParams where
  intervalMin := cfg.advIntervalMin
  intervalMax := cfg.advIntervalMax
  advType := .nonConnectableUndirected
  ownAddressType := .publicAddress
  channelMap := .broadcastChannels
  filterPolicy := .allowAny

end Sys2Proof

namespace Sys2Proof.Machine

/-! ### Bits -/

/-- The `n`-bit value whose bit `i` is `f i`. -/
def ofBits (f : Nat → Bool) : (n : Nat) → BitVec n
  | 0 => 0#0
  | n + 1 => BitVec.cons (f n) (ofBits f n)

/-! ### Function parameters -/

/-- The function that differs from `f` at the listed inputs only; the first entry for an input counts. -/
def override {α β : Type} [DecidableEq α] : List (α × β) → (α → β) → α → β
  | [], f, x => f x
  | (k, v) :: m, f, x => if k = x then v else override m f x

/-! ### Memory: byte cells in one canonical form -/

/-- R30: what an unlisted offset of an allocated buffer reads as. -/
def unlistedByte : Byte := 0x00

/-- The canonical form: offsets strictly rising, no entry equal to what an unlisted offset reads as. -/
abbrev Memory.wf (m : List Host.Cell) : Prop :=
  m.Pairwise (fun c d => c.1 < d.1) ∧ ∀ c ∈ m, c.2 ≠ unlistedByte

/-- The byte at an offset. -/
def Memory.get : List Host.Cell → Nat → Byte
  | [], _ => unlistedByte
  | (k, v) :: m, a => if k = a then v else Memory.get m a

/-- List a byte that differs from `unlistedByte`. -/
def Memory.list (a : Nat) (v : Byte) : List Host.Cell → List Host.Cell
  | [] => [(a, v)]
  | (k, x) :: m =>
    if a < k then (a, v) :: (k, x) :: m
    else if a = k then (a, v) :: m
    else (k, x) :: Memory.list a v m

/-- Remove an offset's entry. -/
def Memory.unlist (a : Nat) : List Host.Cell → List Host.Cell
  | [] => []
  | (k, x) :: m => if k = a then m else (k, x) :: Memory.unlist a m

/-- Write one byte, keeping the canonical form. -/
def Memory.set (a : Nat) (v : Byte) (m : List Host.Cell) : List Host.Cell :=
  if v = unlistedByte then Memory.unlist a m else Memory.list a v m

/-! ### The assembly buffer -/

/-- R25: "allocated", "every byte zero when allocated". -/
def Buf.alloc (len : Nat) : Buf := ⟨len, []⟩

/-- R25: no buffer; what remains when it "is discarded". -/
def Buf.discarded : Buf := Buf.alloc 0

/-- The buffer's bytes are in canonical form and inside it. -/
abbrev Buf.wf (b : Buf) : Prop := Memory.wf b.cells ∧ ∀ c ∈ b.cells, c.1 < b.len

/-- R8, R30: `MemRead(a, 1)`, "defined for `0 <= a < L` only". -/
def Buf.read (b : Buf) (a : Nat) : Option Byte :=
  if a < b.len then some (Memory.get b.cells a) else none

/-- R8, R30: `MemWrite(a, 1, v)`, "defined for `0 <= a < L` only". -/
def Buf.write (b : Buf) (a : Nat) (v : Byte) : Option Buf :=
  if a < b.len then some ⟨b.len, Memory.set a v b.cells⟩ else none

/-- A sequence of `MemWrite`s, in order. -/
def Buf.writeAll (b : Buf) : List (Nat × Byte) → Option Buf
  | [] => some b
  | (a, v) :: ws =>
    match b.write a v with
    | none => none
    | some b' => b'.writeAll ws

/-- The buffer as a byte string, `BUF[0 .. L)`. -/
def Buf.toBytes (b : Buf) : Bytes := (List.range b.len).map (Memory.get b.cells)

/-! ### Ending an operation -/

/-- An operation's end: its next state, or the stop it met. -/
def conclude : Except Stop State → Host.Outcome State Fault Refusal
  | .ok s => .next s
  | .error (.fault r) => .fault r
  | .error (.refusal r) => .refused r

/-- R45: "The block answers with a result record". -/
def State.answer (s : State) (r : Result) : State := { s with results := s.results ++ [r] }

/-- R135 `raise E(info)`: "emit the event `E` with `info` on the log port, make no state change other than those the
operation's own pseudocode has already made". The operation then returns (R143, R144): no register is saved, no
handler runs, nothing is restored. -/
def State.raise (s : State) (e : LogEvent) : State := { s with logTrace := s.logTrace ++ [e] }

/-! ### The queue lock -/

/-- R26, R38: acquire `QLOCK`. -/
def State.acquire (s : State) : Except Stop State :=
  if s.qlock then .error (.fault .queueLockHeld) else .ok { s with qlock := true }

/-- R26, R38: release `QLOCK`. -/
def State.release (s : State) : State := { s with qlock := false }

/-! ### The clock port -/

/-- R61, R117: one read of the clock: the next scripted value, or a free value when none is scripted (log 30). -/
def State.readClock (s : State) : Time × State :=
  match s.clockReads with
  | t :: ts => (t, { s with clockReads := ts })
  | [] => (Config.freeClock s.freeIndex, { s with freeIndex := s.freeIndex + 1 })

/-! ### The radio port -/

/-- R60: the status of the next call: the next scripted one, or a free value when none is scripted (log 29). -/
def State.takeStatus (s : State) : RadioStatus × State :=
  match s.radioStatuses with
  | st :: sts => (st, { s with radioStatuses := sts })
  | [] => (Config.freeStatus s.freeIndex, { s with freeIndex := s.freeIndex + 1 })

/-- R27: `RADIO_DATA` after a configure call: "the last byte string accepted"; after a failed one a free value
(U13, log 27). -/
def dataAfterConfigure (frame : Bytes) (st : RadioStatus) (index : Nat) : Bytes :=
  match st with
  | .ok => frame
  | .fail => Config.freeRadioData index

/-- R27, R130: `RADIO_ON` after a start call: true after a successful one; after a failed one the radio "is not
advertising", but if it was on already a free value (R166, log 26). -/
def onAfterStart (on : Bool) (st : RadioStatus) (index : Nat) : Bool :=
  match st with
  | .ok => true
  | .fail => on && Config.freeRadioOn index

/-- R27: `RADIO_ON` after a stop call: false after a successful one; after a failed one a free value (U12, log 26). -/
def onAfterStop (st : RadioStatus) (index : Nat) : Bool :=
  match st with
  | .ok => false
  | .fail => Config.freeRadioOn index

/-- R172 (b): the status a call of the trace returned. -/
def RadioCall.status : RadioCall → RadioStatus
  | .configure _ st => st
  | .start _ st => st
  | .stop st => st

/-- R60: `call RADIO.configure_advertisement_data(frame) -> st`. A radio that is off stays off; of one that is on
when configured nothing is known (R166, log 26). -/
def State.configureRadio (s : State) (frame : Bytes) : RadioStatus × State :=
  let p := s.takeStatus
  (p.1, { p.2 with
    radioData := dataAfterConfigure frame p.1 p.2.freeIndex
    radioOn := p.2.radioOn && Config.freeRadioOn p.2.freeIndex
    radioTrace := p.2.radioTrace ++ [.configure frame p.1]
    freeIndex := p.2.freeIndex + 1 })

/-- R60: `call RADIO.start_advertising(params) -> st`. -/
def State.startRadio (s : State) : RadioStatus × State :=
  let p := s.takeStatus
  (p.1, { p.2 with
    radioOn := onAfterStart p.2.radioOn p.1 p.2.freeIndex
    radioTrace := p.2.radioTrace ++ [.start (p.2.cfg.params) p.1]
    freeIndex := p.2.freeIndex + 1 })

/-- R60, R128: `call RADIO.stop_advertising() -> st`; "the status is ignored". -/
def State.stopRadio (s : State) : State :=
  let p := s.takeStatus
  { p.2 with
    radioOn := onAfterStop p.1 p.2.freeIndex
    radioTrace := p.2.radioTrace ++ [.stop p.1]
    freeIndex := p.2.freeIndex + 1 }

end Sys2Proof.Machine
end

