-- ==== Sys2Proof/Machine/Operands.lean ====
section
/-! DEFINITION. How operands are taken apart (spec/30_encoding.md R47, R57) and the exact rational arithmetic of the
light value mapper (spec/45_light_mapper.md R105, R106). No operand is a register number or an address (R47). -/

namespace Sys2Proof

/-- R57: the twelve bits of a light id that are read. -/
def lightIdRead (lightId : LightId) : BitVec 12 := lightId.extractLsb' 0 12

/-- R28: `BOUND(light_id)`, by the bits of the id that are read (log 22). -/
def Config.isBound (cfg : Config) (lightId : LightId) : Bool := cfg.bound.contains (lightIdRead lightId)

/-- `q = 0`. -/
def Ratio.isZero (q : Ratio) : Bool := q.num == 0

/-- `q > 1`. -/
def Ratio.aboveOne (q : Ratio) : Bool := q.den < q.num

end Sys2Proof

namespace Sys2Proof.Machine

/-- R57: "bits 11:8 go to `h0[3:0]` of format CF". -/
def lightIdHigh (lightId : LightId) : BitVec 4 := lightId.extractLsb' 8 4

/-- R57: "bits 7:0 go to `s1` of format SL". -/
def lightIdLow (lightId : LightId) : Byte := lightId.extractLsb' 0 8

/-- A bit as a byte. -/
def bitByte (b : Bool) : Byte := (BitVec.ofBool b).setWidth 8

/-- R7, R105: `trunc(q * n)`, "the largest integer not above it". -/
def truncMul (q : Ratio) (n : Nat) : Nat := q.num * n / q.den

/-- The four bytes `KEY[0..3]`, indexed "by position mod 4" (R51). -/
def keyByte (k : Key) (j : Nat) : Byte :=
  match j % 4 with
  | 0 => k.k0
  | 1 => k.k1
  | 2 => k.k2
  | _ => k.k3

/-- R15: the address as the operand of RF_PREPARE, `MESH_ADDRESS[0]` first. -/
def addressBytes (a : MeshAddress) : Bytes := [a.a0, a.a1, a.a2]

end Sys2Proof.Machine
end

