-- ==== Sys2Proof/Machine/Flags.lean ====
section
/-! DEFINITION. The block "has no status flags, condition codes or predicate registers" (spec/10_state.md R12). What
stands here is what operations decide on in their place: the conditions of the queue and the scheduler, and the
numeric codes of the error events and of ADV_STATE. -/

namespace Sys2Proof.Machine

/-- R116: the queue "is at capacity", `len(QUEUE) >= MAX_QUEUE_SIZE`. -/
def State.atCapacity (s : State) : Bool := s.cfg.maxQueueSize ≤ s.queue.length

/-- R126: `elapsed = (now - STATE_START_TIME) mod 2^32`. -/
def State.elapsed (s : State) (now : Time) : Time := now - s.stateStartTime

/-- R126, R128: `elapsed >= ADV_DURATION`, unsigned. -/
def State.durationOver (s : State) (now : Time) : Bool := s.cfg.advDuration ≤ s.elapsed now

/-- R126, R129: `elapsed >= ADV_GAP`, unsigned. -/
def State.gapOver (s : State) (now : Time) : Bool := s.cfg.advGap ≤ s.elapsed now

/-- R135: the code of an error event (D27). -/
def LogEvent.code : LogEvent → Nat
  | .queueFull _ => 1
  | .radioConfigFailure => 2
  | .radioStartFailure => 3
  | .missingController _ => 4

/-- R21: the 2-bit encoding of ADV_STATE; the code 3 is no state (D26). -/
def AdvState.code : AdvState → BitVec 2
  | .idle => 0
  | .advertising => 1
  | .gap => 2

end Sys2Proof.Machine
end

