-- ==== Sys2Proof/Machine/Bitrev.lean ====
section
/-! DEFINITION. Bit and byte reversal units (spec/40_bitrev.md R63 to R67) and their three operations. -/

namespace Sys2Proof.Machine

/-- R63: "for i = 0 to 7: out[i] = b[7 - i]". -/
def rev8 (b : Byte) : Byte := ofBits (fun i => b.getLsbD (7 - i)) 8

/-- R64: "for i = 0 to 15: out[i] = h[15 - i]". -/
def rev16 (h : Half) : Half := ofBits (fun i => h.getLsbD (15 - i)) 16

/-- R65: "for i = 0 to n - 1: out[i] = s[n - 1 - i]". -/
def byteRev (str : Bytes) : Bytes := str.reverse

/-- REV8 (R63). -/
def execRev8 (b : Byte) (s : State) : Host.Outcome State Fault Refusal :=
  .next (s.answer (.byte (rev8 b)))

/-- REV16 (R64). -/
def execRev16 (h : Half) (s : State) : Host.Outcome State Fault Refusal :=
  .next (s.answer (.half (rev16 h)))

/-- BYTEREV (R65). -/
def execByterev (str : Bytes) (s : State) : Host.Outcome State Fault Refusal :=
  .next (s.answer (.bytes (byteRev str)))

end Sys2Proof.Machine
end

