-- ==== Sys2Proof/Machine/Crc.lean ====
section
/-! DEFINITION. The CRC-16 variant engine (spec/41_crc16.md R68 to R74), written step by step as the rules are: R167
forbids a shorter form. The functions take the parameter CRC_ROUND (R70); the machine runs the configured one. -/

namespace Sys2Proof.Machine

/-- R24: the registers of the engine. -/
structure CrcRegs where
  acc : Half
  tmp : Half
deriving DecidableEq, Repr

/-- R70 ROUND, the default of the parameter: `(CRC_TMP, out)`. The second test is on bit 15 of CRC_TMP (D3, log 9). -/
def crcRound : CrcRound := fun acc =>
  let tmp := if acc.getLsbD 15 then (acc <<< 1) ^^^ 0x1021 else acc <<< 1
  let out := if tmp.getLsbD 15 then (tmp <<< 1) ^^^ 0x1021 else tmp <<< 1
  (tmp, out)

/-- The reading that D3 sets aside (V17), not used by the machine: the second exclusive or reuses the first test. -/
def crcRoundSetAside : CrcRound := fun acc =>
  let tmp := if acc.getLsbD 15 then (acc <<< 1) ^^^ 0x1021 else acc <<< 1
  let out := if acc.getLsbD 15 then (tmp <<< 1) ^^^ 0x1021 else tmp <<< 1
  (tmp, out)

end Sys2Proof.Machine

namespace Sys2Proof

/-- R6, R70: the configured `CRC_ROUND` (log 9). -/
def Config.round (cfg : Config) : CrcRound := Machine.override cfg.crcRoundTable Machine.crcRound

end Sys2Proof

namespace Sys2Proof.Machine

/-- `n` rounds. -/
def crcRounds (round : CrcRound) : Nat → CrcRegs → CrcRegs
  | 0, c => c
  | n + 1, c => crcRounds round n ⟨(round c.acc).2, (round c.acc).1⟩

/-- R69 FOLD: "`acc = acc ^ (zext_16(x) << 8)`; repeat 4 times: `acc = ROUND(acc)`". -/
def crcFold (round : CrcRound) (c : CrcRegs) (x : Byte) : CrcRegs :=
  crcRounds round 4 ⟨c.acc ^^^ (x.setWidth 16 <<< 8), c.tmp⟩

/-- R68, R71, R72: CRC_ACC is 0xFFFF; the address bytes are folded last byte first as they are; then the data bytes
first byte first, each through REV8. CRC_TMP starts as the register stands. -/
def crcRun (round : CrcRound) (address data : Bytes) (tmp : Half) : CrcRegs :=
  data.foldl (fun c x => crcFold round c (rev8 x)) ((byteRev address).foldl (crcFold round) ⟨0xFFFF, tmp⟩)

/-- R73: "bit-reversed (16-bit) then one's-complemented". -/
def crcFinal (acc : Half) : Half := ~~~(rev16 acc)

/-- R68: the value of CRC16. -/
def crc16 (round : CrcRound) (address data : Bytes) : Half := crcFinal (crcRun round address data 0).acc

/-- R24, R68: what CRC16 does to the transient registers. -/
def Units.runCrc (round : CrcRound) (address data : Bytes) (u : Units) : Units :=
  let c := crcRun round address data u.crcTmp
  { u with crcAcc := c.acc, crcTmp := c.tmp }

/-- CRC16 (R68). -/
def execCrc16 (address data : Bytes) (s : State) : Host.Outcome State Fault Refusal :=
  let u := s.units.runCrc s.cfg.round address data
  .next ({ s with units := u }.answer (.half (crcFinal u.crcAcc)))

end Sys2Proof.Machine
end

