-- ==== Sys2Proof/Machine/Whitening.lean ====
section
/-! DEFINITION. The 7-bit LFSR whitening stream generator (spec/42_whitening.md R75 to R83). The functions take the
parameter WH_WIRING; the machine runs the configured one, by default `whWiring`, the serial form of R77 and R78. The
parallel form of R79 and R80 stands beside it. -/

namespace Sys2Proof.Machine

/-- R76 WH_INIT: the constant in `W[0]`, seed bits 5 down to 0 in `W[1..6]` (D4, D5, log 10). -/
def whInit (seed : Byte) : WhState :=
  ⟨true, seed.getLsbD 5, seed.getLsbD 4, seed.getLsbD 3, seed.getLsbD 2, seed.getLsbD 1, seed.getLsbD 0⟩

/-- R77 STEP: all seven assignments from the old values, and the stream bit. -/
def whStep (w : WhState) : WhState × Bool :=
  (⟨w.w6, w.w0, w.w1, w.w2, w.w3 ^^ w.w6, w.w4, w.w5⟩, w.w6)

/-- R78: `n` clocks from clock `k` on; the stream bit of clock `k` is exclusive-ored into bit `k`. -/
def whClocks : (n k : Nat) → WhState → Byte → WhState × Byte
  | 0, _, w, c => (w, c)
  | n + 1, k, w, c => whClocks n (k + 1) (whStep w).1 (c ^^^ (bitByte (whStep w).2 <<< k))

/-- R78 BYTE: eight clocks, `k = 0` to 7. -/
def whByte (w : WhState) (c : Byte) : WhState × Byte := whClocks 8 0 w c

/-- The default of the parameter WH_WIRING (R76 to R78). -/
def whWiring : WhWiring := ⟨whInit, whByte⟩

end Sys2Proof.Machine

namespace Sys2Proof

/-- R6: the configured `WH_WIRING` (log 10). -/
def Config.wiring (cfg : Config) : WhWiring where
  init := Machine.override cfg.whInitTable Machine.whInit
  byteStep := fun w c => Machine.override cfg.whByteTable (fun x => Machine.whByte x.1 x.2) (w, c)

/-- The two function parameters of the configuration. -/
def Config.engine (cfg : Config) : Engine := ⟨cfg.round, cfg.wiring⟩

end Sys2Proof

namespace Sys2Proof.Machine

/-- R79, R80: BYTE in its parallel form. -/
def whByteParallel (w : WhState) (c : Byte) : WhState × Byte :=
  let t8 := w.w5 ^^ w.w2
  let t4 := w.w4 ^^ w.w1
  let tv := w.w6 ^^ w.w3
  let t0 := tv ^^ w.w0
  let n0 := t8 ^^ w.w6
  let n1 := t0
  let n2 := t4
  let n3 := t8
  let n4 := t8 ^^ w.w3
  let n5 := t0 ^^ w.w4
  let n6 := t4 ^^ w.w5
  let out := [w.w6, w.w5, w.w4, tv, n3, n2, n1, n0]
  (⟨n0, n1, n2, n3, n4, n5, n6⟩, ofBits (fun k => c.getLsbD k ^^ out.getD k false) 8)

/-- R81 WH_ENCODE: "for i = 0 to n - 1: (W, buffer[i]) = BYTE(W, buffer[i])". -/
def whEncode (wiring : WhWiring) : WhState → Bytes → WhState × Bytes
  | w, [] => (w, [])
  | w, c :: cs =>
    let p := wiring.byteStep w c
    let q := whEncode wiring p.1 cs
    (q.1, p.2 :: q.2)

/-- R82 (b): `KS(seed)[0..n-1]`, the encoding of `n` zero bytes. -/
def keyStream (wiring : WhWiring) (seed : Byte) (n : Nat) : Bytes :=
  (whEncode wiring (wiring.init seed) (List.replicate n 0x00)).2

/-- WH_INIT (R76). -/
def execWhInit (seed : Byte) (s : State) : Host.Outcome State Fault Refusal :=
  let w := s.cfg.wiring.init seed
  .next ({ s with units := { s.units with w := w } }.answer (.whState w))

/-- WH_ENCODE (R81): from the operand's state; the register is left at the state returned. -/
def execWhEncode (state : WhState) (buffer : Bytes) (s : State) : Host.Outcome State Fault Refusal :=
  let p := whEncode s.cfg.wiring state buffer
  .next ({ s with units := { s.units with w := p.1 } }.answer (.whBuffer p.1 p.2))

end Sys2Proof.Machine
end

