-- ==== Sys2Proof/Machine/Rf.lean ====
section
/-! DEFINITION. The RF payload builder (spec/43_rf_payload.md R84 to R91): the assembly buffer filled write by write as
the pseudocode of R84 does, and the formats RB and PL of spec/30_encoding.md R54, R55 as tables beside it. -/

namespace Sys2Proof.Machine

/-- The spec's default instance of the two function parameters (logs 9 and 10). -/
def engine : Engine := ⟨crcRound, whWiring⟩

/-- R6: `PREFIX_LEN`. -/
def prefixLen : Nat := 0x0F

/-- R6: `ADDR_OFFSET`. -/
def addrOffset : Nat := 0x12

/-- R6: `WH_SEED`. -/
def whSeed : Byte := 0x25

/-- R84: `MemWrite(0x0F, 1, 0x71); MemWrite(0x10, 1, 0x0F); MemWrite(0x11, 1, 0x55)` (D6, log 15). -/
def markerWrites : List (Nat × Byte) := [(0x0F, 0x71), (0x10, 0x0F), (0x11, 0x55)]

/-- R84, R85: `MemWrite(0x12 + A - 1 - i, 1, address[i])` for the bytes from index `i` on, `A` the address's length. -/
def addressWrites (A : Nat) : Nat → Bytes → List (Nat × Byte)
  | _, [] => []
  | i, x :: xs => (addrOffset + A - 1 - i, x) :: addressWrites A (i + 1) xs

/-- R84, R88: `MemWrite(base + j, 1, data[j])` for the bytes from `base` on. -/
def dataWrites : Nat → Bytes → List (Nat × Byte)
  | _, [] => []
  | base, x :: xs => (base, x) :: dataWrites (base + 1) xs

/-- R84, R86: `MemWrite(p, 1, REV8(MemRead(p, 1)))` for the `n` offsets from `p` on. -/
def reverseRange : (n p : Nat) → Buf → Option Buf
  | 0, _, b => some b
  | n + 1, p, b =>
    match b.read p with
    | none => none
    | some v =>
      match b.write p (rev8 v) with
      | none => none
      | some b' => reverseRange n (p + 1) b'

/-- R84 RF_BUILD, the steps in the order of the pseudocode. None when an offset lies outside the buffer. -/
def rfBuild (e : Engine) (address data : Bytes) (u : Units) : Option Units :=
  let A := address.length
  let N := data.length
  let b0 := Buf.alloc (addrOffset + A + N + 2)
  match b0.writeAll markerWrites with
  | none => none
  | some b1 =>
    match b1.writeAll (addressWrites A 0 address) with
    | none => none
    | some b2 =>
      match b2.writeAll (dataWrites (addrOffset + A) data) with
      | none => none
      | some b3 =>
        match reverseRange (A + 3) 0x0F b3 with
        | none => none
        | some b4 =>
          let v := u.runCrc e.round address data
          let crc := crcFinal v.crcAcc
          match b4.writeAll [(addrOffset + A + N, crc.extractLsb' 0 8),
              (addrOffset + A + N + 1, crc.extractLsb' 8 8)] with
          | none => none
          | some b5 => some { v with buf := b5 }

/-- R89 RF_PREPARE: lay out, whiten all `L` bytes from offset 0 with the seed 0x25, return `BUF[0x0F .. L)`. BUF "is
discarded when RF_PREPARE returns" (R25). -/
def rfPrepare (e : Engine) (address data : Bytes) (u : Units) : Option (Bytes × Units) :=
  match rfBuild e address data u with
  | none => none
  | some v =>
    let p := whEncode e.wiring (e.wiring.init whSeed) v.buf.toBytes
    some (p.2.drop prefixLen, { v with w := p.1, buf := Buf.discarded })

/-- R54: format RB as its table gives it. -/
def formatRB (round : CrcRound) (address data : Bytes) : Bytes :=
  List.replicate 15 0x00 ++ [0x8E, 0xF0, 0xAA] ++ (byteRev address).map rev8 ++ data
    ++ [(crc16 round address data).extractLsb' 0 8, (crc16 round address data).extractLsb' 8 8]

/-- R89: what RF_PREPARE returns, for any instance of the two function parameters. -/
def rfPayload (e : Engine) (address data : Bytes) : Bytes :=
  (whEncode e.wiring (e.wiring.init whSeed) (formatRB e.round address data)).2.drop prefixLen

/-- R55: format PL, which is `rfPayload` where the wiring adds a stream, as the default does: "bytes `0x0F` to `L-1` of format RB, each XORed with the whitening stream byte of its own offset
in RB". -/
def formatPL (e : Engine) (address data : Bytes) : Bytes :=
  let rb := formatRB e.round address data
  (List.zipWith (· ^^^ ·) rb (keyStream e.wiring whSeed rb.length)).drop 0x0F

/-- RF_BUILD (R84). -/
def execRfBuild (address data : Bytes) (s : State) : Host.Outcome State Fault Refusal :=
  match rfBuild s.cfg.engine address data s.units with
  | none => .fault .bufOffset
  | some u => .next ({ s with units := u }.answer (.bytes u.buf.toBytes))

/-- RF_PREPARE (R89). -/
def execRfPrepare (address data : Bytes) (s : State) : Host.Outcome State Fault Refusal :=
  match rfPrepare s.cfg.engine address data s.units with
  | none => .fault .bufOffset
  | some (payload, u) => .next ({ s with units := u }.answer (.bytes payload))

end Sys2Proof.Machine
end

