-- ==== Sys2Proof/Machine/Command.lean ====
section
/-! DEFINITION. The command encoder (spec/44_command_encoder.md R92 to R103): header, sequence draw, checksum, XOR
cipher, formats CF and CE (spec/30_encoding.md R49 to R51). -/

namespace Sys2Proof.Machine

/-- R16: `ENC_KEY`, hardwired (D11, log 14). -/
def encKey : Key := ⟨0x5E, 0x36, 0x7B, 0xC4⟩

/-- R93: `h0 = (forward << 7) | (kind << 4) | light_id[11:8]` (D8, log 11). -/
def header0 (kind : Kind) (lightId : LightId) (forward : Bool) : Byte :=
  (bitByte forward <<< 7) ||| (kind.setWidth 8 <<< 4) ||| (lightIdHigh lightId).setWidth 8

/-- R95: `nx = SEQ + 1`, "computed without truncation"; "`SEQ <- (if nx >= 255 then 1 else nx)`" (D9, log 12). -/
def seqNext (seq : Byte) : Byte :=
  let nx := seq.toNat + 1
  if 255 ≤ nx then 1 else BitVec.ofNat 8 nx

/-- R97: `h3 = (h0 + h1 + h2 + body[0] + ... + body[n-1]) mod 256` (D10, log 13). -/
def checksum (h0 h1 h2 : Byte) (body : Bytes) : Byte :=
  BitVec.ofNat 8 (h0.toNat + h1.toNat + h2.toNat + (body.map BitVec.toNat).sum)

/-- R49: the four header bytes of format CF, with the key and the sequence value drawn. -/
def clearHeader (key : Key) (seq : Byte) (kind : Kind) (lightId : LightId) (body : Bytes) (forward : Bool) : Bytes :=
  let h0 := header0 kind lightId forward
  [h0, seq, key.k3, checksum h0 seq key.k3 body]

/-- R49: format CF. -/
def formatCF (key : Key) (seq : Byte) (kind : Kind) (lightId : LightId) (body : Bytes) (forward : Bool) : Bytes :=
  clearHeader key seq kind lightId body forward ++ body

/-- R98, R99: exclusive or with a key, "cyclically indexed by position mod 4", from position `j` on. -/
def xorKey (key : Key) : Nat → Bytes → Bytes
  | _, [] => []
  | j, x :: xs => (x ^^^ keyByte key j) :: xorKey key (j + 1) xs

/-- R51: format CE: the header under ENC_KEY, the body under MESH_KEY, each from position 0. -/
def formatCE (key : Key) (seq : Byte) (kind : Kind) (lightId : LightId) (body : Bytes) (forward : Bool) : Bytes :=
  xorKey encKey 0 (clearHeader key seq kind lightId body forward) ++ xorKey key 0 body

/-- R92 CMD_ENCODE as the other operations call it: the payload, and the state with `SEQ` drawn. One atomic action
(R41, log 33). -/
def cmdEncode (kind : Kind) (lightId : LightId) (body : Bytes) (forward : Bool) (s : State) :
    Except Stop (Bytes × State) :=
  let frame := formatCE s.cfg.meshKey s.seq kind lightId body forward
  match rfPrepare s.cfg.engine (addressBytes s.cfg.meshAddress) frame s.units with
  | none => .error (.fault .bufOffset)
  | some (payload, u) => .ok (payload, { s with seq := seqNext s.seq, units := u })

/-- CMD_ENCODE (R92). -/
def execCmdEncode (kind : Kind) (lightId : LightId) (body : Bytes) (forward : Bool) (s : State) :
    Host.Outcome State Fault Refusal :=
  conclude (do
    let p ← cmdEncode kind lightId body forward s
    pure (p.2.answer (.bytes p.1)))

end Sys2Proof.Machine
end

