-- ==== Sys2Proof/Machine/Queue.lean ====
section
/-! DEFINITION. The payload queue and the advertisement-data framer (spec/46_queue_scheduler.md R115 to R122). -/

namespace Sys2Proof.Machine

/-- R115 Q_ENQUEUE as LIGHT_WRITE calls it: one atomic action (R38). -/
def enqueue (lightId : LightId) (payload : Bytes) (s : State) : Except Stop State := do
  let s1 ← s.acquire
  if s1.atCapacity then
    pure (s1.release.raise (.queueFull lightId))
  else
    let p := s1.readClock
    let s2 : State := { p.2 with queue := p.2.queue ++ [⟨payload, p.1, 0⟩] }
    pure s2.release

/-- R119: "swap-to-empty", one atomic action (R38). -/
def clearQueue (s : State) : Except Stop State := do
  let s1 ← s.acquire
  let s2 : State := { s1 with queue := [] }
  pure s2.release

/-- R6, R122: `ADV_MAX_LEN` (D20, log 23). -/
def advMaxLen : Nat := 31

/-- R56, R121: format AD (D19, log 23). -/
def formatAD (cfg : Config) (payload : Bytes) : Bytes :=
  [0x02, 0x01, cfg.advFlags, BitVec.ofNat 8 (3 + payload.length), 0xFF,
    cfg.manufacturerId.extractLsb' 0 8, cfg.manufacturerId.extractLsb' 8 8] ++ payload

/-- R121, R122: ADV_FRAME; a frame over `ADV_MAX_LEN` bytes is refused. -/
def advFrame (cfg : Config) (payload : Bytes) : Except Stop Bytes :=
  let frame := formatAD cfg payload
  if advMaxLen < frame.length then .error (.refusal .advertisementTooLong) else .ok frame

/-- Q_ENQUEUE (R115). -/
def execQEnqueue (lightId : LightId) (payload : Bytes) (s : State) : Host.Outcome State Fault Refusal :=
  conclude (do
    let s1 ← enqueue lightId payload s
    pure (s1.answer .nothing))

/-- Q_CLEAR (R119). -/
def execQClear (s : State) : Host.Outcome State Fault Refusal :=
  conclude (do
    let s1 ← clearQueue s
    pure (s1.answer .nothing))

/-- ADV_FRAME (R121). -/
def execAdvFrame (payload : Bytes) (s : State) : Host.Outcome State Fault Refusal :=
  conclude (do
    let frame ← advFrame s.cfg payload
    pure (s.answer (.bytes frame)))

end Sys2Proof.Machine
end

