-- ==== Sys2Proof/Machine/Light.lean ====
section
/-! DEFINITION. The light value mapper and the single-light-control framer (spec/45_light_mapper.md R104 to R114). -/

namespace Sys2Proof.Machine

/-- R105: `bq = min(trunc(brightness * 127), 127)` (D13, log 17). -/
def brightnessLevel (brightness : Ratio) : Nat := min (truncMul brightness 127) 127

/-- R105: byte 0, `128 + bq`. -/
def brightnessByte (brightness : Ratio) : Byte := BitVec.ofNat 8 (128 + brightnessLevel brightness)

/-- R106: `trunc(channel * 255)` (D13, log 17). -/
def channelByte (channel : Ratio) : Byte := BitVec.ofNat 8 (truncMul channel 255)

/-- R108: the two on forms, chosen by the unquantised channels (D15, log 18); "deliberately BRG ordering". -/
def lightDataOn (brightness r g b : Ratio) : Bytes :=
  if r.isZero && g.isZero && b.isZero then
    [brightnessByte brightness, 0x00, 0x00, 0x00, 0x7F, 0x7F]
  else
    [brightnessByte brightness, channelByte b, channelByte r, channelByte g, 0x00, 0x00]

/-- R104: format LD of a light state: the off form is the single zero byte, "whatever the other four operands are"
(R107). -/
def lightData (isOn : Bool) (brightness r g b : Ratio) : Bytes :=
  if isOn then lightDataOn brightness r g b else [0x00]

/-- R104 LV_MAP. R48: operand values outside the contracts are handled "as follows, and in no other way", and a channel
above 1 is refused (R48 (c)), the light on or off (log 18). -/
def lvMap (isOn : Bool) (brightness r g b : Ratio) : Except Stop Bytes :=
  if !(brightness.wf && r.wf && g.wf && b.wf) then .error (.refusal .notARational)
  else if r.aboveOne || g.aboveOne || b.aboveOne then .error (.refusal .channelAboveOne)
  else .ok (lightData isOn brightness r g b)

/-- R6: `KIND_SINGLE`. -/
def kindSingle : Kind := 5

/-- R110: `s0 = (((m + 1) & 0xF) << 4) | CTRL_TYPE` (D16, log 16). -/
def subHeader0 (cfg : Config) (m : Nat) : Byte :=
  ((BitVec.ofNat 8 (m + 1) &&& 0xF) <<< 4) ||| cfg.ctrlType.setWidth 8

/-- R52, R109, R111: format SL, with the zero padding up to `SLC_PAD_LEN` bytes (D17, log 16). -/
def formatSL (cfg : Config) (lightId : LightId) (lightData : Bytes) : Bytes :=
  let f := [subHeader0 cfg lightData.length, lightIdLow lightId] ++ lightData
  f ++ List.replicate (cfg.slcPadLen - f.length) 0x00

/-- R109 SLC_FRAME as LIGHT_WRITE calls it. -/
def slcFrame (lightId : LightId) (lightData : Bytes) (s : State) : Except Stop (Bytes × State) :=
  if 14 < lightData.length then .error (.refusal .lightDataTooLong)
  else cmdEncode kindSingle lightId (formatSL s.cfg lightId lightData) true s

/-- R112: the part of LIGHT_WRITE before its Q_ENQUEUE, for a bound light: LV_MAP, then SLC_FRAME. -/
def lightEncode (lightId : LightId) (isOn : Bool) (brightness r g b : Ratio) (s : State) :
    Except Stop (Bytes × State) := do
  let d ← lvMap isOn brightness r g b
  slcFrame lightId d s

/-- R112: LIGHT_WRITE's body. -/
def lightWrite (lightId : LightId) (isOn : Bool) (brightness r g b : Ratio) (s : State) : Except Stop State :=
  if !(s.cfg.isBound lightId) then pure (s.raise (.missingController lightId))
  else do
    let p ← lightEncode lightId isOn brightness r g b s
    enqueue lightId p.1 p.2

/-- LV_MAP (R104). -/
def execLvMap (isOn : Bool) (brightness r g b : Ratio) (s : State) : Host.Outcome State Fault Refusal :=
  conclude (do
    let d ← lvMap isOn brightness r g b
    pure (s.answer (.bytes d)))

/-- SLC_FRAME (R109). -/
def execSlcFrame (lightId : LightId) (lightData : Bytes) (s : State) : Host.Outcome State Fault Refusal :=
  conclude (do
    let p ← slcFrame lightId lightData s
    pure (p.2.answer (.bytes p.1)))

/-- LIGHT_WRITE (R112). -/
def execLightWrite (lightId : LightId) (isOn : Bool) (brightness r g b : Ratio) (s : State) :
    Host.Outcome State Fault Refusal :=
  conclude (do
    let s1 ← lightWrite lightId isOn brightness r g b s
    pure (s1.answer .nothing))

end Sys2Proof.Machine
end

