-- ==== Sys2Proof/Machine/Scheduler.lean ====
section
/-! DEFINITION. The advertising scheduler (spec/46_queue_scheduler.md R123 to R134): IDLE_STEP, ADVERTISING_STEP and
GAP_STEP as their pseudocode gives them, and TICK. -/

namespace Sys2Proof.Machine

/-- R127, R38 (c): the empty test and the head removal, one atomic action under the lock. -/
def takeHead (s : State) : Except Stop (Option Command × State) := do
  let s1 ← s.acquire
  match s1.queue with
  | [] => pure (none, s1.release)
  | cmd :: rest => pure (some cmd, { s1 with queue := rest }.release)

/-- R127: the transition to `st`, recording the transition time. -/
def State.enter (s : State) (st : AdvState) (now : Time) : State :=
  { s with advState := st, stateStartTime := now }

/-- R127, R130: the two radio calls of IDLE_STEP and what follows them, for a frame whose command has been removed. -/
def broadcast (frame : Bytes) (now : Time) (s : State) : State :=
  let c := s.configureRadio frame
  match c.1 with
  | .fail => c.2.raise .radioConfigFailure
  | .ok =>
    let d := c.2.startRadio
    match d.1 with
    | .fail => d.2.raise .radioStartFailure
    | .ok => d.2.enter .advertising now

/-- R127 IDLE_STEP. -/
def idleStep (now : Time) (s : State) : Except Stop State := do
  let p ← takeHead s
  match p.1 with
  | none => pure p.2
  | some cmd =>
    let frame ← advFrame p.2.cfg cmd.payload
    pure (broadcast frame now p.2)

/-- R128 ADVERTISING_STEP. -/
def advertisingStep (now : Time) (s : State) : State :=
  if s.durationOver now then s.stopRadio.enter .gap now else s

/-- R129 GAP_STEP: `STATE_START_TIME` is not written. -/
def gapStep (now : Time) (s : State) : State :=
  if s.gapOver now then { s with advState := .idle } else s

/-- R125: the row of the state the scheduler is in when the tick begins, and no other (R124, log 25). -/
def tickBody (now : Time) (s : State) : Except Stop State :=
  match s.advState with
  | .idle => idleStep now s
  | .advertising => pure (advertisingStep now s)
  | .gap => pure (gapStep now s)

/-- TICK (R125). A TICK while another is in progress is a race (R174, log 32). -/
def execTick (now : Time) (s : State) : Host.Outcome State Fault Refusal :=
  match s.tickInProgress with
  | some _ => .fault .tickOverlap
  | none =>
    conclude (do
      let s1 ← tickBody now s
      pure (s1.answer .nothing))

end Sys2Proof.Machine
end

