-- ==== Sys2Proof/Machine/Dispatch.lean ====
section
/-! DEFINITION. One arm per operation of spec/30_encoding.md R46. -/

namespace Sys2Proof.Machine

def exec (i : Instr) (s : State) : Host.Outcome State Fault Refusal :=
  match i with
  | .rev8 b => Sys2Proof.Machine.execRev8 b s
  | .rev16 h => Sys2Proof.Machine.execRev16 h s
  | .byterev str => Sys2Proof.Machine.execByterev str s
  | .crc16 address data => Sys2Proof.Machine.execCrc16 address data s
  | .whInit seed => Sys2Proof.Machine.execWhInit seed s
  | .whEncode state buffer => Sys2Proof.Machine.execWhEncode state buffer s
  | .rfBuild address data => Sys2Proof.Machine.execRfBuild address data s
  | .rfPrepare address data => Sys2Proof.Machine.execRfPrepare address data s
  | .cmdEncode kind lightId body forward => Sys2Proof.Machine.execCmdEncode kind lightId body forward s
  | .lvMap isOn brightness r g b => Sys2Proof.Machine.execLvMap isOn brightness r g b s
  | .slcFrame lightId lightData => Sys2Proof.Machine.execSlcFrame lightId lightData s
  | .lightWrite lightId isOn brightness r g b => Sys2Proof.Machine.execLightWrite lightId isOn brightness r g b s
  | .qEnqueue lightId payload => Sys2Proof.Machine.execQEnqueue lightId payload s
  | .qClear => Sys2Proof.Machine.execQClear s
  | .tick now => Sys2Proof.Machine.execTick now s
  | .advFrame payload => Sys2Proof.Machine.execAdvFrame payload s

end Sys2Proof.Machine
end

