-- ==== Sys2Proof/Machine/HostPort.lean ====
section
/-! DEFINITION. The host port (spec/30_encoding.md R59): how the contexts' moves reach the block. A request runs whole,
or atomic action by atomic action with other contexts in between (spec/20_memory.md R38 to R42, log 32). -/

namespace Sys2Proof.Machine

/-- A whole request: decode it, then run it. -/
def serve (q : Request) (s : State) : Host.Outcome State Fault Refusal :=
  match decode q with
  | .error e => .refused (.badRequest e)
  | .ok i => exec i s

/-- R40, R127 to R129: the first atomic action of a TICK: in Idle the empty test and head removal, in Advertising the
stop call, in Gap the write of ADV_STATE. -/
def startTick (context : Nat) (now : Time) (s : State) : Except Stop State :=
  match s.tickInProgress with
  | some _ => .error (.fault .tickOverlap)
  | none =>
    match s.advState with
    | .idle => do
      let p ← takeHead s
      match p.1 with
      | none => pure (p.2.answer .nothing)
      | some cmd =>
        let frame ← advFrame p.2.cfg cmd.payload
        pure { p.2 with tickInProgress := some ⟨context, .configure now frame⟩ }
    | .advertising =>
      if s.durationOver now then pure { s.stopRadio with tickInProgress := some ⟨context, .setState .gap now⟩ }
      else pure (s.answer .nothing)
    | .gap => pure ((gapStep now s).answer .nothing)

/-- R40, R127, R128: one atomic action of the TICK in progress: a radio call, or a write of ADV_STATE or
STATE_START_TIME. The last one, and a failed call, end the TICK. -/
def runTick (p : PendingTick) (s : State) : State :=
  match p.activity with
  | .configure now frame =>
    let c := s.configureRadio frame
    match c.1 with
    | .fail => { c.2.raise .radioConfigFailure with tickInProgress := none }.answer .nothing
    | .ok => { c.2 with tickInProgress := some ⟨p.context, .startRadio now⟩ }
  | .startRadio now =>
    let d := s.startRadio
    match d.1 with
    | .fail => { d.2.raise .radioStartFailure with tickInProgress := none }.answer .nothing
    | .ok => { d.2 with tickInProgress := some ⟨p.context, .setState .advertising now⟩ }
  | .setState target now => { s with advState := target, tickInProgress := some ⟨p.context, .setTime now⟩ }
  | .setTime now => { s with stateStartTime := now, tickInProgress := none }.answer .nothing

/-- The next atomic action of the TICK in progress; nothing when there is none. -/
def resumeTick (s : State) : State :=
  match s.tickInProgress with
  | none => s
  | some p => runTick p s

/-- R42: the first atomic action of a LIGHT_WRITE: the guard, LV_MAP and SLC_FRAME; its Q_ENQUEUE is still to come. -/
def startWrite (context : Nat) (lightId : LightId) (isOn : Bool) (brightness r g b : Ratio) (s : State) :
    Except Stop State :=
  if !(s.cfg.isBound lightId) then pure ((s.raise (.missingController lightId)).answer .nothing)
  else do
    let p ← lightEncode lightId isOn brightness r g b s
    pure { p.2 with writesInProgress := p.2.writesInProgress ++ [⟨context, lightId, p.1⟩] }

/-- The LIGHT_WRITE in progress of a context. -/
def State.pendingWrite (s : State) (context : Nat) : Option PendingWrite :=
  s.writesInProgress.find? (fun w => w.context == context)

/-- R42: the Q_ENQUEUE of the LIGHT_WRITE in progress of a context; nothing when there is none. -/
def resumeWrite (context : Nat) (s : State) : Except Stop State :=
  match s.pendingWrite context with
  | none => pure s
  | some w => do
    let s1 ← enqueue w.lightId w.payload s
    pure ({ s1 with writesInProgress := s1.writesInProgress.erase w }.answer .nothing)

/-- The contexts that have a request in progress. -/
def State.contextsInProgress (s : State) : List Nat :=
  (s.tickInProgress.map PendingTick.context).toList ++ s.writesInProgress.map PendingWrite.context

/-- A context issues a request and runs its first atomic action. R40: "each context's own actions keep their program
order", so a context with a request in progress issues none. Every operation but TICK and LIGHT_WRITE is one
atomic action (R38, R41). -/
def start (context : Nat) (q : Request) (s : State) : Host.Outcome State Fault Refusal :=
  if context ∈ s.contextsInProgress then .fault .contextBusy
  else
    match decode q with
    | .error e => .refused (.badRequest e)
    | .ok (.tick now) => conclude (startTick context now s)
    | .ok (.lightWrite lightId isOn brightness r g b) =>
      conclude (startWrite context lightId isOn brightness r g b s)
    | .ok i => exec i s

/-- R135, R139: at setup "a light with no bound controller" is reported MissingController. It is no request and has no
result record. -/
def setupLight (lightId : LightId) (s : State) : State :=
  if s.cfg.isBound lightId then s else s.raise (.missingController lightId)

/-- One move of a context. -/
def runAction (a : HostAction) (s : State) : Host.Outcome State Fault Refusal :=
  match a with
  | .request q => serve q s
  | .start context q => start context q s
  | .resumeTick => .next (resumeTick s)
  | .resumeWrite context => conclude (resumeWrite context s)
  | .setupLight lightId => .next (setupLight lightId s)

/-- R173: "no request is ever left pending inside the block": when no move is left, the requests in progress run on,
the TICK first, then the LIGHT_WRITEs in the order of their draws (log 32). R153: without a request "the block does
nothing". -/
def drain (s : State) : Host.Outcome State Fault Refusal :=
  match s.tickInProgress with
  | some p => .next (runTick p s)
  | none =>
    match s.writesInProgress with
    | w :: _ => conclude (resumeWrite w.context s)
    | [] => .next s

/-- The next move on the host port, taken off it. -/
def stepHost (s : State) : Host.Outcome State Fault Refusal :=
  match s.host with
  | [] => drain s
  | a :: rest => runAction a { s with host := rest }

end Sys2Proof.Machine
end

