-- ==== Sys2Proof/Machine/Step.lean ====
section
/-! DEFINITION. One step: the next move on the host port (spec/30_encoding.md R59, spec/70_reset_and_hazards.md R171,
R173). There is no program counter and no fetch (spec/10_state.md R11). -/

namespace Sys2Proof.Machine

/-- One step of the machine. -/
def step (s : State) : Host.Outcome State Fault Refusal := stepHost s

/-- The state with the request of a word of spec/opcode_table.json as the next move on the host port (log 2). -/
def State.withFetchWord (s : State) (nbits w : Nat) : State :=
  { s with host := .request (tableRequest nbits w) :: s.host }

end Sys2Proof.Machine
end

