-- ==== Sys2Proof/Safety.lean ====
section
/-! DEFINITION. What counts as a good state, in the terms claims use (spec/70_reset_and_hazards.md R173, R174;
spec/46_queue_scheduler.md R132). -/

namespace Sys2Proof.Machine

/-- R174: "What the block owes the host at the end of each request: [...] `QLOCK` free, and every piece of persistent
state in a value its rule allows (`SEQ` in 0 to 254, `len(QUEUE) <= MAX_QUEUE_SIZE`, `ADV_STATE` one of three)". -/
structure State.Owed (s : State) : Prop where
  seq_le : s.seq.toNat ≤ 254
  queue_le : s.queue.length ≤ s.cfg.maxQueueSize
  lock_free : s.qlock = false

/-- R30: the assembly buffer is in canonical form. -/
def State.BufWf (s : State) : Prop := s.units.buf.wf

/-- R40: no context has two requests in progress. -/
def State.OneRequestPerContext (s : State) : Prop := s.contextsInProgress.Nodup

/-- R173: "at rest", "only then is nothing owed": Idle, an empty queue, and every request has run to its end. -/
def State.AtRest (s : State) : Prop :=
  s.advState = .idle ∧ s.queue = [] ∧ s.tickInProgress = none ∧ s.writesInProgress = []

/-- The next move is a request, whole or by its first atomic action, and asks for the operation `i`. -/
def State.Issues (s : State) (i : Instr) : Prop :=
  ∃ q rest, decode q = .ok i ∧ (s.host = .request q :: rest ∨ ∃ context, s.host = .start context q :: rest)

/-- R123, R127, R128: where a TICK in progress stands in its row: its remaining actions are those of the state it found,
and the duration it tested is over. -/
def State.TickShape (s : State) : Prop :=
  match s.tickInProgress with
  | none => True
  | some ⟨_, .configure _ _⟩ => s.advState = .idle
  | some ⟨_, .startRadio _⟩ => s.advState = .idle
  | some ⟨_, .setState .advertising _⟩ => s.advState = .idle
  | some ⟨_, .setState .gap now⟩ => s.advState = .advertising ∧
      s.cfg.advDuration.toNat ≤ (now.toNat + 2 ^ 32 - s.stateStartTime.toNat) % 2 ^ 32
  | some ⟨_, .setState .idle _⟩ => False
  | some ⟨_, .setTime _⟩ => s.advState ≠ .idle

/-- Every `stop_advertising` of the trace succeeded, the premise of R132 (a). -/
def State.StopsOk (s : State) : Prop := RadioCall.stop .fail ∉ s.radioTrace

/-- R132 (a): "`RADIO_ON` is true exactly when `ADV_STATE = Advertising`", at every point of a TICK: between the calls
and the writes of a TICK in progress the two differ as its next action says. -/
def State.RadioFollows (s : State) : Prop :=
  match s.tickInProgress with
  | none => s.radioOn = (s.advState == .advertising)
  | some ⟨_, .configure _ _⟩ => s.radioOn = false ∧ s.advState = .idle
  | some ⟨_, .startRadio _⟩ => s.radioOn = false ∧ s.advState = .idle
  | some ⟨_, .setState .advertising _⟩ => s.radioOn = true ∧ s.advState = .idle
  | some ⟨_, .setState .gap _⟩ => s.radioOn = false ∧ s.advState = .advertising
  | some ⟨_, .setState .idle _⟩ => False
  | some ⟨_, .setTime _⟩ => s.radioOn = (s.advState == .advertising)

/-- `n` steps. -/
def run : Nat → State → Host.Outcome State Fault Refusal
  | 0, s => .next s
  | n + 1, s =>
    match step s with
    | .next t => run n t
    | .fault r => .fault r
    | .refused r => .refused r

/-- A run of whole operations, one after another. -/
def execAll : List Instr → State → Host.Outcome State Fault Refusal
  | [], s => .next s
  | i :: is, s =>
    match exec i s with
    | .next t => execAll is t
    | .fault r => .fault r
    | .refused r => .refused r

end Sys2Proof.Machine
end

