-- ==== Sys2Proof/Certificates/Slice0/Obligations.lean ====
section
/-! DEFINITION. The statements for the provers. Each docstring names the rule of spec/ it formalises; where a statement
rests on a decision of the spec (D<n> of 92_eei_decisions.md) or on a log entry of the model, the docstring says so. -/

open Sys2Proof Sys2Proof.Machine

/-! ### Requests: select codes, decoding, one step -/

/-- R46, R48 with D1: the sixteen select codes and the sixteen operations are one to one. -/
def Obligations.SelectCodesNameTheOperations : Prop :=
  (∀ c : BitVec 4, (Op.ofCode c).code = c) ∧ (∀ op : Op, Op.ofCode op.code = op)

/-- R45, R46 with D1 (the codes are the spec's decision; the record as a typed list is log 1): decoding the request of a
well-formed operation gives the operation back, with every operand at every value. -/
def Obligations.DecodeOfEncodeIsTheOperation : Prop :=
  ∀ i : Instr, i.wf = true → decode (encode i) = .ok i

/-- R45 to R47 with D1 (log 1): a request the decoder accepts is exactly the request of the operation it answers, and
that operation is well-formed. -/
def Obligations.DecodeAcceptsOnlyEncodings : Prop :=
  ∀ (q : Request) (i : Instr), decode q = .ok i → i.wf = true ∧ encode i = q

/-- R46 with D1: a request written out from each of the sixteen rows of the table decodes to the row's operation. The
last clause, that a record which does not fit its row is refused, is the model's choice (log 1). -/
def Obligations.WrittenRequestsDecode : Prop :=
  decode ⟨0x0, [.byte 0x71]⟩ = .ok (.rev8 0x71) ∧
  decode ⟨0x1, [.half 0x1234]⟩ = .ok (.rev16 0x1234) ∧
  decode ⟨0x2, [.bytes [1, 2, 3]]⟩ = .ok (.byterev [1, 2, 3]) ∧
  decode ⟨0x3, [.bytes [0xC1, 0xC2, 0xC3], .bytes [1, 2, 3]]⟩ = .ok (.crc16 [0xC1, 0xC2, 0xC3] [1, 2, 3]) ∧
  decode ⟨0x4, [.byte 0x25]⟩ = .ok (.whInit 0x25) ∧
  decode ⟨0x5, [.whState ⟨true, true, false, false, true, false, true⟩, .bytes [0xFF, 0]]⟩ =
    .ok (.whEncode ⟨true, true, false, false, true, false, true⟩ [0xFF, 0]) ∧
  decode ⟨0x6, [.bytes [0xC1], .bytes [1, 2]]⟩ = .ok (.rfBuild [0xC1] [1, 2]) ∧
  decode ⟨0x7, [.bytes [0xC1], .bytes [1, 2]]⟩ = .ok (.rfPrepare [0xC1] [1, 2]) ∧
  decode ⟨0x8, [.kind 5, .lightId 1, .bytes [0x22, 1, 0], .bit true]⟩ = .ok (.cmdEncode 5 1 [0x22, 1, 0] true) ∧
  decode ⟨0x9, [.bit true, .rational ⟨1, 2⟩, .rational ⟨1, 3⟩, .rational ⟨1, 4⟩, .rational ⟨1, 5⟩]⟩ =
    .ok (.lvMap true ⟨1, 2⟩ ⟨1, 3⟩ ⟨1, 4⟩ ⟨1, 5⟩) ∧
  decode ⟨0xA, [.lightId 0x2A5, .bytes [0]]⟩ = .ok (.slcFrame 0x2A5 [0]) ∧
  decode ⟨0xB, [.lightId 7, .bit true, .rational ⟨1, 2⟩, .rational ⟨1, 3⟩, .rational ⟨1, 4⟩, .rational ⟨1, 5⟩]⟩ =
    .ok (.lightWrite 7 true ⟨1, 2⟩ ⟨1, 3⟩ ⟨1, 4⟩ ⟨1, 5⟩) ∧
  decode ⟨0xC, [.lightId 9, .bytes [0xAA]]⟩ = .ok (.qEnqueue 9 [0xAA]) ∧
  decode ⟨0xD, []⟩ = .ok .qClear ∧
  decode ⟨0xE, [.time 1000]⟩ = .ok (.tick 1000) ∧
  decode ⟨0xF, [.bytes [0xAA]]⟩ = .ok (.advFrame [0xAA]) ∧
  decode ⟨0xD, [.time 1000]⟩ = .error (.operandRecord .qClear)

/-- R59, R171 (the host port as a list of moves is log 2): when the next move is a request, a step is exec of the
operation it decodes to, with the move taken off the port; so it is when a context with nothing in progress starts a
request that is one atomic action; a request that does not decode is refused by name. A resume runs the next atomic
action of what is in progress. Without a move the block does nothing (R153) but run a request in progress on (R173,
log 32). -/
def Obligations.StepRunsTheRequestedOperation : Prop :=
  (∀ (s : State) (q : Request) (i : Instr) (rest : List HostAction), s.host = .request q :: rest → decode q = .ok i →
    step s = exec i { s with host := rest }) ∧
  (∀ (s : State) (context : Nat) (q : Request) (i : Instr) (rest : List HostAction),
    s.host = .start context q :: rest → context ∉ s.contextsInProgress → decode q = .ok i →
    i.op ≠ .tick → i.op ≠ .lightWrite → step s = exec i { s with host := rest }) ∧
  (∀ (s : State) (q : Request) (e : DecodeError) (rest : List HostAction), s.host = .request q :: rest →
    decode q = .error e → step s = .refused (.badRequest e)) ∧
  (∀ (s : State) (rest : List HostAction), s.host = .resumeTick :: rest →
    step s = .next (resumeTick { s with host := rest })) ∧
  (∀ (s : State) (context : Nat) (rest : List HostAction), s.host = .resumeWrite context :: rest →
    step s = conclude (resumeWrite context { s with host := rest })) ∧
  (∀ s : State, s.host = [] → s.tickInProgress = none → s.writesInProgress = [] → step s = .next s) ∧
  (∀ s : State, s.host = [] → s.tickInProgress ≠ none → step s = .next (resumeTick s)) ∧
  (∀ (s : State) (w : PendingWrite) (ws : List PendingWrite), s.host = [] → s.tickInProgress = none →
    s.writesInProgress = w :: ws → step s = conclude (resumeWrite w.context s))

/-! ### Bit and byte reversal -/

/-- R63. -/
def Obligations.Rev8ReversesTheBits : Prop :=
  ∀ (b : Byte) (s : State), ∃ out : Byte,
    exec (.rev8 b) s = .next { s with results := s.results ++ [.byte out] } ∧
    ∀ i, i < 8 → out.getLsbD i = b.getLsbD (7 - i)

/-- R64. -/
def Obligations.Rev16ReversesTheBits : Prop :=
  ∀ (h : Half) (s : State), ∃ out : Half,
    exec (.rev16 h) s = .next { s with results := s.results ++ [.half out] } ∧
    (∀ i, i < 16 → out.getLsbD i = h.getLsbD (15 - i)) ∧
    out = rev8 (h.extractLsb' 0 8) ++ rev8 (h.extractLsb' 8 8)

/-- R65. -/
def Obligations.ByterevReversesTheOrder : Prop :=
  ∀ (str : Bytes) (s : State), ∃ out : Bytes,
    exec (.byterev str) s = .next { s with results := s.results ++ [.bytes out] } ∧
    out.length = str.length ∧ ∀ i, i < str.length → out[i]? = str[str.length - 1 - i]?

/-- R66: involutions, bijections, linear over exclusive or; REV16 commutes with complement. -/
def Obligations.ReversalLaws : Prop :=
  (∀ b, rev8 (rev8 b) = b) ∧ (∀ h, rev16 (rev16 h) = h) ∧ (∀ str, byteRev (byteRev str) = str) ∧
  Function.Bijective rev8 ∧ Function.Bijective rev16 ∧ Function.Bijective byteRev ∧
  (∀ a b, rev8 (a ^^^ b) = rev8 a ^^^ rev8 b) ∧ (∀ a b, rev16 (a ^^^ b) = rev16 a ^^^ rev16 b) ∧
  (∀ h, rev16 (~~~h) = ~~~(rev16 h))

/-! ### CRC engine -/

/-- R68 to R73. CRC16 answers the complement of the reversed accumulator, for the address folded last byte first and the
data folded first byte first through REV8, four rounds a byte, and changes nothing but CRC_ACC, CRC_TMP and the answer.
The round is the parameter CRC_ROUND of the configuration (R6, R70, U1): any function can be configured (the table is
log 9), and without exceptions it is the ROUND of R70, whose second test is D3. -/
def Obligations.Crc16FoldsAddressThenData : Prop :=
  (∀ (address data : Bytes) (s : State),
    let round : Half → Half := fun acc => (s.cfg.round acc).2
    let fold : Half → Byte → Half := fun acc x => round (round (round (round (acc ^^^ (x.setWidth 16 <<< 8)))))
    ∃ (acc tmp : Half),
      exec (.crc16 address data) s =
        .next { s with
          units := { s.units with crcAcc := acc, crcTmp := tmp }
          results := s.results ++ [.half (~~~(rev16 acc))] } ∧
      acc = data.foldl (fun a x => fold a (rev8 x)) (address.reverse.foldl fold 0xFFFF) ∧
      crc16 s.cfg.round address data = ~~~(rev16 acc)) ∧
  (∀ round : Half → Half, ∃ cfg : Config, ∀ acc, (cfg.round acc).2 = round acc) ∧
  (∀ cfg : Config, cfg.crcRoundTable = [] → ∀ acc : Half,
    let tmp := if acc.getLsbD 15 then (acc <<< 1) ^^^ 0x1021 else acc <<< 1
    cfg.round acc = (tmp, if tmp.getLsbD 15 then (tmp <<< 1) ^^^ 0x1021 else tmp <<< 1))

/-- R74 (b), a derived property of the default ROUND (D3): the accumulator before the final transform is the ordinary
most-significant-bit-first CRC, eight single steps a byte, of `BYTEREV(address)` and the reversed data bytes. -/
def Obligations.CrcIsTheBitwiseProcedure : Prop :=
  let bit : Half → Half := fun acc => if acc.getLsbD 15 then (acc <<< 1) ^^^ 0x1021 else acc <<< 1
  ∀ (address data : Bytes) (tmp : Half),
    (crcRun crcRound address data tmp).acc =
      (byteRev address ++ data.map rev8).foldl
        (fun (acc : Half) (x : Byte) => bit^[8] (acc ^^^ ((x.setWidth 16 : Half) <<< 8))) 0xFFFF

/-- U6 of 93_implementation_defined.md, with D3: "a CRC-16 detects every error pattern confined to 16 bits": two data
strings that differ in two adjacent bytes only have different CRCs. -/
def Obligations.CrcDetectsEveryTwoByteError : Prop :=
  ∀ (address before after : Bytes) (x y x' y' : Byte), (x, y) ≠ (x', y') →
    crc16 crcRound address (before ++ [x, y] ++ after) ≠ crc16 crcRound address (before ++ [x', y'] ++ after)

/-! ### Whitening engine -/

/-- R76. WH_INIT answers the configured initial state of the seed (WH_WIRING, R6, U2) and changes nothing but W and the
answer; without exceptions (log 10) it loads the constant and six seed bits and ignores seed bits 7 and 6 (D4, D5). -/
def Obligations.WhInitLoadsTheSeed : Prop :=
  ∀ (seed : Byte) (s : State), ∃ w : WhState,
    exec (.whInit seed) s =
      .next { s with units := { s.units with w := w }, results := s.results ++ [.whState w] } ∧
    w = s.cfg.wiring.init seed ∧
    (s.cfg.whInitTable = [] →
      w = ⟨true, seed.getLsbD 5, seed.getLsbD 4, seed.getLsbD 3, seed.getLsbD 2, seed.getLsbD 1, seed.getLsbD 0⟩)

/-- R77, R78, R81. WH_ENCODE runs the configured byte step (WH_WIRING, R6, U2) over the buffer from the operand's state
on, and nothing else changes but W and the answer; any wiring can be configured (the tables are log 10). Without
exceptions (D4) bit `k` of byte `i` of the buffer answered is the operand's bit with the stream bit of clock `8 * i + k`,
and the state answered is the operand's after eight clocks a byte. -/
def Obligations.WhEncodeAddsTheStream : Prop :=
  let clock : WhState → WhState := fun w => ⟨w.w6, w.w0, w.w1, w.w2, w.w3 ^^ w.w6, w.w4, w.w5⟩
  (∀ (state : WhState) (buffer : Bytes) (s : State), ∃ (w : WhState) (out : Bytes),
    exec (.whEncode state buffer) s =
      .next { s with units := { s.units with w := w }, results := s.results ++ [.whBuffer w out] } ∧
    out.length = buffer.length ∧
    (∃ ws : Nat → WhState, ws 0 = state ∧ ws buffer.length = w ∧ ∀ i, i < buffer.length →
      s.cfg.wiring.byteStep (ws i) (buffer.getD i 0) = (ws (i + 1), out.getD i 0)) ∧
    (s.cfg.whByteTable = [] →
      w = clock^[8 * buffer.length] state ∧
      ∀ i k, i < buffer.length → k < 8 →
        (out.getD i 0).getLsbD k = ((buffer.getD i 0).getLsbD k ^^ (clock^[8 * i + k] state).w6))) ∧
  (∀ wiring : WhWiring, ∃ cfg : Config, cfg.wiring = wiring)

/-- R79, R80 with D4: the parallel form of a byte step equals the serial form, for all states and bytes. -/
def Obligations.ParallelWhiteningIsTheSerialForm : Prop :=
  ∀ (w : WhState) (c : Byte), whByteParallel w c = whByte w c

/-- R82 (f) with D4: the state sequence has period 127 clocks and every non-zero state is on it; the stream of any seed
has period 127 bytes. -/
def Obligations.WhiteningHasPeriod127 : Prop :=
  (∀ w : WhState, (fun v => (whStep v).1)^[127] w = w) ∧
  (∀ w w' : WhState, w ≠ ⟨false, false, false, false, false, false, false⟩ →
    w' ≠ ⟨false, false, false, false, false, false, false⟩ → ∃ n < 127, (fun v => (whStep v).1)^[n] w = w') ∧
  (∀ (seed : Byte) (n i : Nat), i + 127 < n →
    (keyStream whWiring seed n)[i + 127]? = (keyStream whWiring seed n)[i]?)

/-- R82 (c), (d) with D4: whitening twice from equal seeds gives the buffer back, and an output byte at an offset from
`p` on does not depend on the bytes below `p`. -/
def Obligations.WhiteningIsAnInvolutionAndLocal : Prop :=
  (∀ (w : WhState) (buffer : Bytes), (whEncode whWiring w (whEncode whWiring w buffer).2).2 = buffer) ∧
  (∀ (w : WhState) (p : Nat) (a b : Bytes), a.length = b.length → a.drop p = b.drop p →
    (whEncode whWiring w a).2.drop p = (whEncode whWiring w b).2.drop p)

/-! ### RF payload builder -/

/-- R54, R84 to R88 with D6, D7 (log 15): RF_BUILD completes for every address and data, whatever CRC_ROUND is configured
(log 9), never writes outside BUF, and answers format RB; nothing else changes but BUF and the CRC registers. -/
def Obligations.RfBuildLaysOutTheBuffer : Prop :=
  ∀ (address data : Bytes) (s : State), ∃ (rb : Bytes) (u : Units),
    exec (.rfBuild address data) s = .next { s with units := u, results := s.results ++ [.bytes rb] } ∧
    u.w = s.units.w ∧ u.buf.toBytes = rb ∧ u.buf.wf ∧
    rb.length = 0x12 + address.length + data.length + 2 ∧
    rb.take 0x12 = List.replicate 15 0 ++ [0x8E, 0xF0, 0xAA] ∧
    (∀ k, k < address.length → rb[0x12 + k]? = (address[address.length - 1 - k]?).map rev8) ∧
    (∀ j, j < data.length → rb[0x12 + address.length + j]? = data[j]?) ∧
    rb[0x12 + address.length + data.length]? = some ((crc16 s.cfg.round address data).extractLsb' 0 8) ∧
    rb[0x12 + address.length + data.length + 1]? = some ((crc16 s.cfg.round address data).extractLsb' 8 8) ∧
    rb = formatRB s.cfg.round address data

/-- R55, R89, R90: RF_PREPARE completes for every address and data, whatever CRC_ROUND and WH_WIRING are configured; it
answers bytes 15 on of format RB encoded from offset 0 with the seed 0x25; BUF is discarded and nothing else but transient
registers changes. Without wiring exceptions (D4, log 10) payload byte `q` is byte `15 + q` of format RB with the stream
byte of that offset, which is format PL. -/
def Obligations.RfPrepareWhitensAndTrims : Prop :=
  ∀ (address data : Bytes) (s : State), ∃ (payload : Bytes) (u : Units),
    exec (.rfPrepare address data) s = .next { s with units := u, results := s.results ++ [.bytes payload] } ∧
    u.buf = Buf.discarded ∧
    payload.length = address.length + data.length + 5 ∧
    payload = (whEncode s.cfg.wiring (s.cfg.wiring.init 0x25) (formatRB s.cfg.round address data)).2.drop 15 ∧
    (s.cfg.whInitTable = [] → s.cfg.whByteTable = [] →
      (∀ q, q < payload.length → ∃ x k, (formatRB s.cfg.round address data)[15 + q]? = some x ∧
        (keyStream whWiring 0x25 (15 + payload.length))[15 + q]? = some k ∧ payload[q]? = some (x ^^^ k)) ∧
      payload = formatPL s.cfg.engine address data)

/-- R55, R90 with D4, D6, D12, whatever CRC_ROUND is: the marker and address bytes of a payload do not depend on the data,
and are 6D B6 43 68 93 1D for the address C1 C2 C3. -/
def Obligations.PayloadsOfOneAddressShareTheirHead : Prop :=
  (∀ (round round' : CrcRound) (address data data' : Bytes),
    (rfPayload ⟨round, whWiring⟩ address data).take (3 + address.length) =
      (rfPayload ⟨round', whWiring⟩ address data').take (3 + address.length)) ∧
  ∀ (round : CrcRound) (data : Bytes),
    (rfPayload ⟨round, whWiring⟩ [0xC1, 0xC2, 0xC3] data).take 6 = [0x6D, 0xB6, 0x43, 0x68, 0x93, 0x1D]

/-! ### Command encoder -/

/-- R92 to R100 with D8 to D11 (logs 11 to 14): CMD_ENCODE completes for every operand; the header fields, the checksum,
the two ciphers and the hand-off to RF_PREPARE with the configured CRC_ROUND and WH_WIRING (R6); SEQ is drawn and nothing
else but transient registers changes. Without wiring exceptions the payload is format PL (D4, log 10). -/
def Obligations.CmdEncodeEmitsTheEncryptedFrame : Prop :=
  ∀ (kind : Kind) (lightId : LightId) (body : Bytes) (forward : Bool) (s : State),
    ∃ (payload frame : Bytes) (h0 h3 : Byte) (u : Units),
      exec (.cmdEncode kind lightId body forward) s =
        .next { s with
          seq := if 254 ≤ s.seq.toNat then 1 else s.seq + 1
          units := u
          results := s.results ++ [.bytes payload] } ∧
      h0.getLsbD 7 = forward ∧ h0.extractLsb' 4 3 = kind ∧ h0.extractLsb' 0 4 = lightId.extractLsb' 8 4 ∧
      h3.toNat = (h0.toNat + s.seq.toNat + s.cfg.meshKey.k3.toNat + (body.map BitVec.toNat).sum) % 256 ∧
      frame.length = 4 + body.length ∧
      frame.take 4 = [h0 ^^^ 0x5E, s.seq ^^^ 0x36, s.cfg.meshKey.k3 ^^^ 0x7B, h3 ^^^ 0xC4] ∧
      (∀ j, j < body.length → frame[4 + j]? = (body[j]?).map (fun x => x ^^^
        [s.cfg.meshKey.k0, s.cfg.meshKey.k1, s.cfg.meshKey.k2, s.cfg.meshKey.k3].getD (j % 4) 0)) ∧
      exec (.rfPrepare [s.cfg.meshAddress.a0, s.cfg.meshAddress.a1, s.cfg.meshAddress.a2] frame) s =
        .next { s with units := u, results := s.results ++ [.bytes payload] } ∧
      payload.length = body.length + 12 ∧
      (s.cfg.whInitTable = [] → s.cfg.whByteTable = [] →
        payload = formatPL s.cfg.engine [s.cfg.meshAddress.a0, s.cfg.meshAddress.a1, s.cfg.meshAddress.a2] frame)

/-- R101 (a): the round trip of the encryption step. -/
def Obligations.CipherRoundTrip : Prop :=
  ∀ (key : Key) (seq : Byte) (kind : Kind) (lightId : LightId) (body : Bytes) (forward : Bool),
    xorKey encKey 0 ((formatCE key seq kind lightId body forward).take 4) =
      clearHeader key seq kind lightId body forward ∧
    xorKey key 0 ((formatCE key seq kind lightId body forward).drop 4) = body

/-- R101 (b): "no key byte depends on `SEQ`. The sequence value changes two bytes of the frame, `h1` and, through the
sum, `h3`": different values give different bytes 1 and 3, and no other byte changes. -/
def Obligations.SequenceValueReachesTwoFrameBytes : Prop :=
  ∀ (key : Key) (seq seq' : Byte) (kind : Kind) (lightId : LightId) (body : Bytes) (forward : Bool),
    let frame := formatCE key seq kind lightId body forward
    let frame' := formatCE key seq' kind lightId body forward
    (∀ i, i ≠ 1 → i ≠ 3 → frame[i]? = frame'[i]?) ∧
    (seq ≠ seq' → ∃ x1 x3 x1' x3', frame[1]? = some x1 ∧ frame[3]? = some x3 ∧ frame'[1]? = some x1' ∧
      frame'[3]? = some x3' ∧ x1 ≠ x1' ∧ x3 ≠ x3')

/-- R96 with D9 (log 12): after `n + 1` encodings from a counter at 0 the next value drawn is `(n mod 254) + 1`, so the
256th encoding draws 1. -/
def Obligations.SequenceLaw : Prop :=
  ∀ (is : List Instr) (s : State), s.seq = 0 →
    (∀ i ∈ is, ∃ kind lightId body forward, i = .cmdEncode kind lightId body forward) → is ≠ [] →
    ∃ t, execAll is s = .next t ∧ t.seq.toNat = (is.length - 1) % 254 + 1

/-- R96, R155 with D9: SEQ is written by CMD_ENCODE and the two operations that call it, and only by one draw; so it is
step by step, the moves of the host port (log 32) included. -/
def Obligations.OnlyTheEncoderDraws : Prop :=
  (∀ (i : Instr) (s t : State), exec i s = .next t →
    t.seq = s.seq ∨
    (t.seq = (if 254 ≤ s.seq.toNat then 1 else s.seq + 1) ∧
      (i.op = .cmdEncode ∨ i.op = .slcFrame ∨ i.op = .lightWrite))) ∧
  (∀ s t : State, step s = .next t →
    t.seq = s.seq ∨
    (t.seq = (if 254 ≤ s.seq.toNat then 1 else s.seq + 1) ∧ ∃ i, s.Issues i ∧
      (i.op = .cmdEncode ∨ i.op = .slcFrame ∨ i.op = .lightWrite)))

/-! ### Light value mapper and single-light framer -/

/-- R107: off, LV_MAP answers the one byte 00 whatever the other four operands are, within the operand limits of R47 and
R48 (c). That the limits bind the off form too is the model's reading (log 18), and so is a denominator of 0 as no number
(log 19); Obligations.OperandLimitsAreRefused says what happens outside them. -/
def Obligations.LvMapOffIsOneZeroByte : Prop :=
  ∀ (brightness r g b : Ratio) (s : State), brightness.den ≠ 0 → r.den ≠ 0 → g.den ≠ 0 → b.den ≠ 0 →
    r.num ≤ r.den → g.num ≤ g.den → b.num ≤ b.den →
    exec (.lvMap false brightness r g b) s = .next { s with results := s.results ++ [.bytes [0x00]] }

/-- R104 to R106, R108 with D13, D15 (logs 17, 18): on, with every operand a number and no channel above 1, LV_MAP
answers the warm-white form when all channels are zero and the BRG form otherwise, each product truncated. -/
def Obligations.LvMapOnQuantises : Prop :=
  ∀ (brightness r g b : Ratio) (s : State), brightness.den ≠ 0 → r.den ≠ 0 → g.den ≠ 0 → b.den ≠ 0 →
    r.num ≤ r.den → g.num ≤ g.den → b.num ≤ b.den →
    let q : Ratio → ℚ := fun x => (x.num : ℚ) / (x.den : ℚ)
    let bq := min ⌊q brightness * 127⌋₊ 127
    let channel : Ratio → Byte := fun x => BitVec.ofNat 8 ⌊q x * 255⌋₊
    exec (.lvMap true brightness r g b) s = .next { s with
      results := s.results ++ [.bytes
        (if q r = 0 ∧ q g = 0 ∧ q b = 0 then [BitVec.ofNat 8 (128 + bq), 0x00, 0x00, 0x00, 0x7F, 0x7F]
         else [BitVec.ofNat 8 (128 + bq), channel b, channel r, channel g, 0x00, 0x00])] }

/-- R47 (log 19): the meaning of LV_MAP depends on the numbers its operands stand for, not on the fractions. -/
def Obligations.LvMapDependsOnTheNumbersOnly : Prop :=
  ∀ (isOn : Bool) (x r g b x' r' g' b' : Ratio) (s : State),
    (∀ p ∈ [(x, x'), (r, r'), (g, g'), (b, b')],
      p.1.den ≠ 0 ∧ p.2.den ≠ 0 ∧ p.1.num * p.2.den = p.2.num * p.1.den) →
    exec (.lvMap isOn x r g b) s = exec (.lvMap isOn x' r' g' b') s

/-- R113: FC's three end-to-end examples. -/
def Obligations.MapperExamplesOfTheSource : Prop :=
  ∀ s : State,
    exec (.lvMap false ⟨0, 1⟩ ⟨0, 1⟩ ⟨0, 1⟩ ⟨0, 1⟩) s = .next { s with results := s.results ++ [.bytes [0x00]] } ∧
    exec (.lvMap true ⟨1, 1⟩ ⟨0, 1⟩ ⟨0, 1⟩ ⟨0, 1⟩) s =
      .next { s with results := s.results ++ [.bytes [0xFF, 0, 0, 0, 127, 127]] } ∧
    exec (.lvMap true ⟨1, 2⟩ ⟨1, 1⟩ ⟨0, 1⟩ ⟨0, 1⟩) s =
      .next { s with results := s.results ++ [.bytes [BitVec.ofNat 8 (128 + 63), 0, 255, 0, 0, 0]] }

/-- R52, R109 to R111 with D16, D17 (log 16): SLC_FRAME of at most 14 bytes completes and is CMD_ENCODE, kind 5 and
forwarded, of the sub-header, the light data and the padding. -/
def Obligations.SlcFrameIsAnEncodedSingleLightFrame : Prop :=
  ∀ (lightId : LightId) (lightData : Bytes) (s : State), lightData.length ≤ 14 →
    ∃ (s0 s1 : Byte) (f : Bytes) (t : State),
      exec (.slcFrame lightId lightData) s = .next t ∧ exec (.cmdEncode 5 lightId f true) s = .next t ∧
      (s0.extractLsb' 4 4).toNat = lightData.length + 1 ∧ s0.extractLsb' 0 4 = s.cfg.ctrlType ∧
      s1 = lightId.extractLsb' 0 8 ∧
      f = [s0, s1] ++ lightData ++ List.replicate (s.cfg.slcPadLen - (2 + lightData.length)) 0x00

/-- R48 (a), (c) with D14, D34 (log 20): SLC_FRAME of more than 14 bytes is refused; with every operand a number, LV_MAP
with a channel above 1 is refused, and so is LIGHT_WRITE to a bound light. That this holds of the off form too is the
model's reading of R48 against R107 (log 18). An operand with denominator 0, which the decoder never lets through, is
refused under a name of the model's own (log 19). -/
def Obligations.OperandLimitsAreRefused : Prop :=
  (∀ (lightId : LightId) (lightData : Bytes) (s : State), 14 < lightData.length →
    exec (.slcFrame lightId lightData) s = .refused .lightDataTooLong) ∧
  (∀ (isOn : Bool) (brightness r g b : Ratio) (s : State), brightness.den ≠ 0 → r.den ≠ 0 → g.den ≠ 0 → b.den ≠ 0 →
    (r.den < r.num ∨ g.den < g.num ∨ b.den < b.num) →
    exec (.lvMap isOn brightness r g b) s = .refused .channelAboveOne ∧
    ∀ lightId : LightId, lightId.extractLsb' 0 12 ∈ s.cfg.bound →
      exec (.lightWrite lightId isOn brightness r g b) s = .refused .channelAboveOne) ∧
  (∀ (isOn : Bool) (brightness r g b : Ratio) (s : State),
    (brightness.den = 0 ∨ r.den = 0 ∨ g.den = 0 ∨ b.den = 0) →
    exec (.lvMap isOn brightness r g b) s = .refused .notARational ∧
    ∀ lightId : LightId, lightId.extractLsb' 0 12 ∈ s.cfg.bound →
      exec (.lightWrite lightId isOn brightness r g b) s = .refused .notARational)

/-- R112 with the decisions its units rest on (D8 to D17): for a bound light with the lock free and operands in
range, on or off (every operand a number, log 19, and no channel above 1, R48 (c), log 18), LIGHT_WRITE completes and is
LV_MAP, then SLC_FRAME, then Q_ENQUEUE; the draw of SLC_FRAME stands whatever Q_ENQUEUE does. -/
def Obligations.LightWriteIsMapThenFrameThenEnqueue : Prop :=
  ∀ (lightId : LightId) (isOn : Bool) (brightness r g b : Ratio) (s : State),
    s.cfg.isBound lightId = true → s.qlock = false →
    brightness.den ≠ 0 → r.den ≠ 0 → g.den ≠ 0 → b.den ≠ 0 → r.num ≤ r.den → g.num ≤ g.den → b.num ≤ b.den →
    ∃ (lightData payload : Bytes) (seq : Byte) (u : Units) (t : State),
      exec (.lvMap isOn brightness r g b) s = .next { s with results := s.results ++ [.bytes lightData] } ∧
      exec (.slcFrame lightId lightData) s =
        .next { s with seq := seq, units := u, results := s.results ++ [.bytes payload] } ∧
      exec (.lightWrite lightId isOn brightness r g b) s = .next t ∧
      exec (.qEnqueue lightId payload) { s with seq := seq, units := u } = .next t

/-- R112, R139 with D33 (BOUND by the id's bits 11:0 is log 22): for an unbound light nothing is mapped, no sequence value
is drawn, nothing is enqueued: MissingController is logged. -/
def Obligations.LightWriteToAnUnboundLight : Prop :=
  ∀ (lightId : LightId) (isOn : Bool) (brightness r g b : Ratio) (s : State),
    lightId.extractLsb' 0 12 ∉ s.cfg.bound →
    exec (.lightWrite lightId isOn brightness r g b) s = .next { s with
      logTrace := s.logTrace ++ [.missingController lightId]
      results := s.results ++ [.nothing] }

/-- R139 with D33 (the check as a move of the host port is log 37): at setup an unbound light is reported MissingController
and a bound one is not; nothing else happens. -/
def Obligations.SetupReportsAnUnboundLight : Prop :=
  ∀ (lightId : LightId) (rest : List HostAction) (s : State), s.host = .setupLight lightId :: rest →
    (lightId.extractLsb' 0 12 ∉ s.cfg.bound →
      step s = .next { s with host := rest, logTrace := s.logTrace ++ [.missingController lightId] }) ∧
    (lightId.extractLsb' 0 12 ∈ s.cfg.bound → step s = .next { s with host := rest })

/-- R122 with D16, D17, D20: with a padding length of at most 12 the payload of every frame that LV_MAP's output makes
fits an advertisement. -/
def Obligations.SingleLightPayloadsFitAnAdvertisement : Prop :=
  ∀ (lightId : LightId) (isOn : Bool) (brightness r g b : Ratio) (s : State) (lightData payload : Bytes) (t : State),
    s.cfg.slcPadLen ≤ 12 →
    lvMap isOn brightness r g b = .ok lightData → slcFrame lightId lightData s = .ok (payload, t) →
    payload.length ≤ 24 ∧ ∃ frame, advFrame s.cfg payload = .ok frame ∧ frame.length ≤ 31

/-! ### Queue and advertisement framer -/

/-- R115, R117 with D28, D31: with the lock free and room, Q_ENQUEUE appends a Command with one clock read (the next
scripted value; a free value otherwise, log 30) and retry count 0, and nothing else changes. -/
def Obligations.QEnqueueAppendsAtTheTail : Prop :=
  ∀ (lightId : LightId) (payload : Bytes) (s : State), s.qlock = false → s.queue.length < s.cfg.maxQueueSize →
    ∃ (ts : Time) (reads : List Time) (index : Nat),
      exec (.qEnqueue lightId payload) s = .next { s with
        queue := s.queue ++ [⟨payload, ts, 0⟩]
        clockReads := reads
        freeIndex := index
        results := s.results ++ [.nothing] } ∧
      (s.clockReads = [] → reads = [] ∧ index = s.freeIndex + 1) ∧
      (∀ c cs, s.clockReads = c :: cs → ts = c ∧ reads = cs ∧ index = s.freeIndex)

/-- R116. -/
def Obligations.QEnqueueAtCapacityDropsTheNewest : Prop :=
  ∀ (lightId : LightId) (payload : Bytes) (s : State), s.qlock = false → s.cfg.maxQueueSize ≤ s.queue.length →
    exec (.qEnqueue lightId payload) s = .next { s with
      logTrace := s.logTrace ++ [.queueFull lightId]
      results := s.results ++ [.nothing] }

/-- R116, FC's capacity law: offering any number of payloads to an empty queue retains the oldest `MAX_QUEUE_SIZE`. -/
def Obligations.QueueRetainsTheOldest : Prop :=
  ∀ (offers : List (LightId × Bytes)) (s : State), s.qlock = false → s.queue = [] →
    ∃ t, execAll (offers.map (fun o => .qEnqueue o.1 o.2)) s = .next t ∧
      t.queue.map Command.payload = (offers.map Prod.snd).take s.cfg.maxQueueSize

/-- R119. -/
def Obligations.QClearEmptiesTheQueue : Prop :=
  ∀ s : State, s.qlock = false →
    exec .qClear s = .next { s with queue := [], results := s.results ++ [.nothing] }

/-- R26, R38 (the fault is the model's name for a stuck state, log 31): while QLOCK is held no action on the queue runs.
A LIGHT_WRITE comes to the lock when its light is bound and its operands are in range, on or off (every operand a number,
log 19, and no channel above 1, R48 (c), log 18). -/
def Obligations.AHeldLockStopsTheQueue : Prop :=
  ∀ s : State, s.qlock = true →
    (∀ lightId payload, exec (.qEnqueue lightId payload) s = .fault .queueLockHeld) ∧
    exec .qClear s = .fault .queueLockHeld ∧
    (∀ lightId isOn brightness r g b, s.cfg.isBound lightId = true →
      brightness.den ≠ 0 → r.den ≠ 0 → g.den ≠ 0 → b.den ≠ 0 → r.num ≤ r.den → g.num ≤ g.den → b.num ≤ b.den →
      exec (.lightWrite lightId isOn brightness r g b) s = .fault .queueLockHeld) ∧
    (∀ now, s.tickInProgress = none → s.advState = .idle → exec (.tick now) s = .fault .queueLockHeld)

/-- R56, R121, R122 with D19, D20 (log 23): ADV_FRAME of at most 24 bytes answers format AD; a longer payload is
refused. -/
def Obligations.AdvFrameWrapsThePayload : Prop :=
  ∀ (payload : Bytes) (s : State),
    (payload.length ≤ 24 → ∃ n : Byte, n.toNat = 3 + payload.length ∧
      exec (.advFrame payload) s = .next { s with results := s.results ++ [.bytes
        ([0x02, 0x01, s.cfg.advFlags, n, 0xFF, s.cfg.manufacturerId.extractLsb' 0 8,
          s.cfg.manufacturerId.extractLsb' 8 8] ++ payload)] }) ∧
    (24 < payload.length → exec (.advFrame payload) s = .refused .advertisementTooLong)

/-- R118 (b), (c), R31, R133: whatever moves the contexts make, the queue changes only at its ends: one record appended
with retry count 0 while there was room, the head removed while the scheduler is Idle, or all of it emptied by
Q_CLEAR. -/
def Obligations.QueueIsAFifo : Prop :=
  ∀ s t : State, step s = .next t →
    t.queue = s.queue ∨
    (∃ c, t.queue = s.queue ++ [c] ∧ c.retryCount = 0 ∧ s.queue.length < s.cfg.maxQueueSize) ∨
    (∃ c, s.queue = c :: t.queue ∧ s.advState = .idle) ∨
    (t.queue = [] ∧ s.Issues .qClear)

/-! ### Scheduler -/

/-- R123, R127: a tick in Idle with an empty queue is a no-op. -/
def Obligations.TickInIdleWithEmptyQueue : Prop :=
  ∀ (now : Time) (s : State), s.tickInProgress = none → s.qlock = false → s.advState = .idle → s.queue = [] →
    exec (.tick now) s = .next { s with results := s.results ++ [.nothing] }

/-- R127, R130 with D19, D20, D24: a tick in Idle with a queue whose head fits an advertisement completes for every
status the radio returns; the head is gone, and the calls made, the state and the events are those of one of the three
outcomes. Nothing else changes but the radio's state and the inputs used: each call takes the next scripted status, a
free value where none is left (log 29), and advances the model's counter of free values (log 41). -/
def Obligations.TickInIdleBroadcastsTheHead : Prop :=
  ∀ (now : Time) (s : State) (cmd : Command) (rest : List Command), s.tickInProgress = none → s.qlock = false →
    s.advState = .idle → s.queue = cmd :: rest → cmd.payload.length ≤ 24 →
    ∃ (t : State) (on : Bool) (data : Bytes) (calls : List RadioCall) (events : List LogEvent),
      exec (.tick now) s = .next t ∧
      t = { s with
        queue := rest
        advState := t.advState
        stateStartTime := t.stateStartTime
        radioOn := on
        radioData := data
        radioTrace := s.radioTrace ++ calls
        logTrace := s.logTrace ++ events
        radioStatuses := s.radioStatuses.drop calls.length
        freeIndex := s.freeIndex + calls.length + (calls.length - s.radioStatuses.length)
        results := s.results ++ [.nothing] } ∧
      (∀ k st, k < calls.length → s.radioStatuses[k]? = some st → (calls[k]?).map RadioCall.status = some st) ∧
      ((calls = [.configure (formatAD s.cfg cmd.payload) .ok, .start s.cfg.params .ok] ∧ events = [] ∧
          t.advState = .advertising ∧ t.stateStartTime = now ∧ on = true ∧ data = formatAD s.cfg cmd.payload) ∨
       (calls = [.configure (formatAD s.cfg cmd.payload) .fail] ∧ events = [.radioConfigFailure] ∧
          t.advState = .idle ∧ t.stateStartTime = s.stateStartTime ∧ (s.radioOn = false → on = false)) ∨
       (calls = [.configure (formatAD s.cfg cmd.payload) .ok, .start s.cfg.params .fail] ∧
          events = [.radioStartFailure] ∧ t.advState = .idle ∧ t.stateStartTime = s.stateStartTime ∧
          data = formatAD s.cfg cmd.payload ∧ (s.radioOn = false → on = false)))

/-- R60, R127, R130 with D24 (scripted statuses are log 29): the outcome of a tick in Idle is that of the statuses the
radio returns. -/
def Obligations.TickFollowsTheRadioStatuses : Prop :=
  ∀ (now : Time) (s : State) (cmd : Command) (rest : List Command) (st1 st2 : RadioStatus)
    (sts : List RadioStatus), s.tickInProgress = none → s.qlock = false → s.advState = .idle →
    s.queue = cmd :: rest → cmd.payload.length ≤ 24 → s.radioStatuses = st1 :: st2 :: sts →
    ∃ t, exec (.tick now) s = .next t ∧
      (st1 = .ok → st2 = .ok → t.advState = .advertising ∧ t.radioStatuses = sts) ∧
      (st1 = .ok → st2 = .fail → t.advState = .idle ∧ t.logTrace = s.logTrace ++ [.radioStartFailure] ∧
        t.radioStatuses = sts) ∧
      (st1 = .fail → t.advState = .idle ∧ t.logTrace = s.logTrace ++ [.radioConfigFailure] ∧
        t.radioStatuses = st2 :: sts)

/-- R126, R128 with D21, D23: a tick in Advertising stops the radio and enters Gap once the duration has elapsed, whatever
the status of the stop, which is the next scripted one or a free value (log 29); it changes nothing before. -/
def Obligations.TickInAdvertising : Prop :=
  ∀ (now : Time) (s : State), s.tickInProgress = none → s.advState = .advertising →
    (s.cfg.advDuration.toNat ≤ (now.toNat + 2 ^ 32 - s.stateStartTime.toNat) % 2 ^ 32 →
      ∃ (st : RadioStatus) (on : Bool) (statuses : List RadioStatus) (index : Nat),
        exec (.tick now) s = .next { s with
          advState := .gap
          stateStartTime := now
          radioOn := on
          radioTrace := s.radioTrace ++ [.stop st]
          radioStatuses := statuses
          freeIndex := index
          results := s.results ++ [.nothing] } ∧ (st = .ok → on = false) ∧
        (s.radioStatuses = [] → statuses = [] ∧ index = s.freeIndex + 2) ∧
        (∀ st' sts, s.radioStatuses = st' :: sts → st = st' ∧ statuses = sts ∧ index = s.freeIndex + 1)) ∧
    ((now.toNat + 2 ^ 32 - s.stateStartTime.toNat) % 2 ^ 32 < s.cfg.advDuration.toNat →
      exec (.tick now) s = .next { s with results := s.results ++ [.nothing] })

/-- R126, R129 with D21: a tick in Gap returns to Idle once the gap has elapsed, without a radio call, without writing
STATE_START_TIME and without touching the queue, and changes nothing before. -/
def Obligations.TickInGap : Prop :=
  ∀ (now : Time) (s : State), s.tickInProgress = none → s.advState = .gap →
    (s.cfg.advGap.toNat ≤ (now.toNat + 2 ^ 32 - s.stateStartTime.toNat) % 2 ^ 32 →
      exec (.tick now) s = .next { s with advState := .idle, results := s.results ++ [.nothing] }) ∧
    ((now.toNat + 2 ^ 32 - s.stateStartTime.toNat) % 2 ^ 32 < s.cfg.advGap.toNat →
      exec (.tick now) s = .next { s with results := s.results ++ [.nothing] })

/-- R48 (b), R122 with D20: a tick in Idle is refused when the head does not fit an advertisement. R174: a tick while
another is in progress is a race. R40: "each context's own actions keep their program order", so a context whose TICK or
LIGHT_WRITE is in progress starts no request. Both faults are log 32. -/
def Obligations.WhereATickStops : Prop :=
  (∀ (now : Time) (s : State) (cmd : Command) (rest : List Command), s.tickInProgress = none → s.qlock = false →
    s.advState = .idle → s.queue = cmd :: rest → 24 < cmd.payload.length →
    exec (.tick now) s = .refused .advertisementTooLong) ∧
  (∀ (now : Time) (s : State) (p : PendingTick), s.tickInProgress = some p →
    exec (.tick now) s = .fault .tickOverlap ∧
    ∀ (context : Nat) (rest : List HostAction), s.host = .start context (encode (.tick now)) :: rest →
      context ∉ s.contextsInProgress → step s = .fault .tickOverlap) ∧
  (∀ (s : State) (context : Nat) (q : Request) (rest : List HostAction), s.host = .start context q :: rest →
    ((∃ activity, s.tickInProgress = some ⟨context, activity⟩) ∨
      ∃ lightId payload, ⟨context, lightId, payload⟩ ∈ s.writesInProgress) →
    step s = .fault .contextBusy)

/-- R123, R124, R131, R133 with D21, D22: ADV_STATE and STATE_START_TIME change only in a tick, by one of the three
transitions, and Advertising and Gap are left only after their durations. Step by step, the two writes of a TICK in
progress included (log 32), the same holds in every state whose TICK in progress stands in its row, and every step keeps
that. -/
def Obligations.OnlyThreeTransitions : Prop :=
  let transition : Time → State → State → Prop := fun now s t =>
    (s.advState = .idle ∧ t.advState = .advertising ∧ t.stateStartTime = now ∧ s.queue ≠ []) ∨
    (s.advState = .advertising ∧ t.advState = .gap ∧ t.stateStartTime = now ∧
      s.cfg.advDuration.toNat ≤ (now.toNat + 2 ^ 32 - s.stateStartTime.toNat) % 2 ^ 32) ∨
    (s.advState = .gap ∧ t.advState = .idle ∧ t.stateStartTime = s.stateStartTime ∧
      s.cfg.advGap.toNat ≤ (now.toNat + 2 ^ 32 - s.stateStartTime.toNat) % 2 ^ 32)
  (∀ (i : Instr) (s t : State), exec i s = .next t →
    (t.advState = s.advState ∧ t.stateStartTime = s.stateStartTime) ∨
    ∃ now, i = .tick now ∧ transition now s t) ∧
  (∀ s t : State, s.TickShape → step s = .next t → t.TickShape ∧
    ((t.advState = s.advState ∧ t.stateStartTime = s.stateStartTime) ∨
     (∃ now, s.Issues (.tick now) ∧ transition now s t) ∨
     (∃ context now, s.tickInProgress = some ⟨context, .setState t.advState now⟩ ∧
        t.tickInProgress = some ⟨context, .setTime now⟩ ∧ t.stateStartTime = s.stateStartTime ∧
        ((s.advState = .idle ∧ t.advState = .advertising) ∨
         (s.advState = .advertising ∧ t.advState = .gap ∧
            s.cfg.advDuration.toNat ≤ (now.toNat + 2 ^ 32 - s.stateStartTime.toNat) % 2 ^ 32))) ∨
     (∃ context now, s.tickInProgress = some ⟨context, .setTime now⟩ ∧ t.tickInProgress = none ∧
        t.stateStartTime = now ∧ t.advState = s.advState ∧ s.advState ≠ .idle)))

/-- R124, R132 (d), R135, R142 with D22, D24: only a tick calls the radio, with one configure and at most one start, or
one stop; an operation raises at most one event, and only the operation the table of R135 names. The same step by step
(the moves are log 32): a step that runs one atomic action of a TICK makes at most one of these calls, from the state the
call belongs to where the TICK in progress stands in its row. -/
def Obligations.CallsAndEventsOfOneOperation : Prop :=
  let grew : List RadioCall → List LogEvent → State → State → Prop := fun calls events s t =>
    t.radioTrace = s.radioTrace ++ calls ∧ t.logTrace = s.logTrace ++ events
  let tickCalls : List RadioCall → State → Prop := fun calls s =>
    (∃ f, calls = [.configure f .fail] ∧ s.advState = .idle) ∨
    (∃ f p st, calls = [.configure f .ok, .start p st] ∧ s.advState = .idle) ∨
    (∃ st, calls = [.stop st] ∧ s.advState = .advertising)
  (∀ (i : Instr) (s t : State), exec i s = .next t → ∃ (calls : List RadioCall) (events : List LogEvent),
    grew calls events s t ∧
    (calls = [] ∨ ∃ now, i = .tick now ∧ tickCalls calls s) ∧
    (events = [] ∨
      (∃ lightId, events = [.queueFull lightId] ∧
        ((∃ payload, i = .qEnqueue lightId payload) ∨
         (∃ isOn x r g b, i = .lightWrite lightId isOn x r g b))) ∨
      (∃ lightId isOn x r g b, events = [.missingController lightId] ∧ i = .lightWrite lightId isOn x r g b) ∨
      (∃ now, events = [.radioConfigFailure] ∧ i = .tick now) ∨
      (∃ now, events = [.radioStartFailure] ∧ i = .tick now))) ∧
  (∀ s t : State, s.TickShape → step s = .next t → ∃ (calls : List RadioCall) (events : List LogEvent),
    grew calls events s t ∧
    (calls = [] ∨ (∃ now, s.Issues (.tick now) ∧ tickCalls calls s) ∨
      (∃ context now f st, s.tickInProgress = some ⟨context, .configure now f⟩ ∧ calls = [.configure f st] ∧
        s.advState = .idle) ∨
      (∃ context now st, s.tickInProgress = some ⟨context, .startRadio now⟩ ∧ calls = [.start s.cfg.params st] ∧
        s.advState = .idle)) ∧
    (events = [] ∨
      (∃ lightId, events = [.queueFull lightId] ∧
        ((∃ payload, s.Issues (.qEnqueue lightId payload)) ∨
         (∃ isOn x r g b, s.Issues (.lightWrite lightId isOn x r g b)) ∨
         (∃ context payload, ⟨context, lightId, payload⟩ ∈ s.writesInProgress))) ∨
      (∃ lightId, events = [.missingController lightId] ∧
        ((∃ isOn x r g b, s.Issues (.lightWrite lightId isOn x r g b)) ∨
         (∃ rest, s.host = .setupLight lightId :: rest))) ∨
      (events = [.radioConfigFailure] ∧ ∃ f, calls = [.configure f .fail]) ∨
      (events = [.radioStartFailure] ∧ ∃ p, calls.getLast? = some (.start p .fail))))

/-! ### Frames and invariants of the whole machine -/

/-- R171: the pure operations touch no persistent state: only the transient registers and the one answer change. -/
def Obligations.PureOperationsTouchNoPersistentState : Prop :=
  ∀ (i : Instr) (s t : State),
    i.op ∈ [Op.rev8, .rev16, .byterev, .crc16, .whInit, .whEncode, .rfBuild, .rfPrepare, .lvMap, .advFrame] →
    exec i s = .next t →
    ∃ (u : Units) (r : Result), t = { s with units := u, results := s.results ++ [r] }

/-- R44 with D29, R172 (log 34): no move on the host port writes a configuration register, and the traces only grow. -/
def Obligations.ConfigurationIsNeverWritten : Prop :=
  ∀ s t : State, step s = .next t →
    t.cfg = s.cfg ∧ s.radioTrace <+: t.radioTrace ∧ s.logTrace <+: t.logTrace ∧ s.results <+: t.results

/-- R29, R173, R174: the reset state is at rest and one the block may owe, its buffer is in form, the radio follows the
scheduler, no context has two requests in progress and a TICK in progress stands in its row, whatever the
configuration. -/
def Obligations.ResetIsGood : Prop :=
  ∀ cfg : Config, (State.configured cfg).Owed ∧ (State.configured cfg).BufWf ∧ (State.configured cfg).RadioFollows ∧
    (State.configured cfg).AtRest ∧ (State.configured cfg).OneRequestPerContext ∧ (State.configured cfg).TickShape ∧
    (State.configured cfg).seq = 0

/-- R174, R13, R118 (a), R26: every step keeps SEQ in 0 to 254, the queue within its capacity and the lock free. R40 (log
32): every step keeps it that no context has two requests in progress. -/
def Obligations.StepKeepsWhatTheBlockOwes : Prop :=
  ∀ s t : State, step s = .next t →
    (s.Owed → t.Owed) ∧ (s.OneRequestPerContext → t.OneRequestPerContext)

/-- R30: every step keeps the assembly buffer's canonical form. -/
def Obligations.StepKeepsTheBufferInForm : Prop :=
  ∀ s t : State, s.BufWf → step s = .next t → t.BufWf

/-- R132 (a), a derived invariant: as long as every stop succeeds, every step keeps RADIO_ON with the scheduler's state,
whatever statuses configure and start return and however the contexts' moves interleave. -/
def Obligations.StepKeepsTheRadioWithTheScheduler : Prop :=
  ∀ s t : State, (s.StopsOk → s.RadioFollows) → step s = .next t → (t.StopsOk → t.RadioFollows)

/-! ### Two contexts -/

/-- R40 with D25 (the moves of the host port are log 32): a TICK run atomic action by atomic action, with nothing in
between, ends as the whole TICK does, after exactly as many resumes as it has actions left. R173: "no request is ever
left pending inside the block": when no move is left, steps run every request in progress to its end. -/
def Obligations.ATickInPiecesIsTheTick : Prop :=
  (∀ (context : Nat) (now : Time) (s t : State), context ∉ s.contextsInProgress → exec (.tick now) s = .next t →
    ∃ (s1 : State) (k : Nat), start context (encode (.tick now)) s = .next s1 ∧ k ≤ 4 ∧ resumeTick^[k] s1 = t ∧
      t.tickInProgress = none ∧ ∀ j, j < k → (resumeTick^[j] s1).tickInProgress ≠ none) ∧
  (∀ s : State, s.host = [] → s.qlock = false → ∃ n t, run n s = .next t ∧ t.tickInProgress = none ∧
    t.writesInProgress = [] ∧ step t = .next t)

/-- R42 (log 32): a LIGHT_WRITE run in its two atomic actions, with nothing in between, ends as the whole LIGHT_WRITE
does: to a bound light the draw comes first and the Q_ENQUEUE is left, to an unbound one nothing is. -/
def Obligations.ALightWriteInPiecesIsTheLightWrite : Prop :=
  ∀ (context : Nat) (lightId : LightId) (isOn : Bool) (x r g b : Ratio) (s t : State),
    (Instr.lightWrite lightId isOn x r g b).wf = true → context ∉ s.contextsInProgress →
    exec (.lightWrite lightId isOn x r g b) s = .next t →
    ∃ s1, start context (encode (.lightWrite lightId isOn x r g b)) s = .next s1 ∧
      (s.cfg.isBound lightId = false → s1 = t) ∧
      (s.cfg.isBound lightId = true → resumeWrite context s1 = .ok t ∧ s1.queue = s.queue ∧
        ∃ payload, s1.writesInProgress = s.writesInProgress ++ [⟨context, lightId, payload⟩])

/-- R38, R133 with D25: a Q_ENQUEUE with room, with a scripted clock value, gives the same state before and after an
atomic action of a TICK in progress. -/
def Obligations.EnqueueCommutesWithATickInProgress : Prop :=
  ∀ (lightId : LightId) (payload : Bytes) (s : State) (p : PendingTick), s.tickInProgress = some p →
    s.qlock = false → s.queue.length < s.cfg.maxQueueSize → s.clockReads ≠ [] →
    ∃ t, exec (.qEnqueue lightId payload) s = .next t ∧
      exec (.qEnqueue lightId payload) (resumeTick s) = .next (resumeTick t)

/-- R42, a derived property: two LIGHT_WRITEs of different contexts may enqueue in the opposite order to the one in which
they drew their sequence numbers. -/
def Obligations.LightWritesMayEnqueueOutOfOrder : Prop :=
  ∃ (s s1 s2 s3 t : State) (x r g b : Ratio) (p0 p1 : Bytes),
    s.seq = 0 ∧ s.queue = [] ∧ s.writesInProgress = [] ∧
    s.host = [.start 0 (encode (.lightWrite 1 true x r g b)), .start 1 (encode (.lightWrite 2 true x r g b)),
      .resumeWrite 1, .resumeWrite 0] ∧ p0 ≠ p1 ∧
    step s = .next s1 ∧ s1.writesInProgress = [⟨0, 1, p0⟩] ∧ s1.seq = 1 ∧
    step s1 = .next s2 ∧ s2.writesInProgress = [⟨0, 1, p0⟩, ⟨1, 2, p1⟩] ∧ s2.seq = 2 ∧
    step s2 = .next s3 ∧ s3.queue.map Command.payload = [p1] ∧ s3.writesInProgress = [⟨0, 1, p0⟩] ∧
    step s3 = .next t ∧ t.queue.map Command.payload = [p1, p0] ∧ t.writesInProgress = []
end

