-- ==== Sys2Proof/Laws/Memory.lean ====
section
/-! SUPPORT. The laws of the assembly buffer: a read after a write, the canonical form kept by every operation, and
what each run of writes of RF_BUILD does to the buffer seen as a byte string. -/

namespace Sys2Proof.Machine

/-! ### Cells -/

theorem Memory.get_list (a : Nat) (v : Byte) (m : List Host.Cell) (b : Nat) :
    Memory.get (Memory.list a v m) b = if a = b then v else Memory.get m b := by
  induction m with
  | nil => simp [Memory.list, Memory.get]
  | cons c m ih =>
    obtain ⟨k, x⟩ := c
    by_cases h1 : a < k
    · simp [Memory.list, h1, Memory.get]
    · by_cases h2 : a = k
      · subst h2
        by_cases h3 : a = b <;> simp [Memory.list, Memory.get, h3]
      · by_cases h3 : k = b
        · subst h3
          simp [Memory.list, h1, h2, Memory.get]
        · simp [Memory.list, h1, h2, Memory.get, h3, ih]

theorem Memory.get_of_forall_ne (m : List Host.Cell) (a : Nat) (h : ∀ c ∈ m, c.1 ≠ a) :
    Memory.get m a = unlistedByte := by
  induction m with
  | nil => rfl
  | cons c m ih =>
    obtain ⟨k, x⟩ := c
    have hk : k ≠ a := h (k, x) (by simp)
    simp [Memory.get, hk, ih (fun c hc => h c (by simp [hc]))]

theorem Memory.get_unlist (a : Nat) (m : List Host.Cell) (b : Nat) (h : m.Pairwise (fun c d => c.1 < d.1)) :
    Memory.get (Memory.unlist a m) b = if a = b then unlistedByte else Memory.get m b := by
  induction m with
  | nil => simp [Memory.unlist, Memory.get]
  | cons c m ih =>
    obtain ⟨k, x⟩ := c
    rw [List.pairwise_cons] at h
    by_cases h1 : k = a
    · subst h1
      by_cases h2 : k = b
      · subst h2
        have : ∀ c ∈ m, c.1 ≠ k := fun c hc => by have := h.1 c hc; simp at this; omega
        simp [Memory.unlist, Memory.get_of_forall_ne m k this]
      · simp [Memory.unlist, Memory.get, h2]
    · by_cases h2 : k = b
      · subst h2
        simp [Memory.unlist, h1, Memory.get, Ne.symm h1]
      · simp [Memory.unlist, h1, Memory.get, h2, ih h.2]

/-- Read after write, and every other offset left alone. -/
theorem Memory.get_set (a : Nat) (v : Byte) (m : List Host.Cell) (b : Nat) (h : Memory.wf m) :
    Memory.get (Memory.set a v m) b = if a = b then v else Memory.get m b := by
  unfold Memory.set
  split
  · next hv => rw [Memory.get_unlist _ _ _ h.1, hv]
  · exact Memory.get_list a v m b

theorem Memory.mem_list (a : Nat) (v : Byte) (m : List Host.Cell) (c : Host.Cell)
    (h : c ∈ Memory.list a v m) : c = (a, v) ∨ c ∈ m := by
  induction m with
  | nil => simpa [Memory.list] using h
  | cons d m ih =>
    obtain ⟨k, x⟩ := d
    simp only [Memory.list] at h
    split at h
    · simpa using h
    · split at h
      · rcases List.mem_cons.mp h with h | h <;> simp [h]
      · rcases List.mem_cons.mp h with h | h
        · simp [h]
        · rcases ih h with h | h <;> simp [h]

theorem Memory.mem_unlist (a : Nat) (m : List Host.Cell) (c : Host.Cell) (h : c ∈ Memory.unlist a m) : c ∈ m := by
  induction m with
  | nil => simp [Memory.unlist] at h
  | cons d m ih =>
    obtain ⟨k, x⟩ := d
    simp only [Memory.unlist] at h
    split at h
    · simp [h]
    · rcases List.mem_cons.mp h with h | h
      · simp [h]
      · simp [ih h]

theorem Memory.mem_set (a : Nat) (v : Byte) (m : List Host.Cell) (c : Host.Cell) (h : c ∈ Memory.set a v m) :
    c = (a, v) ∨ c ∈ m := by
  unfold Memory.set at h
  split at h
  · exact .inr (Memory.mem_unlist a m c h)
  · exact Memory.mem_list a v m c h

theorem Memory.pairwise_list (a : Nat) (v : Byte) (m : List Host.Cell) (h : m.Pairwise (fun c d => c.1 < d.1)) :
    (Memory.list a v m).Pairwise (fun c d => c.1 < d.1) := by
  induction m with
  | nil => simp [Memory.list]
  | cons d m ih =>
    obtain ⟨k, x⟩ := d
    have hc := List.pairwise_cons.mp h
    simp only [Memory.list]
    split
    · next hlt =>
      refine List.pairwise_cons.mpr ⟨fun c hc' => ?_, h⟩
      rcases List.mem_cons.mp hc' with rfl | hm
      · exact hlt
      · exact Nat.lt_trans hlt (hc.1 c hm)
    · split
      · next heq => subst heq; exact List.pairwise_cons.mpr ⟨fun c hm => hc.1 c hm, hc.2⟩
      · next h1 h2 =>
        refine List.pairwise_cons.mpr ⟨fun c hm => ?_, ih hc.2⟩
        rcases Memory.mem_list a v m c hm with rfl | hm
        · simp; omega
        · exact hc.1 c hm

theorem Memory.pairwise_unlist (a : Nat) (m : List Host.Cell) (h : m.Pairwise (fun c d => c.1 < d.1)) :
    (Memory.unlist a m).Pairwise (fun c d => c.1 < d.1) := by
  induction m with
  | nil => simp [Memory.unlist]
  | cons d m ih =>
    obtain ⟨k, x⟩ := d
    have hc := List.pairwise_cons.mp h
    simp only [Memory.unlist]
    split
    · exact hc.2
    · exact List.pairwise_cons.mpr ⟨fun c hm => hc.1 c (Memory.mem_unlist a m c hm), ih hc.2⟩

/-- A write keeps the canonical form. -/
theorem Memory.wf_set (a : Nat) (v : Byte) (m : List Host.Cell) (h : Memory.wf m) : Memory.wf (Memory.set a v m) := by
  unfold Memory.set
  split
  · exact ⟨Memory.pairwise_unlist a m h.1, fun c hc => h.2 c (Memory.mem_unlist a m c hc)⟩
  · next hv =>
    refine ⟨Memory.pairwise_list a v m h.1, fun c hc => ?_⟩
    rcases Memory.mem_list a v m c hc with rfl | hc
    · exact hv
    · exact h.2 c hc

/-! ### The buffer -/

theorem Buf.wf_alloc (n : Nat) : (Buf.alloc n).wf := by simp [Buf.alloc, Buf.wf, Memory.wf]

theorem Buf.wf_discarded : Buf.discarded.wf := Buf.wf_alloc 0

/-- A write inside the buffer lands. -/
theorem Buf.write_eq (b : Buf) (a : Nat) (v : Byte) (h : a < b.len) :
    b.write a v = some ⟨b.len, Memory.set a v b.cells⟩ := by
  simp [Buf.write, h]

/-- A write keeps the form. -/
theorem Buf.wf_write (b b' : Buf) (a : Nat) (v : Byte) (h : b.wf) (hw : b.write a v = some b') : b'.wf := by
  unfold Buf.write at hw
  split at hw
  · next ha =>
    cases hw
    refine ⟨Memory.wf_set a v _ h.1, fun c hc => ?_⟩
    rcases Memory.mem_set a v _ c hc with rfl | hc
    · exact ha
    · exact h.2 c hc
  · cases hw

@[simp] theorem Buf.toBytes_length (b : Buf) : b.toBytes.length = b.len := by simp [Buf.toBytes]

theorem Buf.toBytes_alloc (n : Nat) : (Buf.alloc n).toBytes = List.replicate n 0x00 := by
  apply List.ext_getElem <;> simp [Buf.toBytes, Buf.alloc, Memory.get, unlistedByte]

/-- A read is the byte of the string. -/
theorem Buf.read_eq (b : Buf) (a : Nat) : b.read a = b.toBytes[a]? := by
  unfold Buf.read Buf.toBytes
  split
  · next h => simp [h]
  · next h => simp [h]

/-- A write inside the buffer replaces one byte of the string. -/
theorem Buf.write_toBytes (b : Buf) (a : Nat) (v : Byte) (hwf : b.wf) (h : a < b.toBytes.length) :
    ∃ b', b.write a v = some b' ∧ b'.wf ∧ b'.toBytes = b.toBytes.set a v := by
  rw [Buf.toBytes_length] at h
  refine ⟨_, Buf.write_eq b a v h, Buf.wf_write b _ a v hwf (Buf.write_eq b a v h), ?_⟩
  apply List.ext_getElem
  · simp [Buf.toBytes]
  · intro n h1 h2
    simp [Buf.toBytes, Memory.get_set _ _ _ _ hwf.1, List.getElem_set]

theorem Buf.writeAll_append (b : Buf) (ws ws' : List (Nat × Byte)) :
    b.writeAll (ws ++ ws') = (b.writeAll ws).bind (fun b' => b'.writeAll ws') := by
  induction ws generalizing b with
  | nil => rfl
  | cons w ws ih =>
    obtain ⟨a, v⟩ := w
    simp only [List.cons_append, Buf.writeAll]
    cases b.write a v with
    | none => rfl
    | some b' => exact ih b'

/-- R88: the data writes from the end of `pre` on replace as many bytes by the data. -/
theorem Buf.writeAll_dataWrites (xs pre mid post : Bytes) (b : Buf) (hwf : b.wf)
    (hb : b.toBytes = pre ++ mid ++ post) (hlen : mid.length = xs.length) :
    ∃ b', b.writeAll (dataWrites pre.length xs) = some b' ∧ b'.wf ∧ b'.toBytes = pre ++ xs ++ post := by
  induction xs generalizing pre mid b with
  | nil =>
    have : mid = [] := List.length_eq_zero_iff.mp hlen
    exact ⟨b, rfl, hwf, by simpa [this] using hb⟩
  | cons x xs ih =>
    obtain ⟨m, mid, rfl⟩ : ∃ m mid', mid = m :: mid' := by
      cases mid with
      | nil => simp at hlen
      | cons m mid' => exact ⟨m, mid', rfl⟩
    obtain ⟨b1, hw, hwf1, hb1⟩ := b.write_toBytes pre.length x hwf (by simp [hb])
    have hb1' : b1.toBytes = (pre ++ [x]) ++ mid ++ post := by simp [hb1, hb]
    obtain ⟨b2, hw2, hwf2, hb2⟩ := ih (pre ++ [x]) mid b1 hwf1 hb1' (by simpa using hlen)
    refine ⟨b2, ?_, hwf2, by simpa using hb2⟩
    simp only [dataWrites, Buf.writeAll, hw]
    simpa using hw2

/-- R85: the address writes from index `i` on fill the bytes before those of the indices below `i`, last byte first. -/
theorem Buf.writeAll_addressWrites (xs pre mid post : Bytes) (b : Buf) (A i : Nat) (hwf : b.wf)
    (hb : b.toBytes = pre ++ mid ++ post) (hpre : pre.length = addrOffset) (hlen : mid.length = xs.length)
    (hA : A = i + xs.length) :
    ∃ b', b.writeAll (addressWrites A i xs) = some b' ∧ b'.wf ∧ b'.toBytes = pre ++ xs.reverse ++ post := by
  induction xs generalizing mid post b i with
  | nil =>
    have : mid = [] := List.length_eq_zero_iff.mp hlen
    exact ⟨b, rfl, hwf, by simpa [this] using hb⟩
  | cons x xs ih =>
    obtain ⟨mid, m, rfl⟩ : ∃ mid' m, mid = mid' ++ [m] := by
      rcases List.eq_nil_or_concat mid with h | ⟨l, y, h⟩
      · simp [h] at hlen
      · exact ⟨l, y, by simpa using h⟩
    have hml : mid.length = xs.length := by simpa using hlen
    have hoff : addrOffset + A - 1 - i = (pre ++ mid).length := by
      simp only [List.length_append, hpre, hml]
      simp only [List.length_cons] at hA
      omega
    obtain ⟨b1, hw, hwf1, hb1⟩ := b.write_toBytes (addrOffset + A - 1 - i) x hwf (by
      rw [hoff, hb]; simp)
    have hb1' : b1.toBytes = pre ++ mid ++ (x :: post) := by
      rw [hb1, hoff, hb]
      simp
    obtain ⟨b2, hw2, hwf2, hb2⟩ := ih mid (x :: post) b1 (i + 1) hwf1 hb1' hml (by simp at hA; omega)
    refine ⟨b2, ?_, hwf2, by simpa using hb2⟩
    simp only [addressWrites, Buf.writeAll, hw]
    exact hw2

/-- R86: the bit reversal replaces every byte of its range by its REV8. -/
theorem reverseRange_spec (mid pre post : Bytes) (b : Buf) (hwf : b.wf) (hb : b.toBytes = pre ++ mid ++ post) :
    ∃ b', reverseRange mid.length pre.length b = some b' ∧ b'.wf ∧
      b'.toBytes = pre ++ mid.map rev8 ++ post := by
  induction mid generalizing pre b with
  | nil => exact ⟨b, rfl, hwf, by simpa using hb⟩
  | cons m mid ih =>
    have hread : b.read pre.length = some m := by rw [Buf.read_eq, hb]; simp
    obtain ⟨b1, hw, hwf1, hb1⟩ := b.write_toBytes pre.length (rev8 m) hwf (by simp [hb])
    have hb1' : b1.toBytes = (pre ++ [rev8 m]) ++ mid ++ post := by simp [hb1, hb]
    obtain ⟨b2, hw2, hwf2, hb2⟩ := ih (pre ++ [rev8 m]) b1 hwf1 hb1'
    refine ⟨b2, ?_, hwf2, by simpa using hb2⟩
    simp only [List.length_cons, reverseRange, hread, hw]
    simpa using hw2

end Sys2Proof.Machine
end

