-- ==== Sys2Proof/Laws/State.lean ====
section
/-! SUPPORT. One lemma per field per update of State: what each small operation of Ops.lean and Scheduler.lean leaves
in each field. -/

namespace Sys2Proof.Machine

/-! ### answer, raise, release, enter -/

@[simp] theorem State.answer_cfg (s : State) (r : Result) : (s.answer r).cfg = s.cfg := rfl
@[simp] theorem State.answer_seq (s : State) (r : Result) : (s.answer r).seq = s.seq := rfl
@[simp] theorem State.answer_queue (s : State) (r : Result) : (s.answer r).queue = s.queue := rfl
@[simp] theorem State.answer_advState (s : State) (r : Result) : (s.answer r).advState = s.advState := rfl
@[simp] theorem State.answer_stateStartTime (s : State) (r : Result) : (s.answer r).stateStartTime = s.stateStartTime := rfl
@[simp] theorem State.answer_qlock (s : State) (r : Result) : (s.answer r).qlock = s.qlock := rfl
@[simp] theorem State.answer_units (s : State) (r : Result) : (s.answer r).units = s.units := rfl
@[simp] theorem State.answer_radioOn (s : State) (r : Result) : (s.answer r).radioOn = s.radioOn := rfl
@[simp] theorem State.answer_radioData (s : State) (r : Result) : (s.answer r).radioData = s.radioData := rfl
@[simp] theorem State.answer_radioTrace (s : State) (r : Result) : (s.answer r).radioTrace = s.radioTrace := rfl
@[simp] theorem State.answer_logTrace (s : State) (r : Result) : (s.answer r).logTrace = s.logTrace := rfl
@[simp] theorem State.answer_host (s : State) (r : Result) : (s.answer r).host = s.host := rfl
@[simp] theorem State.answer_radioStatuses (s : State) (r : Result) : (s.answer r).radioStatuses = s.radioStatuses := rfl
@[simp] theorem State.answer_clockReads (s : State) (r : Result) : (s.answer r).clockReads = s.clockReads := rfl
@[simp] theorem State.answer_tickInProgress (s : State) (r : Result) : (s.answer r).tickInProgress = s.tickInProgress := rfl
@[simp] theorem State.answer_writesInProgress (s : State) (r : Result) : (s.answer r).writesInProgress = s.writesInProgress := rfl
@[simp] theorem State.answer_freeIndex (s : State) (r : Result) : (s.answer r).freeIndex = s.freeIndex := rfl
@[simp] theorem State.answer_results (s : State) (r : Result) : (s.answer r).results = s.results ++ [r] := rfl
@[simp] theorem State.raise_cfg (s : State) (e : LogEvent) : (s.raise e).cfg = s.cfg := rfl
@[simp] theorem State.raise_seq (s : State) (e : LogEvent) : (s.raise e).seq = s.seq := rfl
@[simp] theorem State.raise_queue (s : State) (e : LogEvent) : (s.raise e).queue = s.queue := rfl
@[simp] theorem State.raise_advState (s : State) (e : LogEvent) : (s.raise e).advState = s.advState := rfl
@[simp] theorem State.raise_stateStartTime (s : State) (e : LogEvent) : (s.raise e).stateStartTime = s.stateStartTime := rfl
@[simp] theorem State.raise_qlock (s : State) (e : LogEvent) : (s.raise e).qlock = s.qlock := rfl
@[simp] theorem State.raise_units (s : State) (e : LogEvent) : (s.raise e).units = s.units := rfl
@[simp] theorem State.raise_radioOn (s : State) (e : LogEvent) : (s.raise e).radioOn = s.radioOn := rfl
@[simp] theorem State.raise_radioData (s : State) (e : LogEvent) : (s.raise e).radioData = s.radioData := rfl
@[simp] theorem State.raise_radioTrace (s : State) (e : LogEvent) : (s.raise e).radioTrace = s.radioTrace := rfl
@[simp] theorem State.raise_results (s : State) (e : LogEvent) : (s.raise e).results = s.results := rfl
@[simp] theorem State.raise_host (s : State) (e : LogEvent) : (s.raise e).host = s.host := rfl
@[simp] theorem State.raise_radioStatuses (s : State) (e : LogEvent) : (s.raise e).radioStatuses = s.radioStatuses := rfl
@[simp] theorem State.raise_clockReads (s : State) (e : LogEvent) : (s.raise e).clockReads = s.clockReads := rfl
@[simp] theorem State.raise_tickInProgress (s : State) (e : LogEvent) : (s.raise e).tickInProgress = s.tickInProgress := rfl
@[simp] theorem State.raise_writesInProgress (s : State) (e : LogEvent) : (s.raise e).writesInProgress = s.writesInProgress := rfl
@[simp] theorem State.raise_freeIndex (s : State) (e : LogEvent) : (s.raise e).freeIndex = s.freeIndex := rfl
@[simp] theorem State.raise_logTrace (s : State) (e : LogEvent) : (s.raise e).logTrace = s.logTrace ++ [e] := rfl
@[simp] theorem State.release_cfg (s : State) : s.release.cfg = s.cfg := rfl
@[simp] theorem State.release_seq (s : State) : s.release.seq = s.seq := rfl
@[simp] theorem State.release_queue (s : State) : s.release.queue = s.queue := rfl
@[simp] theorem State.release_advState (s : State) : s.release.advState = s.advState := rfl
@[simp] theorem State.release_stateStartTime (s : State) : s.release.stateStartTime = s.stateStartTime := rfl
@[simp] theorem State.release_units (s : State) : s.release.units = s.units := rfl
@[simp] theorem State.release_radioOn (s : State) : s.release.radioOn = s.radioOn := rfl
@[simp] theorem State.release_radioData (s : State) : s.release.radioData = s.radioData := rfl
@[simp] theorem State.release_radioTrace (s : State) : s.release.radioTrace = s.radioTrace := rfl
@[simp] theorem State.release_logTrace (s : State) : s.release.logTrace = s.logTrace := rfl
@[simp] theorem State.release_results (s : State) : s.release.results = s.results := rfl
@[simp] theorem State.release_host (s : State) : s.release.host = s.host := rfl
@[simp] theorem State.release_radioStatuses (s : State) : s.release.radioStatuses = s.radioStatuses := rfl
@[simp] theorem State.release_clockReads (s : State) : s.release.clockReads = s.clockReads := rfl
@[simp] theorem State.release_tickInProgress (s : State) : s.release.tickInProgress = s.tickInProgress := rfl
@[simp] theorem State.release_writesInProgress (s : State) : s.release.writesInProgress = s.writesInProgress := rfl
@[simp] theorem State.release_freeIndex (s : State) : s.release.freeIndex = s.freeIndex := rfl
@[simp] theorem State.release_qlock (s : State) : s.release.qlock = false := rfl
@[simp] theorem State.enter_cfg (s : State) (st : AdvState) (now : Time) : (s.enter st now).cfg = s.cfg := rfl
@[simp] theorem State.enter_seq (s : State) (st : AdvState) (now : Time) : (s.enter st now).seq = s.seq := rfl
@[simp] theorem State.enter_queue (s : State) (st : AdvState) (now : Time) : (s.enter st now).queue = s.queue := rfl
@[simp] theorem State.enter_qlock (s : State) (st : AdvState) (now : Time) : (s.enter st now).qlock = s.qlock := rfl
@[simp] theorem State.enter_units (s : State) (st : AdvState) (now : Time) : (s.enter st now).units = s.units := rfl
@[simp] theorem State.enter_radioOn (s : State) (st : AdvState) (now : Time) : (s.enter st now).radioOn = s.radioOn := rfl
@[simp] theorem State.enter_radioData (s : State) (st : AdvState) (now : Time) : (s.enter st now).radioData = s.radioData := rfl
@[simp] theorem State.enter_radioTrace (s : State) (st : AdvState) (now : Time) : (s.enter st now).radioTrace = s.radioTrace := rfl
@[simp] theorem State.enter_logTrace (s : State) (st : AdvState) (now : Time) : (s.enter st now).logTrace = s.logTrace := rfl
@[simp] theorem State.enter_results (s : State) (st : AdvState) (now : Time) : (s.enter st now).results = s.results := rfl
@[simp] theorem State.enter_host (s : State) (st : AdvState) (now : Time) : (s.enter st now).host = s.host := rfl
@[simp] theorem State.enter_radioStatuses (s : State) (st : AdvState) (now : Time) : (s.enter st now).radioStatuses = s.radioStatuses := rfl
@[simp] theorem State.enter_clockReads (s : State) (st : AdvState) (now : Time) : (s.enter st now).clockReads = s.clockReads := rfl
@[simp] theorem State.enter_tickInProgress (s : State) (st : AdvState) (now : Time) : (s.enter st now).tickInProgress = s.tickInProgress := rfl
@[simp] theorem State.enter_writesInProgress (s : State) (st : AdvState) (now : Time) : (s.enter st now).writesInProgress = s.writesInProgress := rfl
@[simp] theorem State.enter_freeIndex (s : State) (st : AdvState) (now : Time) : (s.enter st now).freeIndex = s.freeIndex := rfl
@[simp] theorem State.enter_advState (s : State) (st : AdvState) (now : Time) : (s.enter st now).advState = st := rfl
@[simp] theorem State.enter_stateStartTime (s : State) (st : AdvState) (now : Time) : (s.enter st now).stateStartTime = now := rfl

/-! ### The inputs: a status, a clock value -/

@[simp] theorem State.takeStatus_cfg (s : State) : s.takeStatus.2.cfg = s.cfg := by
  unfold State.takeStatus; split <;> rfl
@[simp] theorem State.takeStatus_seq (s : State) : s.takeStatus.2.seq = s.seq := by
  unfold State.takeStatus; split <;> rfl
@[simp] theorem State.takeStatus_queue (s : State) : s.takeStatus.2.queue = s.queue := by
  unfold State.takeStatus; split <;> rfl
@[simp] theorem State.takeStatus_advState (s : State) : s.takeStatus.2.advState = s.advState := by
  unfold State.takeStatus; split <;> rfl
@[simp] theorem State.takeStatus_stateStartTime (s : State) : s.takeStatus.2.stateStartTime = s.stateStartTime := by
  unfold State.takeStatus; split <;> rfl
@[simp] theorem State.takeStatus_qlock (s : State) : s.takeStatus.2.qlock = s.qlock := by
  unfold State.takeStatus; split <;> rfl
@[simp] theorem State.takeStatus_units (s : State) : s.takeStatus.2.units = s.units := by
  unfold State.takeStatus; split <;> rfl
@[simp] theorem State.takeStatus_radioOn (s : State) : s.takeStatus.2.radioOn = s.radioOn := by
  unfold State.takeStatus; split <;> rfl
@[simp] theorem State.takeStatus_radioData (s : State) : s.takeStatus.2.radioData = s.radioData := by
  unfold State.takeStatus; split <;> rfl
@[simp] theorem State.takeStatus_radioTrace (s : State) : s.takeStatus.2.radioTrace = s.radioTrace := by
  unfold State.takeStatus; split <;> rfl
@[simp] theorem State.takeStatus_logTrace (s : State) : s.takeStatus.2.logTrace = s.logTrace := by
  unfold State.takeStatus; split <;> rfl
@[simp] theorem State.takeStatus_results (s : State) : s.takeStatus.2.results = s.results := by
  unfold State.takeStatus; split <;> rfl
@[simp] theorem State.takeStatus_host (s : State) : s.takeStatus.2.host = s.host := by
  unfold State.takeStatus; split <;> rfl
@[simp] theorem State.takeStatus_clockReads (s : State) : s.takeStatus.2.clockReads = s.clockReads := by
  unfold State.takeStatus; split <;> rfl
@[simp] theorem State.takeStatus_tickInProgress (s : State) : s.takeStatus.2.tickInProgress = s.tickInProgress := by
  unfold State.takeStatus; split <;> rfl
@[simp] theorem State.takeStatus_writesInProgress (s : State) : s.takeStatus.2.writesInProgress = s.writesInProgress := by
  unfold State.takeStatus; split <;> rfl
@[simp] theorem State.readClock_cfg (s : State) : s.readClock.2.cfg = s.cfg := by
  unfold State.readClock; split <;> rfl
@[simp] theorem State.readClock_seq (s : State) : s.readClock.2.seq = s.seq := by
  unfold State.readClock; split <;> rfl
@[simp] theorem State.readClock_queue (s : State) : s.readClock.2.queue = s.queue := by
  unfold State.readClock; split <;> rfl
@[simp] theorem State.readClock_advState (s : State) : s.readClock.2.advState = s.advState := by
  unfold State.readClock; split <;> rfl
@[simp] theorem State.readClock_stateStartTime (s : State) : s.readClock.2.stateStartTime = s.stateStartTime := by
  unfold State.readClock; split <;> rfl
@[simp] theorem State.readClock_qlock (s : State) : s.readClock.2.qlock = s.qlock := by
  unfold State.readClock; split <;> rfl
@[simp] theorem State.readClock_units (s : State) : s.readClock.2.units = s.units := by
  unfold State.readClock; split <;> rfl
@[simp] theorem State.readClock_radioOn (s : State) : s.readClock.2.radioOn = s.radioOn := by
  unfold State.readClock; split <;> rfl
@[simp] theorem State.readClock_radioData (s : State) : s.readClock.2.radioData = s.radioData := by
  unfold State.readClock; split <;> rfl
@[simp] theorem State.readClock_radioTrace (s : State) : s.readClock.2.radioTrace = s.radioTrace := by
  unfold State.readClock; split <;> rfl
@[simp] theorem State.readClock_logTrace (s : State) : s.readClock.2.logTrace = s.logTrace := by
  unfold State.readClock; split <;> rfl
@[simp] theorem State.readClock_results (s : State) : s.readClock.2.results = s.results := by
  unfold State.readClock; split <;> rfl
@[simp] theorem State.readClock_host (s : State) : s.readClock.2.host = s.host := by
  unfold State.readClock; split <;> rfl
@[simp] theorem State.readClock_radioStatuses (s : State) : s.readClock.2.radioStatuses = s.radioStatuses := by
  unfold State.readClock; split <;> rfl
@[simp] theorem State.readClock_tickInProgress (s : State) : s.readClock.2.tickInProgress = s.tickInProgress := by
  unfold State.readClock; split <;> rfl
@[simp] theorem State.readClock_writesInProgress (s : State) : s.readClock.2.writesInProgress = s.writesInProgress := by
  unfold State.readClock; split <;> rfl

/-! ### The radio calls -/

@[simp] theorem State.configureRadio_cfg (s : State) (frame : Bytes) : (s.configureRadio frame).2.cfg = s.cfg := by
  simp [State.configureRadio]
@[simp] theorem State.configureRadio_seq (s : State) (frame : Bytes) : (s.configureRadio frame).2.seq = s.seq := by
  simp [State.configureRadio]
@[simp] theorem State.configureRadio_queue (s : State) (frame : Bytes) : (s.configureRadio frame).2.queue = s.queue := by
  simp [State.configureRadio]
@[simp] theorem State.configureRadio_advState (s : State) (frame : Bytes) : (s.configureRadio frame).2.advState = s.advState := by
  simp [State.configureRadio]
@[simp] theorem State.configureRadio_stateStartTime (s : State) (frame : Bytes) : (s.configureRadio frame).2.stateStartTime = s.stateStartTime := by
  simp [State.configureRadio]
@[simp] theorem State.configureRadio_qlock (s : State) (frame : Bytes) : (s.configureRadio frame).2.qlock = s.qlock := by
  simp [State.configureRadio]
@[simp] theorem State.configureRadio_units (s : State) (frame : Bytes) : (s.configureRadio frame).2.units = s.units := by
  simp [State.configureRadio]
@[simp] theorem State.configureRadio_logTrace (s : State) (frame : Bytes) : (s.configureRadio frame).2.logTrace = s.logTrace := by
  simp [State.configureRadio]
@[simp] theorem State.configureRadio_results (s : State) (frame : Bytes) : (s.configureRadio frame).2.results = s.results := by
  simp [State.configureRadio]
@[simp] theorem State.configureRadio_host (s : State) (frame : Bytes) : (s.configureRadio frame).2.host = s.host := by
  simp [State.configureRadio]
@[simp] theorem State.configureRadio_clockReads (s : State) (frame : Bytes) : (s.configureRadio frame).2.clockReads = s.clockReads := by
  simp [State.configureRadio]
@[simp] theorem State.configureRadio_tickInProgress (s : State) (frame : Bytes) : (s.configureRadio frame).2.tickInProgress = s.tickInProgress := by
  simp [State.configureRadio]
@[simp] theorem State.configureRadio_writesInProgress (s : State) (frame : Bytes) : (s.configureRadio frame).2.writesInProgress = s.writesInProgress := by
  simp [State.configureRadio]
@[simp] theorem State.startRadio_cfg (s : State) : s.startRadio.2.cfg = s.cfg := by
  simp [State.startRadio]
@[simp] theorem State.startRadio_seq (s : State) : s.startRadio.2.seq = s.seq := by
  simp [State.startRadio]
@[simp] theorem State.startRadio_queue (s : State) : s.startRadio.2.queue = s.queue := by
  simp [State.startRadio]
@[simp] theorem State.startRadio_advState (s : State) : s.startRadio.2.advState = s.advState := by
  simp [State.startRadio]
@[simp] theorem State.startRadio_stateStartTime (s : State) : s.startRadio.2.stateStartTime = s.stateStartTime := by
  simp [State.startRadio]
@[simp] theorem State.startRadio_qlock (s : State) : s.startRadio.2.qlock = s.qlock := by
  simp [State.startRadio]
@[simp] theorem State.startRadio_units (s : State) : s.startRadio.2.units = s.units := by
  simp [State.startRadio]
@[simp] theorem State.startRadio_radioData (s : State) : s.startRadio.2.radioData = s.radioData := by
  simp [State.startRadio]
@[simp] theorem State.startRadio_logTrace (s : State) : s.startRadio.2.logTrace = s.logTrace := by
  simp [State.startRadio]
@[simp] theorem State.startRadio_results (s : State) : s.startRadio.2.results = s.results := by
  simp [State.startRadio]
@[simp] theorem State.startRadio_host (s : State) : s.startRadio.2.host = s.host := by
  simp [State.startRadio]
@[simp] theorem State.startRadio_clockReads (s : State) : s.startRadio.2.clockReads = s.clockReads := by
  simp [State.startRadio]
@[simp] theorem State.startRadio_tickInProgress (s : State) : s.startRadio.2.tickInProgress = s.tickInProgress := by
  simp [State.startRadio]
@[simp] theorem State.startRadio_writesInProgress (s : State) : s.startRadio.2.writesInProgress = s.writesInProgress := by
  simp [State.startRadio]
@[simp] theorem State.stopRadio_cfg (s : State) : s.stopRadio.cfg = s.cfg := by
  simp [State.stopRadio]
@[simp] theorem State.stopRadio_seq (s : State) : s.stopRadio.seq = s.seq := by
  simp [State.stopRadio]
@[simp] theorem State.stopRadio_queue (s : State) : s.stopRadio.queue = s.queue := by
  simp [State.stopRadio]
@[simp] theorem State.stopRadio_advState (s : State) : s.stopRadio.advState = s.advState := by
  simp [State.stopRadio]
@[simp] theorem State.stopRadio_stateStartTime (s : State) : s.stopRadio.stateStartTime = s.stateStartTime := by
  simp [State.stopRadio]
@[simp] theorem State.stopRadio_qlock (s : State) : s.stopRadio.qlock = s.qlock := by
  simp [State.stopRadio]
@[simp] theorem State.stopRadio_units (s : State) : s.stopRadio.units = s.units := by
  simp [State.stopRadio]
@[simp] theorem State.stopRadio_radioData (s : State) : s.stopRadio.radioData = s.radioData := by
  simp [State.stopRadio]
@[simp] theorem State.stopRadio_logTrace (s : State) : s.stopRadio.logTrace = s.logTrace := by
  simp [State.stopRadio]
@[simp] theorem State.stopRadio_results (s : State) : s.stopRadio.results = s.results := by
  simp [State.stopRadio]
@[simp] theorem State.stopRadio_host (s : State) : s.stopRadio.host = s.host := by
  simp [State.stopRadio]
@[simp] theorem State.stopRadio_clockReads (s : State) : s.stopRadio.clockReads = s.clockReads := by
  simp [State.stopRadio]
@[simp] theorem State.stopRadio_tickInProgress (s : State) : s.stopRadio.tickInProgress = s.tickInProgress := by
  simp [State.stopRadio]
@[simp] theorem State.stopRadio_writesInProgress (s : State) : s.stopRadio.writesInProgress = s.writesInProgress := by
  simp [State.stopRadio]

@[simp] theorem State.configureRadio_radioTrace (s : State) (frame : Bytes) :
    (s.configureRadio frame).2.radioTrace = s.radioTrace ++ [.configure frame (s.configureRadio frame).1] := by
  simp [State.configureRadio]

@[simp] theorem State.startRadio_radioTrace (s : State) :
    s.startRadio.2.radioTrace = s.radioTrace ++ [.start s.cfg.params s.startRadio.1] := by
  simp [State.startRadio]

@[simp] theorem State.stopRadio_radioTrace (s : State) :
    s.stopRadio.radioTrace = s.radioTrace ++ [.stop s.takeStatus.1] := by
  simp [State.stopRadio]

/-- A radio that is off stays off when configured. -/
theorem State.configureRadio_radioOn_of_off (s : State) (frame : Bytes) (h : s.radioOn = false) :
    (s.configureRadio frame).2.radioOn = false := by
  simp [State.configureRadio, h]

theorem State.configureRadio_radioData_of_ok (s : State) (frame : Bytes) (h : (s.configureRadio frame).1 = .ok) :
    (s.configureRadio frame).2.radioData = frame := by
  simp only [State.configureRadio] at h ⊢
  simp [dataAfterConfigure, h]

theorem State.startRadio_radioOn_of_ok (s : State) (h : s.startRadio.1 = .ok) : s.startRadio.2.radioOn = true := by
  simp only [State.startRadio] at h ⊢
  simp [onAfterStart, h]

theorem State.startRadio_radioOn_of_off (s : State) (hoff : s.radioOn = false) (h : s.startRadio.1 = .fail) :
    s.startRadio.2.radioOn = false := by
  simp only [State.startRadio] at h ⊢
  simp [onAfterStart, h, hoff]

theorem State.stopRadio_radioOn_of_ok (s : State) (h : s.takeStatus.1 = .ok) : s.stopRadio.radioOn = false := by
  simp only [State.stopRadio]
  simp [onAfterStop, h]

/-- A scripted status is the one returned. -/
theorem State.takeStatus_cons (s : State) (st : RadioStatus) (sts : List RadioStatus)
    (h : s.radioStatuses = st :: sts) : s.takeStatus = (st, { s with radioStatuses := sts }) := by
  unfold State.takeStatus; rw [h]

/-- A scripted clock value is the one read. -/
theorem State.readClock_cons (s : State) (c : Time) (cs : List Time) (h : s.clockReads = c :: cs) :
    s.readClock = (c, { s with clockReads := cs }) := by
  unfold State.readClock; rw [h]

/-- With nothing scripted the value is free, and the counter moves on. -/
theorem State.readClock_nil (s : State) (h : s.clockReads = []) :
    s.readClock = (Config.freeClock s.freeIndex, { s with freeIndex := s.freeIndex + 1 }) := by
  unfold State.readClock; rw [h]

/-- A configure call as one update: the status taken, the script shortened, the free values advanced. -/
theorem State.configureRadio_eq (s : State) (frame : Bytes) :
    s.configureRadio frame = (s.takeStatus.1,
      { s with radioStatuses := s.radioStatuses.drop 1
               freeIndex := s.freeIndex + 1 + (1 - s.radioStatuses.length)
               radioOn := s.radioOn && Config.freeRadioOn (s.freeIndex + (1 - s.radioStatuses.length))
               radioData := dataAfterConfigure frame s.takeStatus.1 (s.freeIndex + (1 - s.radioStatuses.length))
               radioTrace := s.radioTrace ++ [.configure frame s.takeStatus.1] }) := by
  rcases s with ⟨cfg, seq, queue, adv, sst, ql, un, ron, rd, rt, lt, rs, host, rst, cr, tip, wip, fi⟩
  rcases rst with _ | ⟨a, l⟩ <;> simp [State.configureRadio, State.takeStatus]

/-- A start call as one update. -/
theorem State.startRadio_eq (s : State) :
    s.startRadio = (s.takeStatus.1,
      { s with radioStatuses := s.radioStatuses.drop 1
               freeIndex := s.freeIndex + 1 + (1 - s.radioStatuses.length)
               radioOn := onAfterStart s.radioOn s.takeStatus.1 (s.freeIndex + (1 - s.radioStatuses.length))
               radioTrace := s.radioTrace ++ [.start s.cfg.params s.takeStatus.1] }) := by
  rcases s with ⟨cfg, seq, queue, adv, sst, ql, un, ron, rd, rt, lt, rs, host, rst, cr, tip, wip, fi⟩
  rcases rst with _ | ⟨a, l⟩ <;> simp [State.startRadio, State.takeStatus]

/-! ### Requests in progress -/

/-- A context has a request in progress: the TICK is its own, or one of the LIGHT_WRITEs is. -/
theorem State.mem_contextsInProgress (s : State) (context : Nat) :
    context ∈ s.contextsInProgress ↔
      (∃ p, s.tickInProgress = some p ∧ p.context = context) ∨
      ∃ w, w ∈ s.writesInProgress ∧ w.context = context := by
  simp [State.contextsInProgress]

@[simp] theorem State.contextsInProgress_answer (s : State) (r : Result) :
    (s.answer r).contextsInProgress = s.contextsInProgress := rfl
@[simp] theorem State.contextsInProgress_raise (s : State) (e : LogEvent) :
    (s.raise e).contextsInProgress = s.contextsInProgress := rfl
@[simp] theorem State.contextsInProgress_host (s : State) (moves : List HostAction) :
    ({ s with host := moves } : State).contextsInProgress = s.contextsInProgress := rfl

/-! ### The lock -/

@[simp] theorem State.acquire_of_free (s : State) (h : s.qlock = false) :
    s.acquire = .ok { s with qlock := true } := by
  simp [State.acquire, h]

@[simp] theorem State.acquire_of_held (s : State) (h : s.qlock = true) :
    s.acquire = .error (.fault .queueLockHeld) := by
  simp [State.acquire, h]

/-- A state whose lock is free is itself with the lock set free. -/
theorem State.unlocked_eq (s : State) (h : s.qlock = false) : { s with qlock := false } = s := by
  cases s; simp_all

end Sys2Proof.Machine
end

