-- ==== Sys2Proof/Laws/Units.lean ====
section
/-! SUPPORT. One lemma per unit: what the bit reversals, the CRC engine, the whitening engine and the payload builder
give, which later proofs cite instead of unfolding them. -/

namespace Sys2Proof.Machine

/-! ### Bits -/

theorem getLsbD_ofBits (f : Nat → Bool) (n i : Nat) : (ofBits f n).getLsbD i = (decide (i < n) && f i) := by
  induction n with
  | zero => simp [ofBits]
  | succ n ih =>
    simp only [ofBits, BitVec.getLsbD_cons, ih]
    by_cases h : i = n
    · simp [h]
    · have : (i < n + 1) = (i < n) := by simp; omega
      simp [h, this]

theorem getLsbD_rev8 (b : Byte) (i : Nat) (h : i < 8) : (rev8 b).getLsbD i = b.getLsbD (7 - i) := by
  rw [rev8, getLsbD_ofBits]; simp [h]

theorem getLsbD_rev16 (b : Half) (i : Nat) (h : i < 16) : (rev16 b).getLsbD i = b.getLsbD (15 - i) := by
  rw [rev16, getLsbD_ofBits]; simp [h]

/-! ### The function parameters -/

theorem override_of_mem {α β : Type} [DecidableEq α] (f g : α → β) (xs : List α) (x : α) (h : x ∈ xs) :
    override (xs.map (fun k => (k, f k))) g x = f x := by
  induction xs with
  | nil => cases h
  | cons k xs ih =>
    simp only [List.map_cons, override]
    split
    · next hk => rw [hk]
    · next hk => exact ih ((List.mem_cons.mp h).resolve_left (Ne.symm hk))

/-- Every function from a listed type is a table of exceptions from any other. -/
theorem exists_override {α β : Type} [DecidableEq α] (xs : List α) (hxs : ∀ x, x ∈ xs) (f g : α → β) :
    ∃ m, override m g = f :=
  ⟨_, funext (fun x => override_of_mem f g xs x (hxs x))⟩

theorem mem_all_bitVec (n : Nat) (x : BitVec n) : x ∈ (List.range (2 ^ n)).map (BitVec.ofNat n) :=
  List.mem_map.mpr ⟨x.toNat, List.mem_range.mpr x.isLt, by simp⟩

theorem mem_all_whState (w : WhState) :
    w ∈ (List.range 128).map (fun n => ⟨n.testBit 0, n.testBit 1, n.testBit 2, n.testBit 3, n.testBit 4, n.testBit 5,
      n.testBit 6⟩) := by
  obtain ⟨a, b, c, d, e, f, g⟩ := w
  revert a b c d e f g
  decide +kernel

/-- R6: the configuration can hold every instance of the two function parameters. -/
theorem Config.engine_surjective (e : Engine) : ∃ cfg : Config, cfg.engine = e := by
  obtain ⟨r, hr⟩ := exists_override _ (mem_all_bitVec 16) e.round crcRound
  obtain ⟨i, hi⟩ := exists_override _ (mem_all_bitVec 8) e.wiring.init whInit
  obtain ⟨b, hb⟩ := exists_override
    (((List.range 128).map (fun n => (⟨n.testBit 0, n.testBit 1, n.testBit 2, n.testBit 3, n.testBit 4, n.testBit 5,
      n.testBit 6⟩ : WhState))).product ((List.range (2 ^ 8)).map (BitVec.ofNat 8)))
    (fun x => List.pair_mem_product.mpr ⟨mem_all_whState x.1, mem_all_bitVec 8 x.2⟩)
    (fun x => e.wiring.byteStep x.1 x.2) (fun x => whByte x.1 x.2)
  refine ⟨{ Config.atReset with crcRoundTable := r, whInitTable := i, whByteTable := b }, ?_⟩
  simp [Config.engine, Config.round, Config.wiring, hr, hi, hb]

/-- R6: without exceptions the parameters are the spec's defaults. -/
theorem Config.round_default (cfg : Config) (h : cfg.crcRoundTable = []) : cfg.round = crcRound := by
  rw [Config.round, h]; rfl

theorem Config.wiring_default (cfg : Config) (hi : cfg.whInitTable = []) (hb : cfg.whByteTable = []) :
    cfg.wiring = whWiring := by
  rw [Config.wiring, hi, hb]; rfl

@[simp] theorem Config.engine_round (cfg : Config) : cfg.engine.round = cfg.round := rfl
@[simp] theorem Config.engine_wiring (cfg : Config) : cfg.engine.wiring = cfg.wiring := rfl

/-! ### The CRC engine -/

/-- CRC_TMP does not enter the accumulator: a fold's new accumulator depends on the old one and the byte. -/
theorem crcRounds_acc (round : CrcRound) (n : Nat) (acc tmp tmp' : Half) :
    (crcRounds round n ⟨acc, tmp⟩).acc = (crcRounds round n ⟨acc, tmp'⟩).acc := by
  cases n <;> rfl

theorem crcFold_acc (round : CrcRound) (c c' : CrcRegs) (x : Byte) (h : c.acc = c'.acc) :
    (crcFold round c x).acc = (crcFold round c' x).acc := by
  unfold crcFold; rw [h]; exact crcRounds_acc ..

theorem foldl_acc (f : CrcRegs → Byte → CrcRegs) (hf : ∀ c c' x, c.acc = c'.acc → (f c x).acc = (f c' x).acc)
    (xs : Bytes) (c c' : CrcRegs) (h : c.acc = c'.acc) : (xs.foldl f c).acc = (xs.foldl f c').acc := by
  induction xs generalizing c c' with
  | nil => exact h
  | cons x xs ih => exact ih _ _ (hf c c' x h)

/-- The accumulator does not depend on what CRC_TMP held before. -/
theorem crcRun_acc (round : CrcRound) (address data : Bytes) (tmp tmp' : Half) :
    (crcRun round address data tmp).acc = (crcRun round address data tmp').acc := by
  unfold crcRun
  apply foldl_acc (fun c x => crcFold round c (rev8 x)) (fun c c' x h => crcFold_acc round c c' (rev8 x) h)
  exact foldl_acc (crcFold round) (crcFold_acc round) (byteRev address) ⟨0xFFFF, tmp⟩ ⟨0xFFFF, tmp'⟩ rfl

@[simp] theorem runCrc_w (round : CrcRound) (a d : Bytes) (u : Units) : (u.runCrc round a d).w = u.w := rfl
@[simp] theorem runCrc_buf (round : CrcRound) (a d : Bytes) (u : Units) : (u.runCrc round a d).buf = u.buf := rfl

theorem runCrc_final (round : CrcRound) (a d : Bytes) (u : Units) :
    crcFinal (u.runCrc round a d).crcAcc = crc16 round a d := by
  show crcFinal (crcRun round a d u.crcTmp).acc = crcFinal (crcRun round a d 0).acc
  rw [crcRun_acc round a d u.crcTmp 0]

/-! ### The whitening engine -/

/-- R82 (a), (b) for one byte: the data passes through by exclusive or and does not enter the state. -/
theorem whClocks_eq (n k : Nat) (w : WhState) (c : Byte) :
    whClocks n k w c = ((whClocks n k w 0).1, c ^^^ (whClocks n k w 0).2) := by
  induction n generalizing k w c with
  | zero => simp [whClocks]
  | succ n ih =>
    simp only [whClocks]
    rw [ih _ _ (c ^^^ _), ih _ _ (0 ^^^ _)]
    simp [BitVec.xor_assoc]

theorem whByte_eq (w : WhState) (c : Byte) : whByte w c = ((whByte w 0).1, c ^^^ (whByte w 0).2) :=
  whClocks_eq 8 0 w c

@[simp] theorem whEncode_length (wiring : WhWiring) (w : WhState) (cs : Bytes) :
    (whEncode wiring w cs).2.length = cs.length := by
  induction cs generalizing w with
  | nil => rfl
  | cons c cs ih => simp [whEncode, ih]

/-- R82 (b): the stream form of WH_ENCODE for the block's wiring. -/
theorem whEncode_eq (w : WhState) (cs : Bytes) :
    whEncode whWiring w cs =
      ((whEncode whWiring w (List.replicate cs.length 0x00)).1,
        List.zipWith (· ^^^ ·) cs (whEncode whWiring w (List.replicate cs.length 0x00)).2) := by
  induction cs generalizing w with
  | nil => rfl
  | cons c cs ih =>
    have h : whWiring.byteStep w c = ((whWiring.byteStep w 0).1, c ^^^ (whWiring.byteStep w 0).2) := whByte_eq w c
    simp only [whEncode, List.length_cons, List.replicate_succ, List.zipWith_cons_cons]
    rw [h, ih (whWiring.byteStep w 0).1]

@[simp] theorem keyStream_length (wiring : WhWiring) (seed : Byte) (n : Nat) :
    (keyStream wiring seed n).length = n := by
  simp [keyStream]

/-- A buffer may be whitened in two passes with the state handed on (V25 of spec/95_test_vectors.md). -/
theorem whEncode_append (wiring : WhWiring) (w : WhState) (a b : Bytes) :
    whEncode wiring w (a ++ b) =
      ((whEncode wiring (whEncode wiring w a).1 b).1,
        (whEncode wiring w a).2 ++ (whEncode wiring (whEncode wiring w a).1 b).2) := by
  induction a generalizing w with
  | nil => rfl
  | cons c cs ih => simp only [List.cons_append, whEncode, ih]

/-! ### The payload builder -/

@[simp] theorem formatRB_length (round : CrcRound) (a d : Bytes) :
    (formatRB round a d).length = 20 + a.length + d.length := by
  simp [formatRB, byteRev]; omega

/-- R84 to R88: RF_BUILD never leaves its buffer, and lays out format RB of R54. -/
theorem rfBuild_eq (e : Engine) (a d : Bytes) (u : Units) :
    ∃ b : Buf, rfBuild e a d u = some { u.runCrc e.round a d with buf := b } ∧ b.wf ∧
      b.toBytes = formatRB e.round a d := by
  -- the empty buffer, cut at the marker, address and data regions
  have h0 : (Buf.alloc (addrOffset + a.length + d.length + 2)).toBytes =
      List.replicate 15 0 ++ List.replicate 3 0 ++
        (List.replicate a.length 0 ++ (List.replicate d.length 0 ++ [0, 0])) := by
    rw [Buf.toBytes_alloc, show ([0, 0] : Bytes) = List.replicate 2 0 from rfl]
    simp only [List.replicate_append_replicate]
    congr 1; simp [addrOffset]; omega
  obtain ⟨b1, hw1, hwf1, hb1⟩ := Buf.writeAll_dataWrites [0x71, 0x0F, 0x55] (List.replicate 15 0)
    (List.replicate 3 0) _ _ (Buf.wf_alloc _) h0 rfl
  have hm : dataWrites (List.replicate 15 (0 : Byte)).length [0x71, 0x0F, 0x55] = markerWrites := rfl
  rw [hm] at hw1
  obtain ⟨b2, hw2, hwf2, hb2⟩ := Buf.writeAll_addressWrites a
    (List.replicate 15 0 ++ [0x71, 0x0F, 0x55]) (List.replicate a.length 0)
    (List.replicate d.length 0 ++ [0, 0]) b1 a.length 0 hwf1 (by simp [hb1]) rfl (by simp) (by simp)
  obtain ⟨b3, hw3, hwf3, hb3⟩ := Buf.writeAll_dataWrites d
    (List.replicate 15 0 ++ [0x71, 0x0F, 0x55] ++ a.reverse) (List.replicate d.length 0) [0, 0] b2 hwf2
    (by simp [hb2]) (by simp)
  obtain ⟨b4, hw4, hwf4, hb4⟩ := reverseRange_spec ([0x71, 0x0F, 0x55] ++ a.reverse)
    (List.replicate 15 0) (d ++ [0, 0]) b3 hwf3 (by simp [hb3])
  obtain ⟨b5, hw5, hwf5, hb5⟩ := Buf.writeAll_dataWrites
    [(crc16 e.round a d).extractLsb' 0 8, (crc16 e.round a d).extractLsb' 8 8]
    (List.replicate 15 0 ++ ([0x71, 0x0F, 0x55] ++ a.reverse).map rev8 ++ d) [0, 0] [] b4 hwf4
    (by simp [hb4]) rfl
  have hl3 : (List.replicate 15 (0 : Byte) ++ [0x71, 0x0F, 0x55] ++ a.reverse).length = addrOffset + a.length := by
    simp [addrOffset]; omega
  have hl5 : (List.replicate 15 (0 : Byte) ++ ([0x71, 0x0F, 0x55] ++ a.reverse).map rev8 ++ d).length =
      addrOffset + a.length + d.length := by
    simp [addrOffset]; omega
  rw [hl3] at hw3
  rw [hl5] at hw5
  have hl4 : ([0x71, 0x0F, 0x55] ++ a.reverse : Bytes).length = a.length + 3 := by simp
  rw [hl4] at hw4
  refine ⟨b5, ?_, hwf5, ?_⟩
  · simp only [rfBuild, hw1, hw2, hw3]
    rw [show (0x0F : Nat) = (List.replicate 15 (0 : Byte)).length from rfl, hw4]
    simp only [runCrc_final]
    simp only [dataWrites] at hw5
    rw [hw5]
  · rw [hb5]
    have : ([0x71, 0x0F, 0x55] : Bytes).map rev8 = [0x8E, 0xF0, 0xAA] := by decide
    simp only [List.map_append, this, formatRB, byteRev]
    simp

/-- R89: RF_PREPARE returns `BUF[0x0F .. L)` of the whitened format RB and discards the buffer. -/
theorem rfPrepare_eq (e : Engine) (a d : Bytes) (u : Units) :
    ∃ w : WhState, rfPrepare e a d u =
      some (rfPayload e a d, { u.runCrc e.round a d with w := w, buf := Buf.discarded }) := by
  obtain ⟨b, hb, -, hbytes⟩ := rfBuild_eq e a d u
  refine ⟨(whEncode e.wiring (e.wiring.init whSeed) (formatRB e.round a d)).1, ?_⟩
  simp only [rfPrepare, hb, hbytes]
  rfl

@[simp] theorem rfPayload_length (e : Engine) (a d : Bytes) :
    (rfPayload e a d).length = a.length + d.length + 5 := by
  simp [rfPayload, prefixLen]; omega

/-- R55: with the spec's wiring, whatever the round, the payload is format PL. -/
theorem rfPayload_eq_formatPL (e : Engine) (h : e.wiring = whWiring) (a d : Bytes) :
    rfPayload e a d = formatPL e a d := by
  simp only [rfPayload, formatPL, keyStream, h, prefixLen]
  rw [whEncode_eq]

@[simp] theorem formatPL_length (e : Engine) (a d : Bytes) :
    (formatPL e a d).length = a.length + d.length + 5 := by
  simp [formatPL]; omega

end Sys2Proof.Machine
end

