-- ==== Sys2Proof/Laws/Ops.lean ====
section
/-! SUPPORT. For each shared operation of the queue, the encoder, the mapper and the scheduler, what it does when it
ends well, said once; and for exec, everything an operation that answers a next state can have done. -/

namespace Sys2Proof.Machine

/-! ### The end of an operation -/

@[simp] theorem conclude_ok (s : State) : conclude (.ok s) = .next s := rfl
@[simp] theorem conclude_fault (r : Fault) : conclude (.error (.fault r)) = .fault r := rfl
@[simp] theorem conclude_refusal (r : Refusal) : conclude (.error (.refusal r)) = .refused r := rfl

theorem conclude_eq_next (e : Except Stop State) (t : State) : conclude e = .next t ↔ e = .ok t := by
  cases e with
  | error r => cases r <;> simp [conclude]
  | ok s => simp [conclude]

@[simp] theorem bind_ok {α β : Type} (a : α) (f : α → Except Stop β) :
    ((Except.ok a : Except Stop α) >>= f) = f a := rfl
@[simp] theorem bind_error {α β : Type} (r : Stop) (f : α → Except Stop β) :
    ((Except.error r : Except Stop α) >>= f) = .error r := rfl

theorem bind_eq_ok {α β : Type} (x : Except Stop α) (f : α → Except Stop β) (b : β) :
    (x >>= f) = .ok b ↔ ∃ a, x = .ok a ∧ f a = .ok b := by
  cases x with
  | error r => simp
  | ok a => simp

/-! ### The queue -/

/-- R116: at capacity the offer is logged and nothing else changes. -/
theorem enqueue_of_full (lightId : LightId) (payload : Bytes) (s : State) (hq : s.qlock = false)
    (h : s.cfg.maxQueueSize ≤ s.queue.length) :
    enqueue lightId payload s = .ok (s.raise (.queueFull lightId)) := by
  have hc : ({ s with qlock := true } : State).atCapacity = true := by simpa [State.atCapacity] using h
  simp only [enqueue, State.acquire_of_free s hq, bind_ok, hc, if_true]
  exact congrArg (fun x : State => (Except.ok (x.raise (.queueFull lightId)) : Except Stop State))
    (State.unlocked_eq s hq)

/-- R117: with room the record goes to the tail, with one clock read. -/
theorem enqueue_of_room (lightId : LightId) (payload : Bytes) (s : State) (hq : s.qlock = false)
    (h : s.queue.length < s.cfg.maxQueueSize) :
    enqueue lightId payload s =
      .ok { s.readClock.2 with queue := s.queue ++ [⟨payload, s.readClock.1, 0⟩] } := by
  have hc : ({ s with qlock := true } : State).atCapacity = false := by simpa [State.atCapacity] using h
  simp only [enqueue, State.acquire_of_free s hq, bind_ok, hc]
  rcases s with ⟨_, _, _, _, _, _, _, _, _, _, _, _, _, _, _ | ⟨c, cs⟩, _, _, _⟩ <;> cases hq <;> rfl

/-- Everything Q_ENQUEUE can do when it ends well. -/
theorem enqueue_cases (lightId : LightId) (payload : Bytes) (s t : State)
    (h : enqueue lightId payload s = .ok t) :
    s.qlock = false ∧
      ((s.cfg.maxQueueSize ≤ s.queue.length ∧ t = s.raise (.queueFull lightId)) ∨
       (s.queue.length < s.cfg.maxQueueSize ∧
          t = { s.readClock.2 with queue := s.queue ++ [⟨payload, s.readClock.1, 0⟩] })) := by
  rcases Bool.eq_false_or_eq_true s.qlock with hq | hq
  · simp [enqueue, hq] at h
  · refine ⟨hq, ?_⟩
    rcases Nat.lt_or_ge s.queue.length s.cfg.maxQueueSize with hl | hl
    · rw [enqueue_of_room _ _ _ hq hl] at h; cases h; exact .inr ⟨hl, rfl⟩
    · rw [enqueue_of_full _ _ _ hq hl] at h; cases h; exact .inl ⟨hl, rfl⟩

/-- R119: Q_CLEAR. -/
theorem clearQueue_eq (s : State) (hq : s.qlock = false) : clearQueue s = .ok { s with queue := [] } := by
  simp only [clearQueue, State.acquire_of_free s hq, bind_ok]
  cases s; cases hq; rfl

theorem takeHead_nil (s : State) (hq : s.qlock = false) (h : s.queue = []) : takeHead s = .ok (none, s) := by
  simp only [takeHead, State.acquire_of_free s hq, bind_ok, h]
  cases s; cases hq; cases h; rfl

theorem takeHead_cons (s : State) (cmd : Command) (rest : List Command) (hq : s.qlock = false)
    (h : s.queue = cmd :: rest) : takeHead s = .ok (some cmd, { s with queue := rest }) := by
  simp only [takeHead, State.acquire_of_free s hq, bind_ok, h]
  cases s; cases hq; rfl

/-- Everything the head removal can do when it ends well. -/
theorem takeHead_cases (s : State) (p : Option Command × State) (h : takeHead s = .ok p) :
    s.qlock = false ∧
      ((s.queue = [] ∧ p = (none, s)) ∨
       (∃ cmd rest, s.queue = cmd :: rest ∧ p = (some cmd, { s with queue := rest }))) := by
  rcases Bool.eq_false_or_eq_true s.qlock with hq | hq
  · simp [takeHead, hq] at h
  · refine ⟨hq, ?_⟩
    rcases hs : s.queue with _ | ⟨cmd, rest⟩
    · rw [takeHead_nil s hq hs] at h; cases h; exact .inl ⟨rfl, rfl⟩
    · rw [takeHead_cons s cmd rest hq hs] at h; cases h; exact .inr ⟨cmd, rest, rfl, rfl⟩

@[simp] theorem formatAD_length (cfg : Config) (payload : Bytes) :
    (formatAD cfg payload).length = 7 + payload.length := by
  simp [formatAD]
  omega

theorem advFrame_of_le (cfg : Config) (payload : Bytes) (h : payload.length ≤ 24) :
    advFrame cfg payload = .ok (formatAD cfg payload) := by
  have : ¬ advMaxLen < (formatAD cfg payload).length := by rw [formatAD_length]; simp [advMaxLen]; omega
  simp only [advFrame, this, if_false]

theorem advFrame_of_gt (cfg : Config) (payload : Bytes) (h : 24 < payload.length) :
    advFrame cfg payload = .error (.refusal .advertisementTooLong) := by
  have : advMaxLen < (formatAD cfg payload).length := by rw [formatAD_length]; simp [advMaxLen]; omega
  simp only [advFrame, this, if_true]

theorem advFrame_cases (cfg : Config) (payload frame : Bytes) (h : advFrame cfg payload = .ok frame) :
    payload.length ≤ 24 ∧ frame = formatAD cfg payload := by
  rcases Nat.lt_or_ge 24 payload.length with hl | hl
  · rw [advFrame_of_gt _ _ hl] at h; cases h
  · rw [advFrame_of_le _ _ hl] at h; cases h; exact ⟨hl, rfl⟩

/-! ### The encoder -/

/-- R92 to R100: CMD_ENCODE always ends well: it draws, and answers format PL of the encrypted frame. -/
theorem cmdEncode_eq (kind : Kind) (lightId : LightId) (body : Bytes) (forward : Bool) (s : State) :
    ∃ u : Units, cmdEncode kind lightId body forward s =
      .ok (rfPayload s.cfg.engine (addressBytes s.cfg.meshAddress) (formatCE s.cfg.meshKey s.seq kind lightId body forward),
        { s with seq := seqNext s.seq, units := u }) ∧ u.buf = Buf.discarded := by
  obtain ⟨w, hw⟩ := rfPrepare_eq s.cfg.engine (addressBytes s.cfg.meshAddress)
    (formatCE s.cfg.meshKey s.seq kind lightId body forward) s.units
  refine ⟨{ s.units.runCrc s.cfg.round (addressBytes s.cfg.meshAddress)
    (formatCE s.cfg.meshKey s.seq kind lightId body forward) with w := w, buf := Buf.discarded }, ?_, rfl⟩
  simp only [cmdEncode, hw]
  rfl

@[simp] theorem xorKey_length (key : Key) (j : Nat) (xs : Bytes) : (xorKey key j xs).length = xs.length := by
  induction xs generalizing j with
  | nil => rfl
  | cons x xs ih => simp [xorKey, ih]

/-- R98, R99: each byte meets the key byte of its own position. -/
theorem getElem?_xorKey (key : Key) (j : Nat) (xs : Bytes) (i : Nat) :
    (xorKey key j xs)[i]? = (xs[i]?).map (fun x => x ^^^ keyByte key (j + i)) := by
  induction xs generalizing i j with
  | nil => simp [xorKey]
  | cons x xs ih =>
    cases i with
    | zero => simp [xorKey]
    | succ i =>
      simp only [xorKey, List.getElem?_cons_succ, ih]
      rw [show j + 1 + i = j + (i + 1) by omega]

@[simp] theorem formatCE_length (key : Key) (seq : Byte) (kind : Kind) (lightId : LightId) (body : Bytes)
    (forward : Bool) : (formatCE key seq kind lightId body forward).length = 4 + body.length := by
  simp [formatCE, clearHeader]

/-- R95: where the next draw stands. -/
theorem seqNext_eq (seq : Byte) : seqNext seq = if 254 ≤ seq.toNat then 1 else seq + 1 := by
  unfold seqNext
  by_cases h : 254 ≤ seq.toNat
  · simp [h]
  · have : ¬ 255 ≤ seq.toNat + 1 := by omega
    simp only [this, h, if_false]
    apply BitVec.eq_of_toNat_eq
    simp

theorem seqNext_le (seq : Byte) : (seqNext seq).toNat ≤ 254 := by
  rw [seqNext_eq]
  split
  · decide
  · next h => rw [BitVec.toNat_add]; have : (1 : Byte).toNat = 1 := rfl; omega

theorem slcFrame_of_le (lightId : LightId) (lightData : Bytes) (s : State) (h : lightData.length ≤ 14) :
    slcFrame lightId lightData s = cmdEncode kindSingle lightId (formatSL s.cfg lightId lightData) true s := by
  have : ¬ 14 < lightData.length := by omega
  simp [slcFrame, this]

/-- Everything SLC_FRAME can do when it ends well. -/
theorem slcFrame_cases (lightId : LightId) (lightData : Bytes) (s : State) (p : Bytes × State)
    (h : slcFrame lightId lightData s = .ok p) :
    lightData.length ≤ 14 ∧ p.1.length = (formatSL s.cfg lightId lightData).length + 12 ∧
      ∃ u : Units, p.2 = { s with seq := seqNext s.seq, units := u } ∧ u.buf = Buf.discarded := by
  rcases Nat.lt_or_ge 14 lightData.length with hl | hl
  · simp [slcFrame, hl] at h
  · rw [slcFrame_of_le _ _ _ hl] at h
    obtain ⟨u, hu, hb⟩ := cmdEncode_eq kindSingle lightId (formatSL s.cfg lightId lightData) true s
    rw [hu] at h; cases h
    exact ⟨hl, by simp [addressBytes]; omega, u, rfl, hb⟩

theorem lightDataOn_length (x r g b : Ratio) : (lightDataOn x r g b).length = 6 := by
  unfold lightDataOn; split <;> rfl

theorem lightData_length_le (isOn : Bool) (x r g b : Ratio) : (lightData isOn x r g b).length ≤ 6 := by
  cases isOn <;> simp [lightData, lightDataOn_length]

/-- Within the operand limits of R47 and R48 (c) LV_MAP answers the light data. -/
theorem lvMap_of_inLimits (isOn : Bool) (x r g b : Ratio) (hx : x.den ≠ 0) (hr : r.den ≠ 0) (hg : g.den ≠ 0)
    (hb : b.den ≠ 0) (hr1 : r.num ≤ r.den) (hg1 : g.num ≤ g.den) (hb1 : b.num ≤ b.den) :
    lvMap isOn x r g b = .ok (lightData isOn x r g b) := by
  simp [lvMap, Ratio.wf, Ratio.aboveOne, hx, hr, hg, hb, hr1, hg1, hb1]

/-- R48 (c): a channel above 1 is refused, the light on or off. -/
theorem lvMap_of_aboveOne (isOn : Bool) (x r g b : Ratio) (hx : x.den ≠ 0) (hr : r.den ≠ 0) (hg : g.den ≠ 0)
    (hb : b.den ≠ 0) (h : r.den < r.num ∨ g.den < g.num ∨ b.den < b.num) :
    lvMap isOn x r g b = .error (.refusal .channelAboveOne) := by
  simp [lvMap, Ratio.wf, Ratio.aboveOne, hx, hr, hg, hb, or_assoc, h]

/-- Everything LV_MAP can do when it ends well: its operands are within the limits and it answers the light data. -/
theorem lvMap_cases (isOn : Bool) (x r g b : Ratio) (d : Bytes) (h : lvMap isOn x r g b = .ok d) :
    d = lightData isOn x r g b ∧ x.den ≠ 0 ∧ r.den ≠ 0 ∧ g.den ≠ 0 ∧ b.den ≠ 0 ∧
      r.num ≤ r.den ∧ g.num ≤ g.den ∧ b.num ≤ b.den := by
  unfold lvMap at h
  split at h
  · cases h
  · next hw =>
    split at h
    · cases h
    · next ha =>
      cases h
      simp_all [Ratio.wf, Ratio.aboveOne]

theorem lvMap_length (isOn : Bool) (x r g b : Ratio) (d : Bytes) (h : lvMap isOn x r g b = .ok d) :
    d.length ≤ 6 := by
  rw [(lvMap_cases isOn x r g b d h).1]; exact lightData_length_le isOn x r g b

/-- Everything the part of LIGHT_WRITE before its Q_ENQUEUE can do when it ends well. -/
theorem lightEncode_cases (lightId : LightId) (isOn : Bool) (x r g b : Ratio) (s : State) (p : Bytes × State)
    (h : lightEncode lightId isOn x r g b s = .ok p) :
    ∃ u : Units, p.2 = { s with seq := seqNext s.seq, units := u } ∧ u.buf = Buf.discarded := by
  unfold lightEncode at h
  obtain ⟨d, -, h⟩ := (bind_eq_ok _ _ _).mp h
  exact (slcFrame_cases lightId d s p h).2.2

/-- Everything LIGHT_WRITE can do when it ends well. -/
theorem lightWrite_cases (lightId : LightId) (isOn : Bool) (x r g b : Ratio) (s t : State)
    (h : lightWrite lightId isOn x r g b s = .ok t) :
    (s.cfg.isBound lightId = false ∧ t = s.raise (.missingController lightId)) ∨
    (s.cfg.isBound lightId = true ∧ ∃ (payload : Bytes) (u : Units), u.buf = Buf.discarded ∧
      lightEncode lightId isOn x r g b s = .ok (payload, { s with seq := seqNext s.seq, units := u }) ∧
      enqueue lightId payload { s with seq := seqNext s.seq, units := u } = .ok t) := by
  unfold lightWrite at h
  cases hb : s.cfg.isBound lightId with
  | false => rw [hb] at h; cases h; exact .inl ⟨rfl, rfl⟩
  | true =>
    rw [hb] at h
    obtain ⟨p, hp, h⟩ := (bind_eq_ok _ _ _).mp h
    obtain ⟨u, hu, hd⟩ := lightEncode_cases _ _ _ _ _ _ _ _ hp
    obtain ⟨payload, s1⟩ := p
    cases hu
    exact .inr ⟨rfl, payload, u, hd, hp, h⟩

/-! ### The scheduler -/

/-- The three outcomes of the radio calls of IDLE_STEP (R127, R130). -/
theorem broadcast_cases (frame : Bytes) (now : Time) (s : State) :
    ((s.configureRadio frame).1 = .fail ∧
      broadcast frame now s = (s.configureRadio frame).2.raise .radioConfigFailure) ∨
    ((s.configureRadio frame).1 = .ok ∧ (s.configureRadio frame).2.startRadio.1 = .fail ∧
      broadcast frame now s = (s.configureRadio frame).2.startRadio.2.raise .radioStartFailure) ∨
    ((s.configureRadio frame).1 = .ok ∧ (s.configureRadio frame).2.startRadio.1 = .ok ∧
      broadcast frame now s = (s.configureRadio frame).2.startRadio.2.enter .advertising now) := by
  cases h1 : (s.configureRadio frame).1 with
  | fail => exact .inl ⟨rfl, by simp [broadcast, h1]⟩
  | ok =>
    cases h2 : (s.configureRadio frame).2.startRadio.1 with
    | fail => exact .inr (.inl ⟨rfl, rfl, by simp [broadcast, h1, h2]⟩)
    | ok => exact .inr (.inr ⟨rfl, rfl, by simp [broadcast, h1, h2]⟩)

/-- Everything the body of a TICK can do when it ends well: the seven rows of R123, failures in one. -/
theorem tickBody_cases (now : Time) (s t : State) (h : tickBody now s = .ok t) :
    (s.advState = .idle ∧ s.qlock = false ∧ s.queue = [] ∧ t = s) ∨
    (∃ cmd rest, s.advState = .idle ∧ s.qlock = false ∧ s.queue = cmd :: rest ∧ cmd.payload.length ≤ 24 ∧
      t = broadcast (formatAD s.cfg cmd.payload) now { s with queue := rest }) ∨
    (s.advState = .advertising ∧ s.durationOver now = true ∧ t = s.stopRadio.enter .gap now) ∨
    (s.advState = .advertising ∧ s.durationOver now = false ∧ t = s) ∨
    (s.advState = .gap ∧ s.gapOver now = true ∧ t = { s with advState := .idle }) ∨
    (s.advState = .gap ∧ s.gapOver now = false ∧ t = s) := by
  obtain ha | ha | ha : s.advState = .idle ∨ s.advState = .advertising ∨ s.advState = .gap := by
    cases s.advState <;> simp
  · simp only [tickBody, ha, idleStep] at h
    obtain ⟨p, hp, h⟩ := (bind_eq_ok _ _ _).mp h
    obtain ⟨hq, ⟨hn, rfl⟩ | ⟨cmd, rest, hn, rfl⟩⟩ := takeHead_cases s p hp
    · cases h; exact .inl ⟨ha, hq, hn, rfl⟩
    · obtain ⟨f, hf, h⟩ := (bind_eq_ok _ _ _).mp h
      obtain ⟨hl, rfl⟩ := advFrame_cases _ _ _ hf
      cases h; exact .inr (.inl ⟨cmd, rest, ha, hq, hn, hl, rfl⟩)
  · simp only [tickBody, ha, advertisingStep] at h
    rcases Bool.eq_false_or_eq_true (s.durationOver now) with hd | hd
    · rw [hd] at h; cases h; exact .inr (.inr (.inl ⟨ha, hd, rfl⟩))
    · rw [hd] at h; cases h; exact .inr (.inr (.inr (.inl ⟨ha, hd, rfl⟩)))
  · simp only [tickBody, ha, gapStep] at h
    rcases Bool.eq_false_or_eq_true (s.gapOver now) with hd | hd
    · rw [hd] at h; cases h; exact .inr (.inr (.inr (.inr (.inl ⟨ha, hd, rfl⟩))))
    · rw [hd] at h; cases h; exact .inr (.inr (.inr (.inr (.inr ⟨ha, hd, rfl⟩))))

theorem durationOver_iff (s : State) (now : Time) :
    s.durationOver now = true ↔
      s.cfg.advDuration.toNat ≤ (now.toNat + 2 ^ 32 - s.stateStartTime.toNat) % 2 ^ 32 := by
  have := s.stateStartTime.isLt
  simp only [State.durationOver, State.elapsed, decide_eq_true_eq, BitVec.le_def, BitVec.toNat_sub]
  rw [show 2 ^ 32 - s.stateStartTime.toNat + now.toNat = now.toNat + 2 ^ 32 - s.stateStartTime.toNat by omega]

theorem gapOver_iff (s : State) (now : Time) :
    s.gapOver now = true ↔
      s.cfg.advGap.toNat ≤ (now.toNat + 2 ^ 32 - s.stateStartTime.toNat) % 2 ^ 32 := by
  have := s.stateStartTime.isLt
  simp only [State.gapOver, State.elapsed, decide_eq_true_eq, BitVec.le_def, BitVec.toNat_sub]
  rw [show 2 ^ 32 - s.stateStartTime.toNat + now.toNat = now.toNat + 2 ^ 32 - s.stateStartTime.toNat by omega]

/-! ### exec -/

/-- Everything an operation that answers a next state can have done. -/
theorem exec_cases (i : Instr) (s t : State) (h : exec i s = .next t) :
    (i.op ∈ [Op.rev8, .rev16, .byterev, .crc16, .whInit, .whEncode, .rfBuild, .rfPrepare, .lvMap, .advFrame] ∧
      ∃ (u : Units) (r : Result), t = { s with units := u, results := s.results ++ [r] } ∧
        (s.units.buf.wf → u.buf.wf)) ∨
    ((i.op = .cmdEncode ∨ i.op = .slcFrame) ∧
      ∃ (u : Units) (r : Result), t = { s with seq := seqNext s.seq, units := u, results := s.results ++ [r] } ∧
        u.buf = Buf.discarded) ∨
    (∃ lightId isOn x r g b s1, i = .lightWrite lightId isOn x r g b ∧
      lightWrite lightId isOn x r g b s = .ok s1 ∧ t = s1.answer .nothing) ∨
    (∃ lightId payload s1, i = .qEnqueue lightId payload ∧ enqueue lightId payload s = .ok s1 ∧
      t = s1.answer .nothing) ∨
    (i = .qClear ∧ s.qlock = false ∧ t = { s with queue := [], results := s.results ++ [.nothing] }) ∨
    (∃ now s1, i = .tick now ∧ s.tickInProgress = none ∧ tickBody now s = .ok s1 ∧ t = s1.answer .nothing) := by
  cases i with
  | rev8 b => cases h; exact .inl ⟨by simp [Instr.op], s.units, _, rfl, id⟩
  | rev16 b => cases h; exact .inl ⟨by simp [Instr.op], s.units, _, rfl, id⟩
  | byterev str => cases h; exact .inl ⟨by simp [Instr.op], s.units, _, rfl, id⟩
  | crc16 a d => cases h; exact .inl ⟨by simp [Instr.op], _, _, rfl, id⟩
  | whInit seed => cases h; exact .inl ⟨by simp [Instr.op], _, _, rfl, id⟩
  | whEncode st buf => cases h; exact .inl ⟨by simp [Instr.op], _, _, rfl, id⟩
  | rfBuild a d =>
    obtain ⟨b, hb, hwf, -⟩ := rfBuild_eq s.cfg.engine a d s.units
    simp only [exec, execRfBuild, hb] at h
    cases h; exact .inl ⟨by simp [Instr.op], _, _, rfl, fun _ => hwf⟩
  | rfPrepare a d =>
    obtain ⟨w, hw⟩ := rfPrepare_eq s.cfg.engine a d s.units
    simp only [exec, execRfPrepare, hw] at h
    cases h; exact .inl ⟨by simp [Instr.op], _, _, rfl, fun _ => Buf.wf_discarded⟩
  | cmdEncode k l body f =>
    obtain ⟨u, hu, hd⟩ := cmdEncode_eq k l body f s
    simp only [exec, execCmdEncode, hu] at h
    cases h; exact .inr (.inl ⟨.inl rfl, u, _, rfl, hd⟩)
  | lvMap isOn x r g b =>
    obtain ⟨d, -, h⟩ := (bind_eq_ok _ _ _).mp ((conclude_eq_next _ _).mp h)
    cases h; exact .inl ⟨by simp [Instr.op], s.units, _, rfl, id⟩
  | slcFrame l d =>
    obtain ⟨p, hp, h⟩ := (bind_eq_ok _ _ _).mp ((conclude_eq_next _ _).mp h)
    obtain ⟨-, -, u, hu, hd⟩ := slcFrame_cases l d s p hp
    cases h; exact .inr (.inl ⟨.inr rfl, u, .bytes p.1, by rw [hu]; rfl, hd⟩)
  | lightWrite l isOn x r g b =>
    obtain ⟨s1, hs, h⟩ := (bind_eq_ok _ _ _).mp ((conclude_eq_next _ _).mp h)
    cases h; exact .inr (.inr (.inl ⟨l, isOn, x, r, g, b, s1, rfl, hs, rfl⟩))
  | qEnqueue l p =>
    obtain ⟨s1, hs, h⟩ := (bind_eq_ok _ _ _).mp ((conclude_eq_next _ _).mp h)
    cases h; exact .inr (.inr (.inr (.inl ⟨l, p, s1, rfl, hs, rfl⟩)))
  | qClear =>
    obtain ⟨s1, hs, h⟩ := (bind_eq_ok _ _ _).mp ((conclude_eq_next _ _).mp h)
    rcases Bool.eq_false_or_eq_true s.qlock with hq | hq
    · simp [clearQueue, hq] at hs
    · rw [clearQueue_eq s hq] at hs; cases hs; cases h
      exact .inr (.inr (.inr (.inr (.inl ⟨rfl, hq, rfl⟩))))
  | tick now =>
    cases ht : s.tickInProgress with
    | some a => simp [exec, execTick, ht] at h
    | none =>
      simp only [exec, execTick, ht] at h
      obtain ⟨s1, hs, h⟩ := (bind_eq_ok _ _ _).mp ((conclude_eq_next _ _).mp h)
      cases h; exact .inr (.inr (.inr (.inr (.inr ⟨now, s1, rfl, rfl, hs, rfl⟩))))
  | advFrame p =>
    obtain ⟨d, -, h⟩ := (bind_eq_ok _ _ _).mp ((conclude_eq_next _ _).mp h)
    cases h; exact .inl ⟨by simp [Instr.op], s.units, _, rfl, id⟩

end Sys2Proof.Machine
end

