-- ==== Sys2Proof/Laws/PerInstr.lean ====
section
/-! SUPPORT. The family of lemmas by instruction: the request an operation is encoded as has the select code and the
operand types of its row of spec/30_encoding.md R46, and the decoder's table gives the operation back from them. -/

namespace Sys2Proof.Laws.Row

/-- R46: an operation's request fits its row. -/
def Statement (i : Instr) : Prop :=
  Op.ofCode (encode i).op = i.op ∧ (encode i).args.map Operand.type = i.op.operandTypes ∧
    build i.op (encode i).args = some i

theorem rev8 (b : Byte) : Statement (.rev8 b) := ⟨rfl, rfl, rfl⟩
theorem rev16 (h : Half) : Statement (.rev16 h) := ⟨rfl, rfl, rfl⟩
theorem byterev (str : Bytes) : Statement (.byterev str) := ⟨rfl, rfl, rfl⟩
theorem crc16 (address data : Bytes) : Statement (.crc16 address data) := ⟨rfl, rfl, rfl⟩
theorem whInit (seed : Byte) : Statement (.whInit seed) := ⟨rfl, rfl, rfl⟩
theorem whEncode (state : WhState) (buffer : Bytes) : Statement (.whEncode state buffer) := ⟨rfl, rfl, rfl⟩
theorem rfBuild (address data : Bytes) : Statement (.rfBuild address data) := ⟨rfl, rfl, rfl⟩
theorem rfPrepare (address data : Bytes) : Statement (.rfPrepare address data) := ⟨rfl, rfl, rfl⟩
theorem cmdEncode (kind : Kind) (lightId : LightId) (body : Bytes) (forward : Bool) : Statement (.cmdEncode kind lightId body forward) := ⟨rfl, rfl, rfl⟩
theorem lvMap (isOn : Bool) (brightness r g b : Ratio) : Statement (.lvMap isOn brightness r g b) := ⟨rfl, rfl, rfl⟩
theorem slcFrame (lightId : LightId) (lightData : Bytes) : Statement (.slcFrame lightId lightData) := ⟨rfl, rfl, rfl⟩
theorem lightWrite (lightId : LightId) (isOn : Bool) (brightness r g b : Ratio) : Statement (.lightWrite lightId isOn brightness r g b) := ⟨rfl, rfl, rfl⟩
theorem qEnqueue (lightId : LightId) (payload : Bytes) : Statement (.qEnqueue lightId payload) := ⟨rfl, rfl, rfl⟩
theorem qClear : Statement .qClear := ⟨rfl, rfl, rfl⟩
theorem tick (now : Time) : Statement (.tick now) := ⟨rfl, rfl, rfl⟩
theorem advFrame (payload : Bytes) : Statement (.advFrame payload) := ⟨rfl, rfl, rfl⟩

end Sys2Proof.Laws.Row
end

