-- ==== Sys2Proof/Laws/Step.lean ====
section
/-! SUPPORT. The host port: for each of its moves, and for a step, everything it can have done when it answers a next
state. -/

namespace Sys2Proof.Machine

/-- Everything the first atomic action of a TICK can do when it ends well. -/
theorem startTick_cases (context : Nat) (now : Time) (s t : State) (h : startTick context now s = .ok t) :
    s.tickInProgress = none ∧
      ((s.advState = .idle ∧ s.qlock = false ∧ s.queue = [] ∧ t = s.answer .nothing) ∨
       (∃ cmd rest, s.advState = .idle ∧ s.qlock = false ∧ s.queue = cmd :: rest ∧ cmd.payload.length ≤ 24 ∧
         t = { s with queue := rest, tickInProgress := some ⟨context, .configure now (formatAD s.cfg cmd.payload)⟩ }) ∨
       (s.advState = .advertising ∧ s.durationOver now = true ∧
         t = { s.stopRadio with tickInProgress := some ⟨context, .setState .gap now⟩ }) ∨
       (s.advState = .advertising ∧ s.durationOver now = false ∧ t = s.answer .nothing) ∨
       (s.advState = .gap ∧ s.gapOver now = true ∧ t = ({ s with advState := .idle } : State).answer .nothing) ∨
       (s.advState = .gap ∧ s.gapOver now = false ∧ t = s.answer .nothing)) := by
  unfold startTick at h
  cases htip : s.tickInProgress with
  | some a => simp [htip] at h
  | none =>
    refine ⟨rfl, ?_⟩
    simp only [htip] at h
    obtain ha | ha | ha : s.advState = .idle ∨ s.advState = .advertising ∨ s.advState = .gap := by
      cases s.advState <;> simp
    · simp only [ha] at h
      obtain ⟨p, hp, h⟩ := (bind_eq_ok _ _ _).mp h
      obtain ⟨hq, ⟨hn, rfl⟩ | ⟨cmd, rest, hn, rfl⟩⟩ := takeHead_cases s p hp
      · cases h; exact .inl ⟨ha, hq, hn, rfl⟩
      · obtain ⟨f, hf, h⟩ := (bind_eq_ok _ _ _).mp h
        obtain ⟨hl, rfl⟩ := advFrame_cases _ _ _ hf
        cases h; exact .inr (.inl ⟨cmd, rest, ha, hq, hn, hl, rfl⟩)
    · simp only [ha] at h
      rcases Bool.eq_false_or_eq_true (s.durationOver now) with hd | hd
      · rw [hd] at h; cases h; exact .inr (.inr (.inl ⟨ha, hd, rfl⟩))
      · rw [hd] at h; cases h; exact .inr (.inr (.inr (.inl ⟨ha, hd, rfl⟩)))
    · simp only [ha, gapStep] at h
      rcases Bool.eq_false_or_eq_true (s.gapOver now) with hd | hd
      · rw [hd] at h; cases h; exact .inr (.inr (.inr (.inr (.inl ⟨ha, hd, by rw [← htip]; rfl⟩))))
      · rw [hd] at h; cases h; exact .inr (.inr (.inr (.inr (.inr ⟨ha, hd, rfl⟩))))

/-- Everything the next atomic action of a TICK in progress can do. -/
theorem runTick_cases (p : PendingTick) (s : State) :
    (∃ now frame, p.activity = .configure now frame ∧
      (((s.configureRadio frame).1 = .fail ∧ runTick p s =
          ({ (s.configureRadio frame).2.raise .radioConfigFailure with tickInProgress := none } : State).answer
            .nothing) ∨
       ((s.configureRadio frame).1 = .ok ∧ runTick p s =
          { (s.configureRadio frame).2 with tickInProgress := some ⟨p.context, .startRadio now⟩ }))) ∨
    (∃ now, p.activity = .startRadio now ∧
      ((s.startRadio.1 = .fail ∧ runTick p s =
          ({ s.startRadio.2.raise .radioStartFailure with tickInProgress := none } : State).answer .nothing) ∨
       (s.startRadio.1 = .ok ∧ runTick p s =
          { s.startRadio.2 with tickInProgress := some ⟨p.context, .setState .advertising now⟩ }))) ∨
    (∃ target now, p.activity = .setState target now ∧
      runTick p s = { s with advState := target, tickInProgress := some ⟨p.context, .setTime now⟩ }) ∨
    (∃ now, p.activity = .setTime now ∧
      runTick p s = ({ s with stateStartTime := now, tickInProgress := none } : State).answer .nothing) := by
  obtain ⟨context, activity⟩ := p
  cases activity with
  | configure now frame =>
    refine .inl ⟨now, frame, rfl, ?_⟩
    cases h1 : (s.configureRadio frame).1 <;> simp [runTick, h1]
  | startRadio now =>
    refine .inr (.inl ⟨now, rfl, ?_⟩)
    cases h1 : s.startRadio.1 <;> simp [runTick, h1]
  | setState target now => exact .inr (.inr (.inl ⟨target, now, rfl, rfl⟩))
  | setTime now => exact .inr (.inr (.inr ⟨now, rfl, rfl⟩))

/-- A resume of the TICK runs its next atomic action, and does nothing when there is none. -/
theorem resumeTick_cases (s : State) :
    (s.tickInProgress = none ∧ resumeTick s = s) ∨
    (∃ p, s.tickInProgress = some p ∧ resumeTick s = runTick p s) := by
  unfold resumeTick
  cases h : s.tickInProgress with
  | none => exact .inl ⟨rfl, rfl⟩
  | some p => exact .inr ⟨p, rfl, rfl⟩

/-- Everything the first atomic action of a LIGHT_WRITE can do when it ends well. -/
theorem startWrite_cases (context : Nat) (lightId : LightId) (isOn : Bool) (x r g b : Ratio) (s t : State)
    (h : startWrite context lightId isOn x r g b s = .ok t) :
    (s.cfg.isBound lightId = false ∧ t = (s.raise (.missingController lightId)).answer .nothing) ∨
    (s.cfg.isBound lightId = true ∧ ∃ (payload : Bytes) (u : Units), u.buf = Buf.discarded ∧
      lightEncode lightId isOn x r g b s = .ok (payload, { s with seq := seqNext s.seq, units := u }) ∧
      t = { s with
        seq := seqNext s.seq
        units := u
        writesInProgress := s.writesInProgress ++ [⟨context, lightId, payload⟩] }) := by
  unfold startWrite at h
  cases hb : s.cfg.isBound lightId with
  | false => rw [hb] at h; cases h; exact .inl ⟨rfl, rfl⟩
  | true =>
    rw [hb] at h
    obtain ⟨p, hp, h⟩ := (bind_eq_ok _ _ _).mp h
    obtain ⟨u, hu, hd⟩ := lightEncode_cases _ _ _ _ _ _ _ _ hp
    obtain ⟨payload, s1⟩ := p
    cases hu; cases h
    exact .inr ⟨rfl, payload, u, hd, hp, rfl⟩

/-- The LIGHT_WRITE found for a context is one in progress, and the context's. -/
theorem pendingWrite_eq_some (context : Nat) (s : State) (w : PendingWrite) (h : s.pendingWrite context = some w) :
    w ∈ s.writesInProgress ∧ w.context = context :=
  ⟨List.mem_of_find?_eq_some h, by simpa using List.find?_some h⟩

/-- Everything the second atomic action of a LIGHT_WRITE can do when it ends well. -/
theorem resumeWrite_cases (context : Nat) (s t : State) (h : resumeWrite context s = .ok t) :
    (s.pendingWrite context = none ∧ t = s) ∨
    (∃ w s1, s.pendingWrite context = some w ∧ enqueue w.lightId w.payload s = .ok s1 ∧
      t = ({ s1 with writesInProgress := s1.writesInProgress.erase w } : State).answer .nothing) := by
  unfold resumeWrite at h
  cases hw : s.pendingWrite context with
  | none => rw [hw] at h; cases h; exact .inl ⟨rfl, rfl⟩
  | some w =>
    rw [hw] at h
    obtain ⟨s1, hs, h⟩ := (bind_eq_ok _ _ _).mp h
    cases h; exact .inr ⟨w, s1, rfl, hs, rfl⟩

/-- A context with a request in progress issues none. -/
theorem start_of_busy (context : Nat) (q : Request) (s : State) (h : context ∈ s.contextsInProgress) :
    start context q s = .fault .contextBusy := by
  simp [start, h]

/-- Everything the start of a request can do when it ends well. -/
theorem start_cases (context : Nat) (q : Request) (s t : State) (h : start context q s = .next t) :
    context ∉ s.contextsInProgress ∧ ∃ i, decode q = .ok i ∧
      ((∃ now, i = .tick now ∧ startTick context now s = .ok t) ∨
       (∃ lightId isOn x r g b, i = .lightWrite lightId isOn x r g b ∧
         startWrite context lightId isOn x r g b s = .ok t) ∨
       (exec i s = .next t ∧ i.op ≠ .tick ∧ i.op ≠ .lightWrite)) := by
  by_cases hc : context ∈ s.contextsInProgress
  · rw [start_of_busy _ _ _ hc] at h; cases h
  · refine ⟨hc, ?_⟩
    simp only [start, hc, if_false] at h
    cases hd : decode q with
    | error e => simp [hd] at h
    | ok i =>
      refine ⟨i, rfl, ?_⟩
      simp only [hd] at h
      cases i
      case tick now => exact .inl ⟨now, rfl, (conclude_eq_next _ _).mp h⟩
      case lightWrite l on x r g b => exact .inr (.inl ⟨l, on, x, r, g, b, rfl, (conclude_eq_next _ _).mp h⟩)
      all_goals exact .inr (.inr ⟨h, by simp [Instr.op], by simp [Instr.op]⟩)

/-- Everything a step without a move can do when it ends well: the next atomic action of what is in progress. -/
theorem drain_cases (s t : State) (h : drain s = .next t) :
    (s.tickInProgress = none ∧ s.writesInProgress = [] ∧ t = s) ∨
    (s.tickInProgress ≠ none ∧ t = resumeTick s) ∨
    (s.tickInProgress = none ∧ ∃ w ws, s.writesInProgress = w :: ws ∧ resumeWrite w.context s = .ok t) := by
  unfold drain at h
  cases ht : s.tickInProgress with
  | some p => rw [ht] at h; cases h; exact .inr (.inl ⟨by simp, by simp [resumeTick, ht]⟩)
  | none =>
    rw [ht] at h
    cases hw : s.writesInProgress with
    | nil => rw [hw] at h; cases h; exact .inl ⟨rfl, rfl, rfl⟩
    | cons w ws =>
      rw [hw] at h
      exact .inr (.inr ⟨rfl, w, ws, rfl, (conclude_eq_next _ _).mp h⟩)

/-- Everything a step that answers a next state can have done: one move's work, from the state with the move taken off
the port. A step that resumes a request does so by a move, or because no move is left. -/
theorem step_cases (s t : State) (h : step s = .next t) :
    (s.host = [] ∧ s.tickInProgress = none ∧ s.writesInProgress = [] ∧ t = s) ∨
    ∃ rest,
      (∃ q i, s.host = .request q :: rest ∧ decode q = .ok i ∧ exec i { s with host := rest } = .next t) ∨
      (∃ context q, s.host = .start context q :: rest ∧ start context q { s with host := rest } = .next t) ∨
      ((s.host = .resumeTick :: rest ∨ (s.host = [] ∧ rest = [])) ∧ t = resumeTick { s with host := rest }) ∨
      (∃ context, (s.host = .resumeWrite context :: rest ∨ (s.host = [] ∧ rest = [])) ∧
        resumeWrite context { s with host := rest } = .ok t) ∨
      (∃ lightId, s.host = .setupLight lightId :: rest ∧ t = setupLight lightId { s with host := rest }) := by
  unfold step stepHost at h
  cases hh : s.host with
  | nil =>
    rw [hh] at h
    have hs : ({ s with host := [] } : State) = s := by rw [← hh]
    obtain ⟨h1, h2, rfl⟩ | ⟨-, rfl⟩ | ⟨-, w, ws, -, hw⟩ := drain_cases s t h
    · exact .inl ⟨rfl, h1, h2, rfl⟩
    · exact .inr ⟨[], .inr (.inr (.inl ⟨.inr ⟨rfl, rfl⟩, by rw [hs]⟩))⟩
    · exact .inr ⟨[], .inr (.inr (.inr (.inl ⟨w.context, .inr ⟨rfl, rfl⟩, by rw [hs]; exact hw⟩)))⟩
  | cons a rest =>
    refine .inr ⟨rest, ?_⟩
    rw [hh] at h
    cases a with
    | request q =>
      cases hd : decode q with
      | error e => simp [runAction, serve, hd] at h
      | ok i =>
        simp only [runAction, serve, hd] at h
        exact .inl ⟨q, i, rfl, hd, h⟩
    | start context q => exact .inr (.inl ⟨context, q, rfl, h⟩)
    | resumeTick => cases h; exact .inr (.inr (.inl ⟨.inl rfl, rfl⟩))
    | resumeWrite context =>
      exact .inr (.inr (.inr (.inl ⟨context, .inl rfl, (conclude_eq_next _ _).mp h⟩)))
    | setupLight lightId => cases h; exact .inr (.inr (.inr (.inr ⟨lightId, rfl, rfl⟩)))

end Sys2Proof.Machine
end

