-- ==== Sys2Proof/Tests/Slice0.lean ====
section
/-! SUPPORT. Tests. Expected results come from spec/95_test_vectors.md (`V<n>`, `P<n>`), from the table of R46, or from
the rule named. The theorems `test_witness_<Name>` show a concrete state and operands that meet the hypotheses of
Obligations.<Name>. -/

open Sys2Proof Sys2Proof.Machine

namespace Sys2Proof.Tests

/-! ### Helpers -/

/-- The state an operation answers, if it answers one. -/
def after : Host.Outcome State Fault Refusal → Option State
  | .next t => some t
  | _ => none

/-- The refusal an operation ends in, if it does. -/
def refusal : Host.Outcome State Fault Refusal → Option Refusal
  | .refused r => some r
  | _ => none

/-- The fault an operation ends in, if it does. -/
def fault : Host.Outcome State Fault Refusal → Option Fault
  | .fault r => some r
  | _ => none

/-- The result record of an operation. -/
def result (i : Instr) (s : State) : Option Result := (after (exec i s)).bind (fun t => t.results.getLast?)

/-- The configuration of 95_test_vectors.md: P1 and P2. -/
def cfg1 : Config :=
  { Config.atReset with
    meshKey := ⟨0x5E, 0x36, 0x7B, 0xC4⟩
    advDuration := 50
    advGap := 10
    maxQueueSize := 4
    bound := [0x001, 0x2A5] }

/-- A start state with that configuration, one clock value and statuses scripted. -/
def s1 : State := { State.configured cfg1 with clockReads := [7], radioStatuses := [.ok, .ok] }

/-- The state of a scheduler vector: `(ADV_STATE, STATE_START_TIME, QUEUE)`. -/
def sched (st : AdvState) (t0 : Time) (q : List Command) (statuses : List RadioStatus) : State :=
  { State.configured cfg1 with advState := st, stateStartTime := t0, queue := q, radioStatuses := statuses }

/-- Two records to queue. -/
def cA : Command := ⟨[0xAA], 1, 0⟩
def cB : Command := ⟨[0xBB], 2, 0⟩

/-- One. -/
def one : Ratio := ⟨1, 1⟩

/-- Zero. -/
def zero : Ratio := ⟨0, 1⟩

/-! ### WellFormed: every check refuses an ill-formed term -/

theorem test_wf_lvMap_zero_denominator :
    (Instr.lvMap true ⟨1, 0⟩ one one one).wf = false ∧ (Instr.lvMap true one ⟨1, 0⟩ one one).wf = false ∧
    (Instr.lvMap true one one ⟨1, 0⟩ one).wf = false ∧ (Instr.lvMap true one one one ⟨0, 0⟩).wf = false ∧
    (Instr.lvMap true one one one one).wf = true := by decide

theorem test_wf_lightWrite_zero_denominator :
    (Instr.lightWrite 1 true ⟨1, 0⟩ one one one).wf = false ∧
    (Instr.lightWrite 1 true one ⟨1, 0⟩ one one).wf = false ∧
    (Instr.lightWrite 1 true one one ⟨1, 0⟩ one).wf = false ∧
    (Instr.lightWrite 1 true one one one ⟨0, 0⟩).wf = false ∧
    (Instr.lightWrite 1 true one one one one).wf = true := by decide

theorem test_decode_refuses_zero_denominator :
    decode ⟨0x9, [.bit false, .rational one, .rational ⟨1, 0⟩, .rational one, .rational one]⟩ =
      .error (.zeroDenominator .lvMap) ∧
    decode ⟨0xB, [.lightId 1, .bit true, .rational ⟨0, 0⟩, .rational one, .rational one, .rational one]⟩ =
      .error (.zeroDenominator .lightWrite) := by decide

/-! ### Decode: one request for each row of R46, the select code written bit by bit -/

theorem test_decode_rev8 : decode ⟨0b0000#4, [.byte 0x71]⟩ = .ok (.rev8 0x71) := by decide
theorem test_decode_rev16 : decode ⟨0b0001#4, [.half 0x1234]⟩ = .ok (.rev16 0x1234) := by decide
theorem test_decode_byterev : decode ⟨0b0010#4, [.bytes [1, 2]]⟩ = .ok (.byterev [1, 2]) := by decide
theorem test_decode_crc16 : decode ⟨0b0011#4, [.bytes [0xC1], .bytes [1, 2]]⟩ = .ok (.crc16 [0xC1] [1, 2]) := by decide
theorem test_decode_whInit : decode ⟨0b0100#4, [.byte 0x25]⟩ = .ok (.whInit 0x25) := by decide
theorem test_decode_whEncode : decode ⟨0b0101#4, [.whState ⟨true, true, false, false, true, false, true⟩, .bytes [9]]⟩ =
    .ok (.whEncode ⟨true, true, false, false, true, false, true⟩ [9]) := by decide
theorem test_decode_rfBuild : decode ⟨0b0110#4, [.bytes [0xC1], .bytes [1]]⟩ = .ok (.rfBuild [0xC1] [1]) := by decide
theorem test_decode_rfPrepare : decode ⟨0b0111#4, [.bytes [0xC1], .bytes [1]]⟩ = .ok (.rfPrepare [0xC1] [1]) := by decide
theorem test_decode_cmdEncode : decode ⟨0b1000#4, [.kind 5, .lightId 0x2A5, .bytes [1], .bit true]⟩ =
    .ok (.cmdEncode 5 0x2A5 [1] true) := by decide
theorem test_decode_lvMap :
    decode ⟨0b1001#4, [.bit true, .rational ⟨1, 2⟩, .rational ⟨1, 3⟩, .rational ⟨1, 4⟩, .rational ⟨1, 5⟩]⟩ =
    .ok (.lvMap true ⟨1, 2⟩ ⟨1, 3⟩ ⟨1, 4⟩ ⟨1, 5⟩) := by decide
theorem test_decode_slcFrame : decode ⟨0b1010#4, [.lightId 1, .bytes [0]]⟩ = .ok (.slcFrame 1 [0]) := by decide
theorem test_decode_lightWrite :
    decode ⟨0b1011#4, [.lightId 7, .bit true, .rational ⟨1, 2⟩, .rational ⟨1, 3⟩, .rational ⟨1, 4⟩, .rational ⟨1, 5⟩]⟩ =
    .ok (.lightWrite 7 true ⟨1, 2⟩ ⟨1, 3⟩ ⟨1, 4⟩ ⟨1, 5⟩) := by decide
theorem test_decode_qEnqueue : decode ⟨0b1100#4, [.lightId 9, .bytes [1]]⟩ = .ok (.qEnqueue 9 [1]) := by decide
theorem test_decode_qClear : decode ⟨0b1101#4, []⟩ = .ok .qClear := by decide
theorem test_decode_tick : decode ⟨0b1110#4, [.time 1000]⟩ = .ok (.tick 1000) := by decide
theorem test_decode_advFrame : decode ⟨0b1111#4, [.bytes [0xAA]]⟩ = .ok (.advFrame [0xAA]) := by decide

/-- A record with a field missing, a field too many, or a field of another type is refused by name. -/
theorem test_decode_refuses_record :
    decode ⟨0x0, []⟩ = .error (.operandRecord .rev8) ∧
    decode ⟨0x0, [.half 1]⟩ = .error (.operandRecord .rev8) ∧
    decode ⟨0x3, [.bytes [], .bytes [], .bytes []]⟩ = .error (.operandRecord .crc16) := by decide

/-- The sixteen words of spec/opcode_table.json. -/
theorem test_table_words :
    (List.range 16).map (fun w => (decodeTableWord 8 w).map Instr.op) =
      [some .rev8, some .rev16, some .byterev, some .crc16, some .whInit, some .whEncode, some .rfBuild,
        some .rfPrepare, some .cmdEncode, some .lvMap, some .slcFrame, some .lightWrite, some .qEnqueue,
        some .qClear, some .tick, some .advFrame] := by decide

/-- The first step after reset with a word placed runs that word's operation: TICK, on an empty queue, answers. -/
theorem test_step_after_reset :
    (after (step (State.reset.withFetchWord 8 0xE))).map (fun t => (t.results, t.host)) =
      some ([.nothing], []) := by decide +kernel

/-- LIGHT_WRITE after reset finds no bound controller (R139 with the reset value of log 3). -/
theorem test_step_lightWrite_after_reset :
    (after (step (State.reset.withFetchWord 8 0xB))).map (fun t => t.logTrace) =
      some [.missingController 0] := by decide +kernel

/-! ### Results -/

/-- V1. -/
theorem test_rev8 : result (.rev8 0x71) s1 = some (.byte 0x8E) ∧ result (.rev8 0x12) s1 = some (.byte 0x48) := by
  decide +kernel

/-- V2. -/
theorem test_rev16 : result (.rev16 0x1234) s1 = some (.half 0x2C48) := by decide +kernel

/-- V3. -/
theorem test_byterev : result (.byterev [0xC1, 0xC2, 0xC3]) s1 = some (.bytes [0xC3, 0xC2, 0xC1]) := by
  decide +kernel

/-- V12, V15: the operands are not exchangeable. -/
theorem test_crc16 :
    result (.crc16 [0xC1, 0xC2, 0xC3] [1, 2, 3]) s1 = some (.half 0x733B) ∧
    result (.crc16 [] [0xC1]) s1 = some (.half 0x27FD) ∧
    result (.crc16 [0xC1] []) s1 = some (.half 0x46EB) := by decide +kernel

/-- V14, V16. -/
theorem test_crc16_empty_and_check_value :
    result (.crc16 [] []) s1 = some (.half 0x0000) ∧
    result (.crc16 [] [0x31, 0x32, 0x33, 0x34, 0x35, 0x36, 0x37, 0x38, 0x39]) s1 = some (.half 0x906E) := by
  decide +kernel

/-- V21: seed bits 7 and 6 are ignored. -/
theorem test_whInit :
    result (.whInit 0xE5) s1 = some (.whState ⟨true, true, false, false, true, false, true⟩) := by decide +kernel

/-- V24. -/
theorem test_whEncode :
    result (.whEncode ⟨true, true, false, false, true, false, true⟩ [0xFF, 0xFF, 0x00, 0xA5]) s1 =
      some (.whBuffer ⟨true, false, true, false, true, false, true⟩ [0x72, 0x2D, 0x57, 0x04]) := by decide +kernel

/-- V50. -/
theorem test_rfBuild :
    result (.rfBuild [0xC1, 0xC2, 0xC3] [1, 2, 3]) s1 =
      some (.bytes [0, 0, 0, 0, 0, 0, 0, 0, 0, 0, 0, 0, 0, 0, 0, 0x8E, 0xF0, 0xAA, 0xC3, 0x43, 0x83, 1, 2, 3,
        0x3B, 0x73]) := by decide +kernel

/-- V51. -/
theorem test_rfPrepare :
    result (.rfPrepare [0xC1, 0xC2, 0xC3] [1, 2, 3]) s1 =
      some (.bytes [0x6D, 0xB6, 0x43, 0x68, 0x93, 0x1D, 0x52, 0x31, 0xDB, 0x81, 0xEB]) := by decide +kernel

/-- V53: an empty address. -/
theorem test_rfPrepare_no_address :
    result (.rfPrepare [] [0xAB]) s1 = some (.bytes [0x6D, 0xB6, 0x43, 0x00, 0x71, 0x75]) := by decide +kernel

/-- V34, third case. -/
theorem test_cmdEncode :
    result (.cmdEncode 5 0x123 [0x72, 0x23, 0xBF, 0x00, 0xFF, 0x00, 0x00, 0x00] true)
      { s1 with cfg := { cfg1 with meshKey := ⟨0x11, 0x22, 0x33, 0x44⟩ }, seq := 7 } =
      some (.bytes [0x6D, 0xB6, 0x43, 0x68, 0x93, 0x1D, 0xDC, 0x02, 0xE7, 0x11, 0xFB, 0x09, 0xA8, 0x8F, 0xD5, 0xDE,
        0x42, 0xE7, 0xF7, 0x9E]) := by decide +kernel

/-- V35: the wrap, also from the unreachable 255. -/
theorem test_cmdEncode_wrap :
    (after (exec (.cmdEncode 0 0 [] false) { s1 with seq := 254 })).map State.seq = some 1 ∧
    (after (exec (.cmdEncode 0 0 [] false) { s1 with seq := 255 })).map State.seq = some 1 ∧
    (after (exec (.cmdEncode 0 0 [] false) { s1 with seq := 253 })).map State.seq = some 254 := by decide +kernel

/-- V45, V46, V47. -/
theorem test_lvMap :
    result (.lvMap true ⟨126, 127⟩ zero one ⟨1, 2⟩) s1 = some (.bytes [0xFE, 0x7F, 0x00, 0xFF, 0x00, 0x00]) ∧
    result (.lvMap true ⟨3, 2⟩ zero zero one) s1 = some (.bytes [0xFF, 0xFF, 0x00, 0x00, 0x00, 0x00]) ∧
    result (.lvMap true one ⟨1, 1000⟩ zero zero) s1 = some (.bytes [0xFF, 0x00, 0x00, 0x00, 0x00, 0x00]) := by
  decide +kernel

/-- After V47: a channel above 1 is refused, off too by R48 (c) (log 18); off ignores the other operands. -/
theorem test_lvMap_channel_above_one :
    refusal (exec (.lvMap true one ⟨2, 1⟩ zero zero) s1) = some .channelAboveOne ∧
    refusal (exec (.lvMap false one ⟨2, 1⟩ zero zero) s1) = some .channelAboveOne ∧
    result (.lvMap false one one one one) s1 = some (.bytes [0x00]) := by decide +kernel

/-- V49, seventh line. -/
theorem test_slcFrame :
    result (.slcFrame 0x2A5 [0xBF, 0x00, 0xFF, 0x00, 0x00, 0x00]) s1 =
      some (.bytes [0x6D, 0xB6, 0x43, 0x68, 0x93, 0x1D, 0xDF, 0x05, 0x67, 0x15, 0xB4, 0x9B, 0xE0, 0x0F, 0x9A, 0xCA,
        0x0A, 0x67, 0x08, 0x13]) := by decide +kernel

/-- V49, second line (padded), and V48: 15 bytes are refused. -/
theorem test_slcFrame_padded :
    result (.slcFrame 0x001 [0x00]) { s1 with cfg := { cfg1 with slcPadLen := 12 } } =
      some (.bytes [0x6D, 0xB6, 0x43, 0x68, 0x93, 0x1D, 0xDD, 0x05, 0x67, 0xC9, 0xE4, 0x3F, 0x5F, 0x0F, 0x65, 0xCA,
        0x0A, 0x67, 0xAA, 0x63, 0x13, 0x0B, 0xF6, 0x55]) ∧
    refusal (exec (.slcFrame 1 (List.replicate 15 0)) s1) = some .lightDataTooLong := by decide +kernel

/-- P1, third request. -/
theorem test_lightWrite :
    (after (exec (.lightWrite 0x2A5 true ⟨1, 2⟩ one zero zero) { s1 with seq := 2 })).map
      (fun t => (t.queue, t.seq)) =
      some ([⟨[0x6D, 0xB6, 0x43, 0x68, 0x93, 0x1D, 0xDF, 0x07, 0x67, 0x13, 0xB4, 0x9B, 0xE0, 0x0F, 0x9A, 0xCA, 0x0A,
        0x67, 0x35, 0x1C], 7, 0⟩], 3) := by decide +kernel

/-- P4, fourth and fifth requests: a full queue spends the draw; an unbound light does not draw. -/
theorem test_lightWrite_full_and_unbound :
    (after (exec (.lightWrite 1 false zero zero zero zero) { s1 with queue := [cA, cA, cB, cB] })).map
      (fun t => (t.seq, t.logTrace, t.queue)) = some (1, [.queueFull 1], [cA, cA, cB, cB]) ∧
    (after (exec (.lightWrite 0x00B true one zero zero zero) s1)).map
      (fun t => (t.seq, t.logTrace, t.queue)) = some (0, [.missingController 0x00B], []) := by decide +kernel

/-- V78: the tail, and the oldest kept. -/
theorem test_qEnqueue :
    (after (exec (.qEnqueue 9 [0xBB]) { s1 with queue := [cA] })).map State.queue = some [cA, ⟨[0xBB], 7, 0⟩] ∧
    (after (exec (.qEnqueue 9 [0xCC]) { s1 with queue := [cA, cB, cA, cB] })).map
      (fun t => (t.queue, t.logTrace)) = some ([cA, cB, cA, cB], [.queueFull 9]) := by decide +kernel

/-- V79: the broadcast in flight is left alone. -/
theorem test_qClear :
    (after (exec .qClear (sched .advertising 1000 [cA, cB] []))).map
      (fun t => (t.queue, t.advState, t.stateStartTime, t.radioTrace)) = some ([], .advertising, 1000, []) := by
  decide +kernel

/-- V72, V74: the boundary of the duration, across the clock's wrap. -/
theorem test_tick_advertising :
    (after (exec (.tick 0x21) (sched .advertising 0xFFFFFFF0 [] [.ok]))).map State.advState = some .advertising ∧
    (after (exec (.tick 0x22) (sched .advertising 0xFFFFFFF0 [] [.ok]))).map
      (fun t => (t.advState, t.stateStartTime, t.radioTrace)) = some (.gap, 0x22, [.stop .ok]) ∧
    (after (exec (.tick 1060) (sched .gap 1050 [cB] []))).map
      (fun t => (t.advState, t.stateStartTime, t.queue)) = some (.idle, 1050, [cB]) := by decide +kernel

/-- V76: configure ok, start fail. -/
theorem test_tick_start_failure :
    (after (exec (.tick 100) (sched .idle 7 [cA, cB] [.ok, .fail]))).map
      (fun t => (t.advState, t.queue, t.logTrace, t.radioOn, t.radioData)) =
      some (.idle, [cB], [.radioStartFailure], false, [0x02, 0x01, 0x06, 0x04, 0xFF, 0xF0, 0xFF, 0xAA]) := by
  decide +kernel

/-- V62. -/
theorem test_advFrame :
    result (.advFrame [0xAA]) { s1 with cfg := { cfg1 with manufacturerId := 0x1234, advFlags := 0x1A } } =
      some (.bytes [0x02, 0x01, 0x1A, 0x04, 0xFF, 0x34, 0x12, 0xAA]) ∧
    refusal (exec (.advFrame (List.replicate 25 0)) s1) = some .advertisementTooLong := by decide +kernel

/-! ### Moves of two contexts -/

/-- A Q_ENQUEUE between the two radio calls of a TICK (R133). -/
theorem test_enqueue_during_tick :
    ((after (step { sched .idle 0 [cA] [.ok, .ok] with
        host := [.start 0 (encode (.tick 5)), .resumeTick, .request (encode (.qEnqueue 1 [0xBB])), .resumeTick],
        clockReads := [9] })).bind
      (fun t => (after (step t)).bind (fun t => (after (step t)).bind (fun t => after (step t))))).map
      (fun t => (t.queue, t.advState, t.tickInProgress, t.radioOn)) =
      some ([⟨[0xBB], 9, 0⟩], .idle, some ⟨0, .setState .advertising 5⟩, true) := by decide +kernel

/-- R173: with no move left a TICK in progress runs on, and it is not at rest before. -/
theorem test_drain :
    (after (step { sched .idle 0 [] [] with tickInProgress := some ⟨0, .setState .advertising 5⟩ })).map
      (fun t => (t.advState, t.tickInProgress)) = some (.advertising, some ⟨0, .setTime 5⟩) ∧
    (after (step { s1 with writesInProgress := [⟨3, 1, [0xAA]⟩] })).map
      (fun t => (t.queue, t.writesInProgress)) = some ([⟨[0xAA], 7, 0⟩], []) := by decide +kernel

/-- R6: a configured CRC_ROUND and WH_WIRING are the ones that run. CRC16 of one byte 00 folds 0xFFFF four times, and
a round configured to give 0 there leaves 0, whose reversed complement is FFFF. -/
theorem test_configured_engine :
    result (.crc16 [] [0x00]) { s1 with cfg := { cfg1 with crcRoundTable := [(0xFFFF, (0, 0))] } } = some (.half 0xFFFF) ∧
    result (.whInit 0x25) { s1 with cfg := { cfg1 with
      whInitTable := [(0x25, ⟨false, false, false, false, false, false, true⟩)] } } =
      some (.whState ⟨false, false, false, false, false, false, true⟩) := by decide +kernel

/-- A second TICK while one is in progress, and a second request of a context whose TICK or LIGHT_WRITE is (R40). -/
theorem test_races_fault :
    fault (exec (.tick 6) { s1 with tickInProgress := some ⟨0, .startRadio 5⟩ }) = some .tickOverlap ∧
    fault (start 0 (encode (.qEnqueue 1 [])) { s1 with tickInProgress := some ⟨0, .startRadio 5⟩ }) =
      some .contextBusy ∧
    fault (start 3 (encode .qClear) { s1 with writesInProgress := [⟨3, 1, []⟩] }) = some .contextBusy := by
  decide +kernel

/-! ### Witnesses: the hypotheses of the obligations can be met -/

theorem test_witness_DecodeOfEncodeIsTheOperation :
    (Instr.lightWrite 0x2A5 true ⟨1, 2⟩ one zero zero).wf = true := by decide

theorem test_witness_DecodeAcceptsOnlyEncodings :
    decode ⟨0x9, [.bit true, .rational ⟨1, 2⟩, .rational one, .rational zero, .rational zero]⟩ =
      .ok (.lvMap true ⟨1, 2⟩ one zero zero) := by decide

/-- One state for each clause. -/
theorem test_witness_StepRunsTheRequestedOperation :
    (({ s1 with host := [.request ⟨0xE, [.time 5]⟩] } : State).host = .request ⟨0xE, [.time 5]⟩ :: [] ∧
      decode ⟨0xE, [.time 5]⟩ = .ok (.tick 5)) ∧
    (({ s1 with host := [.start 2 ⟨0xD, []⟩] } : State).host = .start 2 ⟨0xD, []⟩ :: [] ∧
      2 ∉ ({ s1 with host := [.start 2 ⟨0xD, []⟩] } : State).contextsInProgress ∧ decode ⟨0xD, []⟩ = .ok .qClear ∧
      Instr.qClear.op ≠ .tick ∧ Instr.qClear.op ≠ .lightWrite) ∧
    (({ s1 with host := [.request ⟨0xE, []⟩] } : State).host = .request ⟨0xE, []⟩ :: [] ∧
      decode ⟨0xE, []⟩ = .error (.operandRecord .tick)) ∧
    ({ s1 with host := [.resumeTick] } : State).host = .resumeTick :: [] ∧
    ({ s1 with host := [.resumeWrite 3] } : State).host = .resumeWrite 3 :: [] ∧
    (s1.host = [] ∧ s1.tickInProgress = none ∧ s1.writesInProgress = []) ∧
    (({ s1 with tickInProgress := some ⟨0, .startRadio 5⟩ } : State).host = [] ∧
      ({ s1 with tickInProgress := some ⟨0, .startRadio 5⟩ } : State).tickInProgress ≠ none) ∧
    (({ s1 with writesInProgress := [⟨3, 1, []⟩] } : State).host = [] ∧
      ({ s1 with writesInProgress := [⟨3, 1, []⟩] } : State).tickInProgress = none ∧
      ({ s1 with writesInProgress := [⟨3, 1, []⟩] } : State).writesInProgress = ⟨3, 1, []⟩ :: []) := by decide

/-- The first and the last bit. -/
theorem test_witness_Rev8ReversesTheBits : (0 < 8 ∧ 7 < 8) ∧ (rev8 0x01).getLsbD 7 = (0x01 : Byte).getLsbD 0 := by
  decide

theorem test_witness_Rev16ReversesTheBits : (0 < 16 ∧ 15 < 16) ∧ (rev16 0x0001).getLsbD 15 = (1 : Half).getLsbD 0 := by
  decide

theorem test_witness_ByterevReversesTheOrder : 0 < ([1, 2, 3] : Bytes).length ∧ 2 < ([1, 2, 3] : Bytes).length := by
  decide

/-- The default round is configured, and a round that is not the default can be. -/
theorem test_witness_Crc16FoldsAddressThenData :
    s1.cfg.crcRoundTable = [] ∧ ({ cfg1 with crcRoundTable := [(0, (1, 2))] } : Config).crcRoundTable ≠ [] := by decide

theorem test_witness_CrcDetectsEveryTwoByteError :
    ((0x01, 0x02) : Byte × Byte) ≠ (0x02, 0x01) ∧ crc16 crcRound [] [1, 2] ≠ crc16 crcRound [] [2, 1] := by
  decide +kernel

theorem test_witness_WhInitLoadsTheSeed : s1.cfg.whInitTable = [] := by decide

theorem test_witness_WhEncodeAddsTheStream :
    0 < ([1, 2] : Bytes).length ∧ 1 < ([1, 2] : Bytes).length ∧ 0 < 8 ∧ 7 < 8 ∧ s1.cfg.whByteTable = [] := by decide

theorem test_witness_WhiteningHasPeriod127 :
    (⟨true, false, false, false, false, false, false⟩ : WhState) ≠ ⟨false, false, false, false, false, false, false⟩ ∧
    (⟨false, false, false, false, false, false, true⟩ : WhState) ≠ ⟨false, false, false, false, false, false, false⟩ ∧
    0 + 127 < 128 := by decide

theorem test_witness_WhiteningIsAnInvolutionAndLocal :
    ([1, 2, 3] : Bytes).length = ([9, 2, 3] : Bytes).length ∧ ([1, 2, 3] : Bytes).drop 1 = ([9, 2, 3] : Bytes).drop 1 := by
  decide

theorem test_witness_RfBuildLaysOutTheBuffer :
    0 < ([0xC1, 0xC2, 0xC3] : Bytes).length ∧ 2 < ([0xC1, 0xC2, 0xC3] : Bytes).length ∧ 0 < ([1] : Bytes).length := by
  decide

theorem test_witness_RfPrepareWhitensAndTrims :
    0 < (rfPayload s1.cfg.engine [0xC1] [1]).length ∧ 6 < (rfPayload s1.cfg.engine [0xC1] [1]).length ∧
    s1.cfg.whInitTable = [] ∧ s1.cfg.whByteTable = [] := by decide +kernel

theorem test_witness_CmdEncodeEmitsTheEncryptedFrame :
    0 < ([1, 2] : Bytes).length ∧ 1 < ([1, 2] : Bytes).length ∧ s1.cfg.whInitTable = [] ∧ s1.cfg.whByteTable = [] := by
  decide

theorem test_witness_SequenceValueReachesTwoFrameBytes :
    (0 ≠ 1 ∧ 0 ≠ 3) ∧ (2 ≠ 1 ∧ 2 ≠ 3) ∧ (4 ≠ 1 ∧ 4 ≠ 3) ∧ (0 : Byte) ≠ 254 := by decide

theorem test_witness_SequenceLaw :
    s1.seq = 0 ∧ (∀ i ∈ [Instr.cmdEncode 5 1 [] true], ∃ kind lightId body forward,
      i = .cmdEncode kind lightId body forward) ∧ [Instr.cmdEncode 5 1 [] true] ≠ [] :=
  ⟨rfl, fun i h => ⟨5, 1, [], true, by simpa using h⟩, by simp⟩

/-- An operation that draws and one that does not, whole and by its first atomic action. -/
theorem test_witness_OnlyTheEncoderDraws :
    (∃ t, exec (.cmdEncode 5 1 [] true) s1 = .next t) ∧ (∃ t, exec (.rev8 1) s1 = .next t) ∧
    (∃ t, step { s1 with host := [.start 0 (encode (.lightWrite 1 true one zero zero zero))] } = .next t) :=
  ⟨⟨_, rfl⟩, ⟨_, rfl⟩, ⟨_, rfl⟩⟩

/-- The smallest and the largest channel, and a brightness above 1. -/
theorem test_witness_LvMapOffIsOneZeroByte :
    (⟨3, 2⟩ : Ratio).den ≠ 0 ∧ zero.den ≠ 0 ∧ one.den ≠ 0 ∧ zero.num ≤ zero.den ∧ one.num ≤ one.den := by decide

/-- Both forms of the conclusion, and the largest channel. -/
theorem test_witness_LvMapOnQuantises :
    one.den ≠ 0 ∧ zero.den ≠ 0 ∧ one.num ≤ one.den ∧ zero.num ≤ zero.den ∧ (⟨3, 2⟩ : Ratio).den ≠ 0 := by decide

theorem test_witness_LvMapDependsOnTheNumbersOnly :
    ∀ p ∈ [((⟨1, 2⟩ : Ratio), (⟨2, 4⟩ : Ratio)), (one, ⟨3, 3⟩), (zero, ⟨0, 5⟩), (one, one)],
      p.1.den ≠ 0 ∧ p.2.den ≠ 0 ∧ p.1.num * p.2.den = p.2.num * p.1.den := by decide

theorem test_witness_SlcFrameIsAnEncodedSingleLightFrame :
    (List.replicate 14 0 : Bytes).length ≤ 14 ∧ ([] : Bytes).length ≤ 14 := by decide

theorem test_witness_OperandLimitsAreRefused :
    14 < (List.replicate 15 0 : Bytes).length ∧ one.den ≠ 0 ∧ (⟨256, 255⟩ : Ratio).den ≠ 0 ∧
    (⟨256, 255⟩ : Ratio).den < (⟨256, 255⟩ : Ratio).num ∧ (⟨1, 0⟩ : Ratio).den = 0 ∧
    (1 : LightId).extractLsb' 0 12 ∈ s1.cfg.bound := by decide

theorem test_witness_LightWriteIsMapThenFrameThenEnqueue :
    s1.cfg.isBound 1 = true ∧ s1.qlock = false ∧ one.den ≠ 0 ∧ zero.den ≠ 0 ∧ one.num ≤ one.den ∧
    zero.num ≤ zero.den := by decide

theorem test_witness_LightWriteToAnUnboundLight : (0x00B : LightId).extractLsb' 0 12 ∉ s1.cfg.bound := by decide

theorem test_witness_SetupReportsAnUnboundLight :
    (∃ s : State, s.host = [.setupLight 0x00B] ∧ (0x00B : LightId).extractLsb' 0 12 ∉ s.cfg.bound) ∧
    (∃ s : State, s.host = [.setupLight 1] ∧ (1 : LightId).extractLsb' 0 12 ∈ s.cfg.bound) :=
  ⟨⟨{ s1 with host := [.setupLight 0x00B] }, rfl, by decide⟩, ⟨{ s1 with host := [.setupLight 1] }, rfl, by decide⟩⟩

theorem test_witness_SingleLightPayloadsFitAnAdvertisement :
    ({ cfg1 with slcPadLen := 12 } : Config).slcPadLen ≤ 12 ∧
    lvMap true one zero zero zero = .ok [0xFF, 0, 0, 0, 127, 127] ∧
    (∃ p, slcFrame 1 [0xFF, 0, 0, 0, 127, 127] { s1 with cfg := { cfg1 with slcPadLen := 12 } } = .ok p) :=
  ⟨by decide, rfl, ⟨_, rfl⟩⟩

/-- With a scripted clock value, and with none. -/
theorem test_witness_QEnqueueAppendsAtTheTail :
    (s1.qlock = false ∧ s1.queue.length < s1.cfg.maxQueueSize ∧ s1.clockReads = [7]) ∧
    ((State.configured cfg1).qlock = false ∧ (State.configured cfg1).queue.length < cfg1.maxQueueSize ∧
      (State.configured cfg1).clockReads = []) := by decide

/-- A full queue, and a capacity of 0 (the reset configuration). -/
theorem test_witness_QEnqueueAtCapacityDropsTheNewest :
    ((sched .idle 0 [cA, cA, cB, cB] []).qlock = false ∧
      cfg1.maxQueueSize ≤ (sched .idle 0 [cA, cA, cB, cB] []).queue.length) ∧
    (State.reset.qlock = false ∧ State.reset.cfg.maxQueueSize ≤ State.reset.queue.length) := by decide

theorem test_witness_QueueRetainsTheOldest : s1.qlock = false ∧ s1.queue = [] := by decide

theorem test_witness_QClearEmptiesTheQueue : (sched .idle 0 [cA] []).qlock = false := by decide

theorem test_witness_AHeldLockStopsTheQueue :
    ({ s1 with qlock := true } : State).qlock = true ∧ ({ s1 with qlock := true } : State).tickInProgress = none ∧
    ({ s1 with qlock := true } : State).advState = .idle ∧ ({ s1 with qlock := true } : State).cfg.isBound 1 = true ∧
    one.den ≠ 0 ∧ one.num ≤ one.den := by decide

theorem test_witness_AdvFrameWrapsThePayload :
    ([] : Bytes).length ≤ 24 ∧ (List.replicate 24 0 : Bytes).length ≤ 24 ∧ 24 < (List.replicate 25 0 : Bytes).length := by
  decide

/-- Each of the four ways a step treats the queue. -/
theorem test_witness_QueueIsAFifo :
    (∃ t, step s1 = .next t) ∧
    (∃ t, step { s1 with host := [.request (encode (.qEnqueue 1 [0xAA]))] } = .next t) ∧
    (∃ t, step { s1 with host := [.request (encode (.tick 5))], queue := [cA] } = .next t) ∧
    (∃ t, step { s1 with host := [.start 0 (encode .qClear)], queue := [cA] } = .next t) :=
  ⟨⟨_, rfl⟩, ⟨_, rfl⟩, ⟨_, rfl⟩, ⟨_, rfl⟩⟩

theorem test_witness_TickInIdleWithEmptyQueue :
    s1.tickInProgress = none ∧ s1.qlock = false ∧ s1.advState = .idle ∧ s1.queue = [] := by decide

theorem test_witness_TickInIdleBroadcastsTheHead :
    (sched .idle 0 [cA, cB] []).tickInProgress = none ∧ (sched .idle 0 [cA, cB] []).qlock = false ∧
    (sched .idle 0 [cA, cB] []).advState = .idle ∧ (sched .idle 0 [cA, cB] []).queue = cA :: [cB] ∧
    cA.payload.length ≤ 24 := by decide

/-- Each pair of statuses that the clauses tell apart. -/
theorem test_witness_TickFollowsTheRadioStatuses :
    (sched .idle 0 [cA] [.ok, .ok]).radioStatuses = [.ok, .ok] ∧
    (sched .idle 0 [cA] [.ok, .fail]).radioStatuses = [.ok, .fail] ∧
    (sched .idle 0 [cA] [.fail, .ok]).radioStatuses = [.fail, .ok] ∧
    (sched .idle 0 [cA] [.ok, .ok]).tickInProgress = none ∧ (sched .idle 0 [cA] [.ok, .ok]).qlock = false ∧
    (sched .idle 0 [cA] [.ok, .ok]).advState = .idle ∧ (sched .idle 0 [cA] [.ok, .ok]).queue = cA :: [] ∧
    cA.payload.length ≤ 24 := by decide

/-- One millisecond before the duration is over, and when it is over; a status scripted, and none. -/
theorem test_witness_TickInAdvertising :
    (sched .advertising 1000 [] []).tickInProgress = none ∧ (sched .advertising 1000 [] []).advState = .advertising ∧
    (sched .advertising 1000 [] []).radioStatuses = [] ∧ (sched .advertising 1000 [] [.fail]).radioStatuses = .fail :: [] ∧
    cfg1.advDuration.toNat ≤ ((1050 : Time).toNat + 2 ^ 32 - (1000 : Time).toNat) % 2 ^ 32 ∧
    ((1049 : Time).toNat + 2 ^ 32 - (1000 : Time).toNat) % 2 ^ 32 < cfg1.advDuration.toNat := by decide

/-- One millisecond before the gap is over, and when it is over. -/
theorem test_witness_TickInGap :
    (sched .gap 1050 [] []).tickInProgress = none ∧ (sched .gap 1050 [] []).advState = .gap ∧
    cfg1.advGap.toNat ≤ ((1060 : Time).toNat + 2 ^ 32 - (1050 : Time).toNat) % 2 ^ 32 ∧
    ((1059 : Time).toNat + 2 ^ 32 - (1050 : Time).toNat) % 2 ^ 32 < cfg1.advGap.toNat := by decide

theorem test_witness_WhereATickStops :
    (sched .idle 0 [⟨List.replicate 25 0, 0, 0⟩] []).tickInProgress = none ∧
    (sched .idle 0 [⟨List.replicate 25 0, 0, 0⟩] []).qlock = false ∧
    (sched .idle 0 [⟨List.replicate 25 0, 0, 0⟩] []).advState = .idle ∧
    (sched .idle 0 [⟨List.replicate 25 0, 0, 0⟩] []).queue = ⟨List.replicate 25 0, 0, 0⟩ :: [] ∧
    24 < (List.replicate 25 0 : Bytes).length ∧
    (∃ s : State, s.tickInProgress = some ⟨0, .setTime 5⟩ ∧ s.host = .start 1 (encode (.tick 6)) :: [] ∧
      1 ∉ s.contextsInProgress) ∧
    (∃ s : State, s.tickInProgress = some ⟨0, .setTime 5⟩ ∧ s.host = .start 0 (encode .qClear) :: []) ∧
    (∃ s : State, ⟨3, 1, []⟩ ∈ s.writesInProgress ∧ s.host = .start 3 (encode .qClear) :: []) :=
  ⟨rfl, rfl, rfl, rfl, by decide,
    ⟨{ s1 with tickInProgress := some ⟨0, .setTime 5⟩, host := [.start 1 (encode (.tick 6))] }, rfl, rfl, by decide⟩,
    ⟨{ s1 with tickInProgress := some ⟨0, .setTime 5⟩, host := [.start 0 (encode .qClear)] }, rfl, rfl⟩,
    ⟨{ s1 with writesInProgress := [⟨3, 1, []⟩], host := [.start 3 (encode .qClear)] }, by decide, rfl⟩⟩

/-- Each of the three transitions, whole; the two writes of a TICK in progress, in states that stand in its row. -/
theorem test_witness_OnlyThreeTransitions :
    (∃ t, exec (.tick 5) (sched .idle 0 [cA] [.ok, .ok]) = .next t) ∧
    (∃ t, exec (.tick 1050) (sched .advertising 1000 [] [.ok]) = .next t) ∧
    (∃ t, exec (.tick 1060) (sched .gap 1050 [] []) = .next t) ∧
    (∃ s t : State, s.tickInProgress = some ⟨0, .setState .gap 1050⟩ ∧ s.TickShape ∧ step s = .next t) ∧
    (∃ s t : State, s.tickInProgress = some ⟨0, .setTime 5⟩ ∧ s.TickShape ∧ step s = .next t) :=
  ⟨⟨_, rfl⟩, ⟨_, rfl⟩, ⟨_, rfl⟩,
    ⟨{ sched .advertising 1000 [] [] with tickInProgress := some ⟨0, .setState .gap 1050⟩ }, _, rfl,
      by unfold State.TickShape; decide, rfl⟩,
    ⟨{ sched .advertising 1000 [] [] with tickInProgress := some ⟨0, .setTime 5⟩ }, _, rfl,
      by unfold State.TickShape; decide, rfl⟩⟩

/-- The three shapes of calls, and the four events; a step of a TICK in progress, which stands in its row. -/
theorem test_witness_CallsAndEventsOfOneOperation :
    (∃ t, exec (.tick 5) (sched .idle 0 [cA] [.fail]) = .next t) ∧
    (∃ t, exec (.tick 5) (sched .idle 0 [cA] [.ok, .fail]) = .next t) ∧
    (∃ t, exec (.tick 1050) (sched .advertising 1000 [] [.ok]) = .next t) ∧
    (∃ t, exec (.qEnqueue 1 []) State.reset = .next t) ∧
    (∃ t, exec (.lightWrite 0x00B true one one one one) s1 = .next t) ∧
    (∃ s t : State, s.tickInProgress = some ⟨0, .startRadio 5⟩ ∧ s.TickShape ∧ step s = .next t) :=
  ⟨⟨_, rfl⟩, ⟨_, rfl⟩, ⟨_, rfl⟩, ⟨_, rfl⟩, ⟨_, rfl⟩,
    ⟨{ s1 with tickInProgress := some ⟨0, .startRadio 5⟩ }, _, rfl, by unfold State.TickShape; decide, rfl⟩⟩

theorem test_witness_PureOperationsTouchNoPersistentState :
    (Instr.rev8 1).op ∈ [Op.rev8, .rev16, .byterev, .crc16, .whInit, .whEncode, .rfBuild, .rfPrepare, .lvMap, .advFrame] ∧
    (∃ t, exec (.rev8 1) s1 = .next t) := ⟨by decide, ⟨_, rfl⟩⟩

theorem test_witness_ConfigurationIsNeverWritten :
    ∃ t, step { s1 with host := [.request (encode (.lightWrite 1 true one zero zero zero))] } = .next t := ⟨_, rfl⟩

/-- The invariants hold with a TICK and a LIGHT_WRITE of two contexts in progress. -/
theorem test_witness_StepKeepsWhatTheBlockOwes :
    (s1.Owed ∧ ∃ t, step { s1 with host := [.request (encode (.qEnqueue 1 [0xAA]))] } = .next t) ∧
    ∃ s t : State, s.Owed ∧ s.OneRequestPerContext ∧ s.tickInProgress = some ⟨0, .startRadio 5⟩ ∧
      s.writesInProgress = [⟨1, 1, [0xAA]⟩] ∧ step s = .next t :=
  ⟨⟨⟨by decide, by decide, by decide⟩, ⟨_, rfl⟩⟩,
    ⟨{ s1 with
        tickInProgress := some ⟨0, .startRadio 5⟩
        writesInProgress := [⟨1, 1, [0xAA]⟩]
        host := [.resumeWrite 1] }, _, ⟨by decide, by decide, by decide⟩,
      by unfold State.OneRequestPerContext; decide, rfl, rfl, rfl⟩⟩

theorem test_witness_StepKeepsTheBufferInForm :
    s1.BufWf ∧ ∃ t, step { s1 with host := [.request (encode (.rfBuild [0xC1] [1]))] } = .next t :=
  ⟨Buf.wf_discarded, ⟨_, rfl⟩⟩

theorem test_witness_StepKeepsTheRadioWithTheScheduler :
    ∃ s t : State, s.StopsOk ∧ s.RadioFollows ∧ step s = .next t ∧ t.StopsOk :=
  ⟨{ sched .idle 0 [cA] [.ok, .ok] with host := [.request (encode (.tick 5))] }, _,
    by unfold State.StopsOk; decide, rfl, rfl, by unfold State.StopsOk; decide +kernel⟩

/-- A context with nothing in progress; a state with two requests in progress and no move left. -/
theorem test_witness_ATickInPiecesIsTheTick :
    0 ∉ (sched .idle 0 [cA] [.ok, .ok]).contextsInProgress ∧
    (∃ t, exec (.tick 5) (sched .idle 0 [cA] [.ok, .ok]) = .next t) ∧
    (∃ s : State, s.host = [] ∧ s.qlock = false ∧ s.tickInProgress ≠ none ∧ s.writesInProgress ≠ []) :=
  ⟨by decide, ⟨_, rfl⟩,
    ⟨{ s1 with tickInProgress := some ⟨0, .startRadio 5⟩, writesInProgress := [⟨1, 1, []⟩] }, rfl, rfl, by decide,
      by decide⟩⟩

/-- A bound light, and an unbound one. -/
theorem test_witness_ALightWriteInPiecesIsTheLightWrite :
    (Instr.lightWrite 1 true one zero zero zero).wf = true ∧ 0 ∉ s1.contextsInProgress ∧
    s1.cfg.isBound 1 = true ∧ s1.cfg.isBound 0x00B = false ∧
    (∃ t, exec (.lightWrite 1 true one zero zero zero) s1 = .next t) ∧
    ∃ t, exec (.lightWrite 0x00B true one zero zero zero) s1 = .next t :=
  ⟨by decide, by decide, by decide, by decide, ⟨_, rfl⟩, ⟨_, rfl⟩⟩

theorem test_witness_EnqueueCommutesWithATickInProgress :
    ({ s1 with tickInProgress := some ⟨0, .startRadio 5⟩ } : State).tickInProgress = some ⟨0, .startRadio 5⟩ ∧
    s1.qlock = false ∧ s1.queue.length < s1.cfg.maxQueueSize ∧ s1.clockReads ≠ [] := by decide

end Sys2Proof.Tests
end

section
/-! The bit and byte reversal operations (spec/40_bitrev.md R63, R65): what `exec` answers for each, the positions of the
byte reversal, and the two obligations assembled from them. -/

namespace Sys2Proof.Machine

/-! ### What the operations answer -/

theorem exec_rev8 (b : Byte) (s : State) : exec (.rev8 b) s = .next (s.answer (.byte (rev8 b))) := rfl

theorem exec_byterev (str : Bytes) (s : State) :
    exec (.byterev str) s = .next (s.answer (.bytes (byteRev str))) := rfl

/-! ### The byte reversal, by position -/

@[simp] theorem length_byteRev (str : Bytes) : (byteRev str).length = str.length :=
  List.length_reverse

theorem getElem?_byteRev (str : Bytes) (i : Nat) (h : i < str.length) :
    (byteRev str)[i]? = str[str.length - 1 - i]? :=
  List.getElem?_reverse h

/-! ### The obligations -/

/-- Settles O6: the answer is `rev8 b`, whose bits `getLsbD_rev8` gives one by one. -/
theorem rev8ReversesTheBits : Obligations.Rev8ReversesTheBits := by
  intro b s
  exact ⟨rev8 b, exec_rev8 b s, getLsbD_rev8 b⟩

/-- Settles O8: the answer is `byteRev str`, whose length and bytes the lemmas above give. -/
theorem byterevReversesTheOrder : Obligations.ByterevReversesTheOrder := by
  intro str s
  exact ⟨byteRev str, exec_byterev str s, length_byteRev str, getElem?_byteRev str⟩

end Sys2Proof.Machine
end

section
/-! The light value mapper (spec/45_light_mapper.md R104 to R108, R113): what `exec` answers for LV_MAP within the operand
limits, the three forms of its answer, and the source's examples read off them. -/

namespace Sys2Proof.Machine

/-! ### What the operation answers -/

/-- R104 with R47, R48 (c): within the operand limits LV_MAP answers the light data and changes nothing else. -/
theorem exec_lvMap_of_inLimits (isOn : Bool) (x r g b : Ratio) (s : State) (hx : x.den ≠ 0) (hr : r.den ≠ 0)
    (hg : g.den ≠ 0) (hb : b.den ≠ 0) (hr1 : r.num ≤ r.den) (hg1 : g.num ≤ g.den) (hb1 : b.num ≤ b.den) :
    exec (.lvMap isOn x r g b) s = .next (s.answer (.bytes (lightData isOn x r g b))) := by
  change execLvMap isOn x r g b s = _
  rw [execLvMap, lvMap_of_inLimits isOn x r g b hx hr hg hb hr1 hg1 hb1, bind_ok]
  rfl

/-! ### The three forms of the light data -/

/-- R107. -/
theorem lightData_off (x r g b : Ratio) : lightData false x r g b = [0x00] := rfl

/-- R108: the warm-white form, all channels zero. -/
theorem lightData_on_of_noColour (x r g b : Ratio) (h : (r.isZero && g.isZero && b.isZero) = true) :
    lightData true x r g b = [brightnessByte x, 0x00, 0x00, 0x00, 0x7F, 0x7F] := if_pos h

/-- R108: the BRG form, some channel not zero. -/
theorem lightData_on_of_colour (x r g b : Ratio) (h : (r.isZero && g.isZero && b.isZero) = false) :
    lightData true x r g b = [brightnessByte x, channelByte b, channelByte r, channelByte g, 0x00, 0x00] :=
  if_neg (Bool.eq_false_iff.mp h)

/-! ### The quantised values of the examples (R105, R106) -/

theorem brightnessByte_one : brightnessByte ⟨1, 1⟩ = 0xFF := by decide

theorem brightnessByte_half : brightnessByte ⟨1, 2⟩ = BitVec.ofNat 8 (128 + 63) := by decide

theorem channelByte_zero : channelByte ⟨0, 1⟩ = 0 := by decide

theorem channelByte_one : channelByte ⟨1, 1⟩ = 255 := by decide

/-! ### The obligation -/

/-- Settles O29: every example lies within the operand limits, so its answer is the light data of its form, with the
quantised values above. -/
theorem mapperExamplesOfTheSource : Obligations.MapperExamplesOfTheSource := by
  intro s
  refine ⟨?off, ?warmWhite, ?halfRed⟩
  case off =>
    rw [exec_lvMap_of_inLimits, lightData_off]
    · rfl
    all_goals decide
  case warmWhite =>
    rw [exec_lvMap_of_inLimits, lightData_on_of_noColour, brightnessByte_one]
    · rfl
    all_goals decide
  case halfRed =>
    rw [exec_lvMap_of_inLimits, lightData_on_of_colour, brightnessByte_half, channelByte_zero, channelByte_one]
    · rfl
    all_goals decide

end Sys2Proof.Machine
end

section
/-! The queue operations (spec/46_queue_scheduler.md R119): what `exec` answers for Q_CLEAR while QLOCK is free. -/

namespace Sys2Proof.Machine

/-- R119: with QLOCK free Q_CLEAR answers the empty result on the state whose queue is emptied. -/
theorem exec_qClear_of_free (s : State) (hq : s.qlock = false) :
    exec .qClear s = .next (({ s with queue := [] } : State).answer .nothing) := by
  change execQClear s = _
  rw [execQClear, clearQueue_eq s hq, bind_ok]
  rfl

/-- Settles O39: the answer of `exec_qClear_of_free`, its result appended to the results of `s`, which the clearing
leaves as they are. -/
theorem qClearEmptiesTheQueue : Obligations.QClearEmptiesTheQueue := by
  intro s hq
  exact exec_qClear_of_free s hq

end Sys2Proof.Machine
end

section
/-! Requests (spec/30_encoding.md R45 to R48): the select codes, what the decoder accepts, and that a request and the
operation it asks for determine each other. -/

namespace Sys2Proof

/-! ### The select codes -/

/-- R46, one way: the code of the operation of a code. -/
@[simp] theorem Op.code_ofCode (c : BitVec 4) : (Op.ofCode c).code = c := by
  revert c
  decide

/-- R46, the other way: the operation of the code of an operation. -/
@[simp] theorem Op.ofCode_code (op : Op) : Op.ofCode op.code = op := by
  cases op <;> rfl

/-! ### The decoder's table -/

/-- The operation an operand record was read as has the row's name and that very record. -/
theorem build_eq_some (op : Op) (args : List Operand) (i : Instr) (h : build op args = some i) :
    i.op = op ∧ i.args = args := by
  cases op
  all_goals
    simp only [build] at h
    split at h
    · cases h
      exact ⟨rfl, rfl⟩
    · cases h

/-- The decoder accepts the records that fit their row and hold numbers only. -/
theorem decode_eq_ok_iff (q : Request) (i : Instr) :
    decode q = .ok i ↔ build (Op.ofCode q.op) q.args = some i ∧ i.wf = true := by
  unfold decode
  cases hb : build (Op.ofCode q.op) q.args with
  | none => simp
  | some j =>
    constructor
    · intro h
      dsimp only at h
      split at h
      · next hj =>
        cases h
        exact ⟨rfl, hj⟩
      · cases h
    · rintro ⟨h, hi⟩
      cases h
      exact if_pos hi

/-- Every operation's request fits its row. -/
theorem Laws.Row.all : ∀ i : Instr, Laws.Row.Statement i
  | .rev8 b => rev8 b
  | .rev16 h => rev16 h
  | .byterev str => byterev str
  | .crc16 address data => crc16 address data
  | .whInit seed => whInit seed
  | .whEncode state buffer => whEncode state buffer
  | .rfBuild address data => rfBuild address data
  | .rfPrepare address data => rfPrepare address data
  | .cmdEncode kind lightId body forward => cmdEncode kind lightId body forward
  | .lvMap isOn brightness r g b => lvMap isOn brightness r g b
  | .slcFrame lightId lightData => slcFrame lightId lightData
  | .lightWrite lightId isOn brightness r g b => lightWrite lightId isOn brightness r g b
  | .qEnqueue lightId payload => qEnqueue lightId payload
  | .qClear => qClear
  | .tick now => tick now
  | .advFrame payload => advFrame payload

theorem decode_encode (i : Instr) (h : i.wf = true) : decode (encode i) = .ok i := by
  obtain ⟨hcode, -, hbuild⟩ := Laws.Row.all i
  rw [decode_eq_ok_iff, hcode]
  exact ⟨hbuild, h⟩

theorem encode_of_decode (q : Request) (i : Instr) (h : decode q = .ok i) : i.wf = true ∧ encode i = q := by
  obtain ⟨hbuild, hwf⟩ := (decode_eq_ok_iff q i).mp h
  obtain ⟨hop, hargs⟩ := build_eq_some _ _ _ hbuild
  refine ⟨hwf, ?_⟩
  rw [encode, hop, hargs, Op.code_ofCode]

@[simp] theorem decode_encode_tick (now : Time) : decode (encode (.tick now)) = .ok (.tick now) :=
  decode_encode _ rfl

/-! ### The obligations -/

/-- Settles O2: an operation's request fits its row of the table, and a well-formed one passes the decoder's check. -/
theorem decodeOfEncodeIsTheOperation : Obligations.DecodeOfEncodeIsTheOperation :=
  decode_encode

/-- Settles O3: the decoder's table keeps the row's name and the record, and the row's name determines the code. -/
theorem decodeAcceptsOnlyEncodings : Obligations.DecodeAcceptsOnlyEncodings :=
  encode_of_decode

/-- Settles O1. -/
theorem selectCodesNameTheOperations : Obligations.SelectCodesNameTheOperations :=
  ⟨Op.code_ofCode, Op.ofCode_code⟩

/-- Settles O4: each request evaluates to its row's operation, and the last one to the refusal of its record. -/
theorem writtenRequestsDecode : Obligations.WrittenRequestsDecode :=
  ⟨rfl, rfl, rfl, rfl, rfl, rfl, rfl, rfl, rfl, rfl, rfl, rfl, rfl, rfl, rfl, rfl, rfl⟩

end Sys2Proof
end

section
/-! A TICK in pieces (spec/20_memory.md R40): what one resume of the TICK in progress does, and that the whole TICK is its
first atomic action followed by as many resumes as it has actions left. -/

namespace Sys2Proof.Machine

/-! ### The radio's calls do not look at what is in progress -/

/-- The status a call returns is that of the script and of the counter of free values. -/
theorem State.takeStatus_fst_congr (s t : State) (hr : s.radioStatuses = t.radioStatuses)
    (hf : s.freeIndex = t.freeIndex) : s.takeStatus.1 = t.takeStatus.1 := by
  unfold State.takeStatus
  rw [hr, hf]
  cases t.radioStatuses <;> rfl

theorem State.configureRadio_withTick (s : State) (p : Option PendingTick) (frame : Bytes) :
    ({ s with tickInProgress := p } : State).configureRadio frame =
      ((s.configureRadio frame).1, { (s.configureRadio frame).2 with tickInProgress := p }) := by
  simp only [State.configureRadio_eq]
  rw [State.takeStatus_fst_congr ({ s with tickInProgress := p }) s rfl rfl]

theorem State.startRadio_withTick (s : State) (p : Option PendingTick) :
    ({ s with tickInProgress := p } : State).startRadio =
      (s.startRadio.1, { s.startRadio.2 with tickInProgress := p }) := by
  simp only [State.startRadio_eq]
  rw [State.takeStatus_fst_congr ({ s with tickInProgress := p }) s rfl rfl]

/-- A state without a TICK in progress is itself with none set. -/
theorem State.withoutTick_eq (s : State) (h : s.tickInProgress = none) : { s with tickInProgress := none } = s := by
  rw [← h]

/-! ### One resume -/

theorem resumeTick_of_none (s : State) (h : s.tickInProgress = none) : resumeTick s = s := by
  simp only [resumeTick, h]

theorem resumeTick_of_some (s : State) (p : PendingTick) (h : s.tickInProgress = some p) :
    resumeTick s = runTick p s := by
  simp only [resumeTick, h]

theorem resumeTick_configure_of_fail (s : State) (context : Nat) (now : Time) (frame : Bytes)
    (hs : s.tickInProgress = none) (h : (s.configureRadio frame).1 = .fail) :
    resumeTick { s with tickInProgress := some ⟨context, .configure now frame⟩ } =
      ((s.configureRadio frame).2.raise .radioConfigFailure).answer .nothing := by
  have ht : ((s.configureRadio frame).2.raise .radioConfigFailure).tickInProgress = none := by simp [hs]
  simp only [resumeTick, runTick, State.configureRadio_withTick, h]
  exact congrArg (fun x : State => x.answer .nothing) (State.withoutTick_eq _ ht)

theorem resumeTick_configure_of_ok (s : State) (context : Nat) (now : Time) (frame : Bytes)
    (h : (s.configureRadio frame).1 = .ok) :
    resumeTick { s with tickInProgress := some ⟨context, .configure now frame⟩ } =
      { (s.configureRadio frame).2 with tickInProgress := some ⟨context, .startRadio now⟩ } := by
  simp only [resumeTick, runTick, State.configureRadio_withTick, h]

theorem resumeTick_start_of_fail (s : State) (context : Nat) (now : Time) (hs : s.tickInProgress = none)
    (h : s.startRadio.1 = .fail) :
    resumeTick { s with tickInProgress := some ⟨context, .startRadio now⟩ } =
      (s.startRadio.2.raise .radioStartFailure).answer .nothing := by
  have ht : (s.startRadio.2.raise .radioStartFailure).tickInProgress = none := by simp [hs]
  simp only [resumeTick, runTick, State.startRadio_withTick, h]
  exact congrArg (fun x : State => x.answer .nothing) (State.withoutTick_eq _ ht)

theorem resumeTick_start_of_ok (s : State) (context : Nat) (now : Time) (h : s.startRadio.1 = .ok) :
    resumeTick { s with tickInProgress := some ⟨context, .startRadio now⟩ } =
      { s.startRadio.2 with tickInProgress := some ⟨context, .setState .advertising now⟩ } := by
  simp only [resumeTick, runTick, State.startRadio_withTick, h]

/-! ### Running a TICK to its end -/

/-- `k` resumes lead from `s` to `t`, with the TICK in progress before each of them and not after the last. -/
def TickEnds (k : Nat) (s t : State) : Prop :=
  resumeTick^[k] s = t ∧ t.tickInProgress = none ∧ ∀ j, j < k → (resumeTick^[j] s).tickInProgress ≠ none

theorem TickEnds.zero (s : State) (h : s.tickInProgress = none) : TickEnds 0 s s :=
  ⟨rfl, h, fun _ hj => absurd hj (Nat.not_lt_zero _)⟩

theorem TickEnds.succ {k : Nat} {s s' t : State} (hp : s.tickInProgress ≠ none) (hs : resumeTick s = s')
    (h : TickEnds k s' t) : TickEnds (k + 1) s t := by
  subst hs
  obtain ⟨hk, ht, hj⟩ := h
  refine ⟨hk, ht, fun j hlt => ?_⟩
  cases j with
  | zero => exact hp
  | succ j => exact hj j (Nat.lt_of_succ_lt_succ hlt)

/-- The two writes of a transition, R127 and R128, and the answer. -/
theorem tickEnds_setState (s : State) (context : Nat) (target : AdvState) (now : Time) (hs : s.tickInProgress = none) :
    TickEnds 2 { s with tickInProgress := some ⟨context, .setState target now⟩ }
      ((s.enter target now).answer .nothing) := by
  refine .succ (by simp) rfl (.succ (Option.some_ne_none _) ?_ (.zero _ hs))
  exact congrArg (fun x : State => x.answer .nothing) (State.withoutTick_eq (s.enter target now) hs)

/-- The two radio calls of IDLE_STEP and what follows them, R127 and R130. -/
theorem tickEnds_configure (s : State) (context : Nat) (now : Time) (frame : Bytes) (hs : s.tickInProgress = none) :
    ∃ k, k ≤ 4 ∧ TickEnds k { s with tickInProgress := some ⟨context, .configure now frame⟩ }
      ((broadcast frame now s).answer .nothing) := by
  have hc : (s.configureRadio frame).2.tickInProgress = none := by simp [hs]
  obtain ⟨h1, hb⟩ | ⟨h1, h2, hb⟩ | ⟨h1, h2, hb⟩ := broadcast_cases frame now s
  · refine ⟨1, by omega, .succ (by simp) ?_ (.zero _ (by simp [hb, hs]))⟩
    rw [hb]
    exact resumeTick_configure_of_fail s context now frame hs h1
  · refine ⟨2, by omega, .succ (by simp) (resumeTick_configure_of_ok s context now frame h1)
      (.succ (by simp) ?_ (.zero _ (by simp [hb, hs])))⟩
    rw [hb]
    exact resumeTick_start_of_fail _ context now hc h2
  · refine ⟨4, by omega, .succ (by simp) (resumeTick_configure_of_ok s context now frame h1)
      (.succ (by simp) (resumeTick_start_of_ok _ context now h2) ?_)⟩
    rw [hb]
    exact tickEnds_setState _ context .advertising now (by simp [hs])

/-! ### The first atomic action -/

section
variable (context : Nat) (now : Time) (s : State) (hs : s.tickInProgress = none)
include hs

theorem startTick_of_idle_nil (ha : s.advState = .idle) (hq : s.qlock = false) (hn : s.queue = []) :
    startTick context now s = .ok (s.answer .nothing) := by
  simp only [startTick, hs, ha, takeHead_nil s hq hn, bind_ok]
  rfl

theorem startTick_of_idle_cons (cmd : Command) (rest : List Command) (ha : s.advState = .idle) (hq : s.qlock = false)
    (hn : s.queue = cmd :: rest) (hl : cmd.payload.length ≤ 24) :
    startTick context now s = .ok { s with
      queue := rest, tickInProgress := some ⟨context, .configure now (formatAD s.cfg cmd.payload)⟩ } := by
  simp only [startTick, hs, ha, takeHead_cons s cmd rest hq hn, advFrame_of_le _ _ hl, bind_ok]
  rfl

theorem startTick_of_advertising (ha : s.advState = .advertising) :
    startTick context now s = .ok (if s.durationOver now then
      { s.stopRadio with tickInProgress := some ⟨context, .setState .gap now⟩ } else s.answer .nothing) := by
  simp only [startTick, hs, ha]
  split <;> rfl

theorem startTick_of_gap (ha : s.advState = .gap) :
    startTick context now s = .ok ((gapStep now s).answer .nothing) := by
  simp only [startTick, hs, ha]
  rfl

end

/-- R40: the whole TICK is its first atomic action and then as many resumes as it has actions left, four at most. -/
theorem startTick_of_tickBody (context : Nat) (now : Time) (s t : State) (hs : s.tickInProgress = none)
    (h : tickBody now s = .ok t) :
    ∃ s1 k, startTick context now s = .ok s1 ∧ k ≤ 4 ∧ TickEnds k s1 (t.answer .nothing) := by
  obtain ⟨ha, hq, hn, rfl⟩ | ⟨cmd, rest, ha, hq, hn, hl, rfl⟩ | ⟨ha, hd, rfl⟩ | ⟨ha, hd, rfl⟩ | ⟨ha, hd, rfl⟩ |
    ⟨ha, hd, rfl⟩ := tickBody_cases now s t h
  · exact ⟨_, 0, startTick_of_idle_nil context now t hs ha hq hn, by omega, .zero _ hs⟩
  · obtain ⟨k, hk, hends⟩ :=
      tickEnds_configure { s with queue := rest } context now (formatAD s.cfg cmd.payload) hs
    exact ⟨_, k, startTick_of_idle_cons context now s hs cmd rest ha hq hn hl, hk, hends⟩
  · refine ⟨_, 2, startTick_of_advertising context now s hs ha, by omega, ?_⟩
    rw [if_pos hd]
    exact tickEnds_setState s.stopRadio context .gap now (by simp [hs])
  · refine ⟨_, 0, startTick_of_advertising context now t hs ha, by omega, ?_⟩
    rw [hd]
    exact .zero _ hs
  · refine ⟨_, 0, startTick_of_gap context now s hs ha, by omega, ?_⟩
    rw [gapStep, if_pos hd]
    exact .zero _ hs
  · refine ⟨_, 0, startTick_of_gap context now t hs ha, by omega, ?_⟩
    rw [gapStep, hd]
    exact .zero _ hs

end Sys2Proof.Machine
end

section
/-! The elementary actions. Whatever a step does, whole operations included, is a chain of these; so an invariant that each
of them keeps is kept by every step. The invariants of spec/70_reset_and_hazards.md R174, spec/20_memory.md R30, R40, R44
and spec/46_queue_scheduler.md R123, R132 are settled by it. -/

namespace Sys2Proof.Machine

/-- The single changes of the machine's state that all operations and moves are made of. -/
inductive Elementary : State → State → Prop
  /-- A move is taken off the host port. -/
  | takeMove (s : State) (moves : List HostAction) : Elementary s { s with host := moves }
  /-- A result record is added (R45). -/
  | answer (s : State) (r : Result) : Elementary s (s.answer r)
  /-- An error event is logged (R135). -/
  | raise (s : State) (e : LogEvent) : Elementary s (s.raise e)
  /-- A pure operation leaves other values in the transient registers (R171). -/
  | compute (s : State) (u : Units) (h : s.units.buf.wf → u.buf.wf) : Elementary s { s with units := u }
  /-- CMD_ENCODE draws a sequence value (R95). -/
  | draw (s : State) (u : Units) (h : u.buf = Buf.discarded) : Elementary s { s with seq := seqNext s.seq, units := u }
  /-- Q_ENQUEUE with room (R117). -/
  | append (s : State) (payload : Bytes) (h : s.queue.length < s.cfg.maxQueueSize) :
      Elementary s { s.readClock.2 with queue := s.queue ++ [⟨payload, s.readClock.1, 0⟩] }
  /-- Q_CLEAR (R119). -/
  | clear (s : State) : Elementary s { s with queue := [] }
  /-- A TICK in Idle removes the head (R127). -/
  | beginBroadcast (s : State) (context : Nat) (now : Time) (cmd : Command) (rest : List Command)
      (hs : s.tickInProgress = none) (hc : context ∉ s.contextsInProgress) (ha : s.advState = .idle)
      (hq : s.queue = cmd :: rest) :
      Elementary s { s with
        queue := rest, tickInProgress := some ⟨context, .configure now (formatAD s.cfg cmd.payload)⟩ }
  /-- A TICK in Advertising stops the radio (R128). -/
  | beginStop (s : State) (context : Nat) (now : Time) (hs : s.tickInProgress = none)
      (hc : context ∉ s.contextsInProgress) (ha : s.advState = .advertising) (hd : s.durationOver now = true) :
      Elementary s { s.stopRadio with tickInProgress := some ⟨context, .setState .gap now⟩ }
  /-- A TICK in Gap returns to Idle (R129). -/
  | endGap (s : State) (hs : s.tickInProgress = none) (ha : s.advState = .gap) : Elementary s { s with advState := .idle }
  /-- The TICK in progress runs its next atomic action (R40). -/
  | continueTick (s : State) (p : PendingTick) (h : s.tickInProgress = some p) : Elementary s (runTick p s)
  /-- A LIGHT_WRITE is left with its Q_ENQUEUE (R42). -/
  | beginWrite (s : State) (w : PendingWrite) (h : w.context ∉ s.contextsInProgress) :
      Elementary s { s with writesInProgress := s.writesInProgress ++ [w] }
  /-- A LIGHT_WRITE in progress ends (R42). -/
  | endWrite (s : State) (w : PendingWrite) : Elementary s { s with writesInProgress := s.writesInProgress.erase w }

/-- A chain of elementary actions. -/
abbrev Chain : State → State → Prop := Relation.ReflTransGen Elementary

theorem Elementary.chain {s t : State} (h : Elementary s t) : Chain s t := .single h

/-! ### Every step is a chain -/

theorem enqueue_chain (lightId : LightId) (payload : Bytes) (s t : State) (h : enqueue lightId payload s = .ok t) :
    Chain s t := by
  obtain ⟨-, ⟨-, rfl⟩ | ⟨hroom, rfl⟩⟩ := enqueue_cases lightId payload s t h
  · exact (Elementary.raise s _).chain
  · exact (Elementary.append s payload hroom).chain

theorem startTick_chain (context : Nat) (now : Time) (s t : State) (hc : context ∉ s.contextsInProgress)
    (h : startTick context now s = .ok t) : Chain s t := by
  obtain ⟨hs, ⟨-, -, -, rfl⟩ | ⟨cmd, rest, ha, -, hq, -, rfl⟩ | ⟨ha, hd, rfl⟩ | ⟨-, -, rfl⟩ | ⟨ha, -, rfl⟩ |
    ⟨-, -, rfl⟩⟩ := startTick_cases context now s t h
  · exact (Elementary.answer s _).chain
  · exact (Elementary.beginBroadcast s context now cmd rest hs hc ha hq).chain
  · exact (Elementary.beginStop s context now hs hc ha hd).chain
  · exact (Elementary.answer s _).chain
  · exact (Elementary.endGap s hs ha).chain.tail (Elementary.answer _ _)
  · exact (Elementary.answer s _).chain

theorem resumeTick_chain (s : State) : Chain s (resumeTick s) := by
  obtain ⟨-, h⟩ | ⟨p, hp, h⟩ := resumeTick_cases s
  · rw [h]
  · rw [h]
    exact (Elementary.continueTick s p hp).chain

theorem resumeTick_iterate_chain (k : Nat) (s : State) : Chain s (resumeTick^[k] s) := by
  induction k generalizing s with
  | zero => exact .refl
  | succ k ih => exact (resumeTick_chain s).trans (ih (resumeTick s))

/-- There is always a context with nothing in progress. -/
theorem State.exists_idleContext (s : State) : ∃ context, context ∉ s.contextsInProgress := by
  obtain ⟨context, h⟩ := Infinite.exists_notMem_finset s.contextsInProgress.toFinset
  exact ⟨context, by simpa using h⟩

theorem tickBody_chain (now : Time) (s t : State) (hs : s.tickInProgress = none) (h : tickBody now s = .ok t) :
    Chain s (t.answer .nothing) := by
  obtain ⟨context, hc⟩ := s.exists_idleContext
  obtain ⟨s1, k, h1, -, hk, -, -⟩ := startTick_of_tickBody context now s t hs h
  rw [← hk]
  exact (startTick_chain context now s s1 hc h1).trans (resumeTick_iterate_chain k s1)

theorem lightWrite_chain (lightId : LightId) (isOn : Bool) (x r g b : Ratio) (s t : State)
    (h : lightWrite lightId isOn x r g b s = .ok t) : Chain s t := by
  obtain ⟨-, rfl⟩ | ⟨-, payload, u, hu, -, he⟩ := lightWrite_cases lightId isOn x r g b s t h
  · exact (Elementary.raise s _).chain
  · exact (Elementary.draw s u hu).chain.trans (enqueue_chain lightId payload _ t he)

theorem exec_chain (i : Instr) (s t : State) (h : exec i s = .next t) : Chain s t := by
  obtain ⟨-, u, r, rfl, hwf⟩ | ⟨-, u, r, rfl, hu⟩ | ⟨l, on, x, r, g, b, s1, -, h1, rfl⟩ | ⟨l, p, s1, -, h1, rfl⟩ |
    ⟨-, -, rfl⟩ | ⟨now, s1, -, hs, h1, rfl⟩ := exec_cases i s t h
  · exact (Elementary.compute s u hwf).chain.tail (Elementary.answer _ r)
  · exact (Elementary.draw s u hu).chain.tail (Elementary.answer _ r)
  · exact (lightWrite_chain l on x r g b s s1 h1).tail (Elementary.answer s1 _)
  · exact (enqueue_chain l p s s1 h1).tail (Elementary.answer s1 _)
  · exact (Elementary.clear s).chain.tail (Elementary.answer _ _)
  · exact tickBody_chain now s s1 hs h1

theorem startWrite_chain (context : Nat) (lightId : LightId) (isOn : Bool) (x r g b : Ratio) (s t : State)
    (hc : context ∉ s.contextsInProgress) (h : startWrite context lightId isOn x r g b s = .ok t) : Chain s t := by
  obtain ⟨-, rfl⟩ | ⟨-, payload, u, hu, -, rfl⟩ := startWrite_cases context lightId isOn x r g b s t h
  · exact (Elementary.raise s _).chain.tail (Elementary.answer _ _)
  · exact (Elementary.draw s u hu).chain.tail (Elementary.beginWrite _ ⟨context, lightId, payload⟩ hc)

theorem start_chain (context : Nat) (q : Request) (s t : State) (h : start context q s = .next t) : Chain s t := by
  obtain ⟨hc, i, -, ⟨now, -, h⟩ | ⟨l, on, x, r, g, b, -, h⟩ | ⟨h, -, -⟩⟩ := start_cases context q s t h
  · exact startTick_chain context now s t hc h
  · exact startWrite_chain context l on x r g b s t hc h
  · exact exec_chain i s t h

theorem resumeWrite_chain (context : Nat) (s t : State) (h : resumeWrite context s = .ok t) : Chain s t := by
  obtain ⟨-, rfl⟩ | ⟨w, s1, -, he, rfl⟩ := resumeWrite_cases context s t h
  · exact .refl
  · exact ((enqueue_chain _ _ s s1 he).tail (Elementary.endWrite s1 w)).tail (Elementary.answer _ _)

theorem setupLight_chain (lightId : LightId) (s : State) : Chain s (setupLight lightId s) := by
  unfold setupLight
  split
  · exact .refl
  · exact (Elementary.raise s _).chain

theorem step_chain (s t : State) (h : step s = .next t) : Chain s t := by
  obtain ⟨-, -, -, rfl⟩ | ⟨rest, h⟩ := step_cases s t h
  · exact .refl
  · refine (Elementary.takeMove s rest).chain.trans ?_
    obtain ⟨q, i, -, -, h⟩ | ⟨context, q, -, h⟩ | ⟨-, rfl⟩ | ⟨context, -, h⟩ | ⟨lightId, -, rfl⟩ := h
    · exact exec_chain i _ t h
    · exact start_chain context q _ t h
    · exact resumeTick_chain _
    · exact resumeWrite_chain context _ t h
    · exact setupLight_chain lightId _

/-- What every elementary action keeps every step keeps. -/
theorem step_keeps (P : State → Prop) (hP : ∀ s t, Elementary s t → P s → P t) (s t : State) (hs : P s)
    (h : step s = .next t) : P t := by
  have hc := step_chain s t h
  clear h
  induction hc with
  | refl => exact hs
  | tail _ h ih => exact hP _ _ h ih

/-! ### What an action of the TICK in progress leaves unchanged -/

/-- R40, R127, R128: the fields that no atomic action of a TICK in progress writes. -/
theorem runTick_frame (p : PendingTick) (s : State) :
    (runTick p s).cfg = s.cfg ∧ (runTick p s).seq = s.seq ∧ (runTick p s).queue = s.queue ∧
      (runTick p s).qlock = s.qlock ∧ (runTick p s).units = s.units ∧ (runTick p s).host = s.host ∧
      (runTick p s).clockReads = s.clockReads ∧ (runTick p s).writesInProgress = s.writesInProgress := by
  obtain ⟨now, f, -, ⟨-, h⟩ | ⟨-, h⟩⟩ | ⟨now, -, ⟨-, h⟩ | ⟨-, h⟩⟩ | ⟨a, now, -, h⟩ | ⟨now, -, h⟩ :=
    runTick_cases p s
  all_goals
    rw [h]
    simp

/-- An action of the TICK in progress ends it or leaves it to the same context. -/
theorem runTick_context (p : PendingTick) (s : State) :
    (runTick p s).tickInProgress = none ∨ ∃ a, (runTick p s).tickInProgress = some ⟨p.context, a⟩ := by
  obtain ⟨now, f, -, ⟨-, h⟩ | ⟨-, h⟩⟩ | ⟨now, -, ⟨-, h⟩ | ⟨-, h⟩⟩ | ⟨a, now, -, h⟩ | ⟨now, -, h⟩ :=
    runTick_cases p s
  all_goals
    rw [h]
    simp

/-- The traces only grow under an action of the TICK in progress. -/
theorem runTick_traces (p : PendingTick) (s : State) :
    s.radioTrace <+: (runTick p s).radioTrace ∧ s.logTrace <+: (runTick p s).logTrace ∧
      s.results <+: (runTick p s).results := by
  obtain ⟨now, f, -, ⟨-, h⟩ | ⟨-, h⟩⟩ | ⟨now, -, ⟨-, h⟩ | ⟨-, h⟩⟩ | ⟨a, now, -, h⟩ | ⟨now, -, h⟩ :=
    runTick_cases p s
  all_goals
    rw [h]
    simp

/-! ### What the block owes the host -/

theorem Elementary.owed {s t : State} (h : Elementary s t) (hs : s.Owed) : t.Owed := by
  obtain ⟨hseq, hqueue, hlock⟩ := hs
  cases h with
  | takeMove | answer | raise | compute | endGap | beginWrite | endWrite => exact ⟨hseq, hqueue, hlock⟩
  | draw => exact ⟨seqNext_le s.seq, hqueue, hlock⟩
  | append payload hroom => exact ⟨by simpa using hseq, by simpa using hroom, by simpa using hlock⟩
  | clear => exact ⟨hseq, Nat.zero_le _, hlock⟩
  | beginBroadcast context now cmd rest _ _ _ hq =>
    rw [hq] at hqueue
    exact ⟨hseq, Nat.le_of_succ_le hqueue, hlock⟩
  | beginStop => exact ⟨by simpa using hseq, by simpa using hqueue, by simpa using hlock⟩
  | continueTick p _ =>
    obtain ⟨h1, h2, h3, h4, -⟩ := runTick_frame p s
    exact ⟨by rwa [h2], by rwa [h1, h3], by rwa [h4]⟩

/-! ### One request a context -/

theorem Elementary.oneRequestPerContext {s t : State} (h : Elementary s t) (hs : s.OneRequestPerContext) :
    t.OneRequestPerContext := by
  unfold State.OneRequestPerContext State.contextsInProgress at *
  cases h with
  | takeMove | answer | raise | compute | draw | clear | endGap => exact hs
  | append => simpa using hs
  | beginBroadcast context now cmd rest h hc | beginStop context now h hc =>
    rw [State.contextsInProgress] at hc
    rw [h] at hs hc
    simpa using List.nodup_cons.mpr ⟨hc, hs⟩
  | continueTick p hp =>
    obtain ⟨-, -, -, -, -, -, -, hw⟩ := runTick_frame p s
    rw [hw]
    rw [hp] at hs
    obtain ht | ⟨a, ht⟩ := runTick_context p s
    · rw [ht]
      exact (List.nodup_cons.mp hs).2
    · rw [ht]
      exact hs
  | beginWrite w h =>
    rw [State.contextsInProgress] at h
    rw [List.map_append, ← List.append_assoc]
    exact hs.append (List.nodup_singleton _) (List.disjoint_singleton.mpr h)
  | endWrite w =>
    exact hs.sublist ((List.erase_sublist.map _).append_left _)

/-- Settles O54: each elementary action keeps both. -/
theorem stepKeepsWhatTheBlockOwes : Obligations.StepKeepsWhatTheBlockOwes := by
  intro s t h
  exact ⟨fun hs => step_keeps State.Owed (fun _ _ => Elementary.owed) s t hs h,
    fun hs => step_keeps State.OneRequestPerContext (fun _ _ => Elementary.oneRequestPerContext) s t hs h⟩

/-! ### The assembly buffer -/

theorem Elementary.bufWf {s t : State} (h : Elementary s t) (hs : s.BufWf) : t.BufWf := by
  unfold State.BufWf at *
  cases h with
  | takeMove | answer | raise | clear | beginBroadcast | endGap | beginWrite | endWrite => exact hs
  | compute u h => exact h hs
  | draw u h =>
    rw [h]
    exact Buf.wf_discarded
  | append | beginStop => simpa using hs
  | continueTick p _ =>
    obtain ⟨-, -, -, -, hu, -⟩ := runTick_frame p s
    rwa [hu]

/-- Settles O55: each elementary action keeps the form. -/
theorem stepKeepsTheBufferInForm : Obligations.StepKeepsTheBufferInForm :=
  step_keeps State.BufWf (fun _ _ => Elementary.bufWf)

/-! ### The configuration and the traces -/

/-- What a state has of a later one: its configuration, and its traces as beginnings. -/
def State.Precedes (s t : State) : Prop :=
  t.cfg = s.cfg ∧ s.radioTrace <+: t.radioTrace ∧ s.logTrace <+: t.logTrace ∧ s.results <+: t.results

theorem State.Precedes.refl (s : State) : s.Precedes s :=
  ⟨rfl, List.prefix_rfl, List.prefix_rfl, List.prefix_rfl⟩

theorem State.Precedes.trans {s t v : State} (h : s.Precedes t) (h' : t.Precedes v) : s.Precedes v := by
  obtain ⟨hc, hr, hl, ha⟩ := h
  obtain ⟨hc', hr', hl', ha'⟩ := h'
  exact ⟨hc'.trans hc, hr.trans hr', hl.trans hl', ha.trans ha'⟩

theorem Elementary.precedes {s t : State} (h : Elementary s t) : s.Precedes t := by
  cases h with
  | takeMove | compute | draw | clear | beginBroadcast | endGap | beginWrite | endWrite => exact .refl s
  | answer | raise | append | beginStop => simp [State.Precedes]
  | continueTick p _ => exact ⟨(runTick_frame p s).1, runTick_traces p s⟩

/-- Settles O52: each elementary action keeps the configuration and extends the traces. -/
theorem configurationIsNeverWritten : Obligations.ConfigurationIsNeverWritten := by
  intro s t h
  exact step_keeps s.Precedes (fun _ _ h hs => hs.trans h.precedes) s t (.refl s) h

/-! ### The radio and the scheduler -/

/-- A stop that failed stays in the trace. -/
theorem State.StopsOk.of_precedes {s t : State} (h : s.Precedes t) (ht : t.StopsOk) : s.StopsOk :=
  fun hs =>
    have ⟨_, hradio, _⟩ := h
    ht (hradio.subset hs)

/-- R128: a stop that succeeded turned the radio off. -/
theorem State.stopRadio_radioOn_of_stopsOk (s : State) (h : s.stopRadio.StopsOk) : s.stopRadio.radioOn = false := by
  apply State.stopRadio_radioOn_of_ok
  cases hst : s.takeStatus.1 with
  | ok => rfl
  | fail => simp [State.StopsOk, hst] at h

/-- R127 to R130: each action of the TICK in progress leaves the radio as its next action says. -/
theorem runTick_radioFollows (p : PendingTick) (s : State) (hp : s.tickInProgress = some p) (hs : s.RadioFollows) :
    (runTick p s).RadioFollows := by
  obtain ⟨context, activity⟩ := p
  unfold State.RadioFollows at *
  rw [hp] at hs
  cases activity with
  | configure now frame =>
    obtain ⟨hon, ha⟩ := hs
    have hoff := s.configureRadio_radioOn_of_off frame hon
    cases h : (s.configureRadio frame).1 <;> simp [runTick, h, hoff, ha]
  | startRadio now =>
    obtain ⟨hon, ha⟩ := hs
    cases h : s.startRadio.1 with
    | ok => simp [runTick, h, State.startRadio_radioOn_of_ok s h, ha]
    | fail => simp [runTick, h, State.startRadio_radioOn_of_off s hon h, ha]
  | setState target now =>
    cases target with
    | idle => exact hs.elim
    | advertising => exact hs.1
    | gap => exact hs.1
  | setTime now => exact hs

theorem Elementary.radioFollows {s t : State} (h : Elementary s t) (hstops : t.StopsOk) (hs : s.RadioFollows) :
    t.RadioFollows := by
  cases h with
  | takeMove | answer | raise | compute | draw | clear | beginWrite | endWrite => exact hs
  | append => simpa [State.RadioFollows] using hs
  | beginBroadcast context now cmd rest h _ ha =>
    rw [State.RadioFollows, h, ha] at hs
    exact ⟨hs, ha⟩
  | beginStop context now _ _ ha =>
    have hoff := State.stopRadio_radioOn_of_stopsOk s hstops
    simp [State.RadioFollows, hoff, ha]
  | endGap h ha =>
    rw [State.RadioFollows, h, ha] at hs
    simp only [State.RadioFollows, h]
    exact hs
  | continueTick p hp => exact runTick_radioFollows p s hp hs

/-- Settles O56: an elementary action keeps the radio with the scheduler where every stop succeeded, and a trace without
a failed stop had none before the action either. -/
theorem stepKeepsTheRadioWithTheScheduler : Obligations.StepKeepsTheRadioWithTheScheduler := by
  intro s t hs h
  refine step_keeps (fun s => s.StopsOk → s.RadioFollows) (fun s t h hs hstops => ?_) s t hs h
  exact h.radioFollows hstops (hs (hstops.of_precedes h.precedes))

/-! ### The TICK in progress stands in its row -/

/-- R123: each action of the TICK in progress leaves it in its row. -/
theorem runTick_tickShape (p : PendingTick) (s : State) (hp : s.tickInProgress = some p) (hs : s.TickShape) :
    (runTick p s).TickShape := by
  obtain ⟨context, activity⟩ := p
  unfold State.TickShape at *
  rw [hp] at hs
  cases activity with
  | configure now frame => cases h : (s.configureRadio frame).1 <;> simp [runTick, h, hs]
  | startRadio now => cases h : s.startRadio.1 <;> simp [runTick, h, hs]
  | setState target now =>
    cases target with
    | idle => exact hs.elim
    | advertising | gap => simp [runTick]
  | setTime now => trivial

theorem Elementary.tickShape {s t : State} (h : Elementary s t) (hs : s.TickShape) : t.TickShape := by
  cases h with
  | takeMove | answer | raise | compute | draw | clear | beginWrite | endWrite => exact hs
  | append => simpa [State.TickShape] using hs
  | beginBroadcast context now cmd rest _ _ ha => exact ha
  | beginStop context now _ _ ha hd =>
    have h := (durationOver_iff s now).mp hd
    simpa [State.TickShape, ha] using h
  | endGap h _ => simp [State.TickShape, h]
  | continueTick p hp => exact runTick_tickShape p s hp hs

theorem step_keeps_tickShape (s t : State) (hs : s.TickShape) (h : step s = .next t) : t.TickShape :=
  step_keeps State.TickShape (fun _ _ => Elementary.tickShape) s t hs h

/-! ### Reset -/

/-- Settles O53: the values of R29, field by field. -/
theorem resetIsGood : Obligations.ResetIsGood := by
  intro cfg
  exact ⟨⟨Nat.zero_le _, Nat.zero_le _, rfl⟩, Buf.wf_discarded, rfl, ⟨rfl, rfl, rfl, rfl⟩, List.nodup_nil, trivial, rfl⟩

end Sys2Proof.Machine
end

section
/-! What one operation or step does to SEQ, the queue, the scheduler's state and the traces (spec/44_command_encoder.md
R96, spec/46_queue_scheduler.md R118, R123, R124, spec/60_exceptions.md R135). For each shared operation its frame, and what
it does to the fields outside it, said once; then the claims about operations, and from them those about steps. -/

namespace Sys2Proof.Machine

/-! ### Frames: the fields an operation does not name are those of the state before -/

theorem enqueue_frame (lightId : LightId) (payload : Bytes) (s t : State) (h : enqueue lightId payload s = .ok t) :
    t = { s with queue := t.queue, logTrace := t.logTrace, clockReads := t.clockReads, freeIndex := t.freeIndex } := by
  obtain ⟨-, ⟨-, rfl⟩ | ⟨-, rfl⟩⟩ := enqueue_cases lightId payload s t h
  · rfl
  · cases hc : s.clockReads with
    | nil => rw [State.readClock_nil s hc]
    | cons c cs => rw [State.readClock_cons s c cs hc]

theorem broadcast_frame (frame : Bytes) (now : Time) (s : State) :
    broadcast frame now s = { s with
      advState := (broadcast frame now s).advState
      stateStartTime := (broadcast frame now s).stateStartTime
      radioOn := (broadcast frame now s).radioOn
      radioData := (broadcast frame now s).radioData
      radioTrace := (broadcast frame now s).radioTrace
      logTrace := (broadcast frame now s).logTrace
      radioStatuses := (broadcast frame now s).radioStatuses
      freeIndex := (broadcast frame now s).freeIndex } := by
  obtain ⟨-, h⟩ | ⟨-, -, h⟩ | ⟨-, -, h⟩ := broadcast_cases frame now s
  all_goals
    rw [h]
    simp only [State.configureRadio_eq, State.startRadio_eq]
    rfl

/-! ### The sequence counter -/

theorem tickBody_seq (now : Time) (s t : State) (h : tickBody now s = .ok t) : t.seq = s.seq := by
  obtain ⟨-, -, -, rfl⟩ | ⟨cmd, rest, -, -, -, -, rfl⟩ | ⟨-, -, rfl⟩ | ⟨-, -, rfl⟩ | ⟨-, -, rfl⟩ | ⟨-, -, rfl⟩ :=
    tickBody_cases now s t h
  case inr.inl => rw [broadcast_frame]
  all_goals simp

theorem startTick_seq (context : Nat) (now : Time) (s t : State) (h : startTick context now s = .ok t) :
    t.seq = s.seq := by
  obtain ⟨-, ⟨-, -, -, rfl⟩ | ⟨cmd, rest, -, -, -, -, rfl⟩ | ⟨-, -, rfl⟩ | ⟨-, -, rfl⟩ | ⟨-, -, rfl⟩ |
    ⟨-, -, rfl⟩⟩ := startTick_cases context now s t h
  all_goals simp

theorem resumeTick_seq (s : State) : (resumeTick s).seq = s.seq := by
  obtain ⟨-, h⟩ | ⟨p, -, h⟩ := resumeTick_cases s
  · rw [h]
  · rw [h]
    obtain ⟨-, hseq, -⟩ := runTick_frame p s
    exact hseq

/-- R95: one draw. -/
def State.Draws (s t : State) : Prop := t.seq = if 254 ≤ s.seq.toNat then 1 else s.seq + 1

theorem lightWrite_seq (lightId : LightId) (isOn : Bool) (x r g b : Ratio) (s t : State)
    (h : lightWrite lightId isOn x r g b s = .ok t) : t.seq = s.seq ∨ s.Draws t := by
  obtain ⟨-, rfl⟩ | ⟨-, payload, u, -, -, he⟩ := lightWrite_cases lightId isOn x r g b s t h
  · exact .inl rfl
  · right
    rw [State.Draws, enqueue_frame _ _ _ _ he]
    exact seqNext_eq s.seq

theorem startWrite_seq (context : Nat) (lightId : LightId) (isOn : Bool) (x r g b : Ratio) (s t : State)
    (h : startWrite context lightId isOn x r g b s = .ok t) : t.seq = s.seq ∨ s.Draws t := by
  obtain ⟨-, rfl⟩ | ⟨-, payload, u, -, -, rfl⟩ := startWrite_cases context lightId isOn x r g b s t h
  · exact .inl rfl
  · exact .inr (seqNext_eq s.seq)

theorem resumeWrite_seq (context : Nat) (s t : State) (h : resumeWrite context s = .ok t) : t.seq = s.seq := by
  obtain ⟨-, rfl⟩ | ⟨w, s1, -, he, rfl⟩ := resumeWrite_cases context s t h
  · rfl
  · rw [enqueue_frame _ _ _ _ he]
    rfl

theorem exec_seq (i : Instr) (s t : State) (h : exec i s = .next t) :
    t.seq = s.seq ∨ (s.Draws t ∧ (i.op = .cmdEncode ∨ i.op = .slcFrame ∨ i.op = .lightWrite)) := by
  obtain ⟨-, u, r, rfl, -⟩ | ⟨hop, u, r, rfl, -⟩ | ⟨l, on, x, r, g, b, s1, rfl, h1, rfl⟩ | ⟨l, p, s1, -, h1, rfl⟩ |
    ⟨-, -, rfl⟩ | ⟨now, s1, -, -, h1, rfl⟩ := exec_cases i s t h
  · exact .inl rfl
  · exact .inr ⟨seqNext_eq s.seq, hop.imp_right .inl⟩
  · exact (lightWrite_seq l on x r g b s s1 h1).imp_right fun hd => ⟨hd, .inr (.inr rfl)⟩
  · exact .inl (congrArg State.seq (enqueue_frame l p s s1 h1) :)
  · exact .inl rfl
  · exact .inl (tickBody_seq now s s1 h1)

/-! ### What a step's move asks for -/

/-- Everything a step that answers a next state can have done, by the operation its move asks for: a whole operation, the
first atomic action of a TICK or LIGHT_WRITE, a later one of a request in progress, or a setup check. -/
theorem step_issues (s t : State) (h : step s = .next t) :
    ∃ rest, (∃ i, s.Issues i ∧ exec i { s with host := rest } = .next t) ∨
      (∃ context now, s.Issues (.tick now) ∧ startTick context now { s with host := rest } = .ok t) ∨
      (∃ context lightId isOn x r g b, s.Issues (.lightWrite lightId isOn x r g b) ∧
        startWrite context lightId isOn x r g b { s with host := rest } = .ok t) ∨
      t = resumeTick { s with host := rest } ∨
      (∃ context, resumeWrite context { s with host := rest } = .ok t) ∨
      (∃ lightId, s.host = .setupLight lightId :: rest ∧ t = setupLight lightId { s with host := rest }) := by
  obtain ⟨hh, ht, -, rfl⟩ | ⟨rest, h⟩ := step_cases s t h
  · refine ⟨[], .inr (.inr (.inr (.inl ?_)))⟩
    rw [← hh, resumeTick_of_none t ht]
  · refine ⟨rest, ?_⟩
    obtain ⟨q, i, hh, hd, h⟩ | ⟨context, q, hh, h⟩ | ⟨-, h⟩ | ⟨context, -, h⟩ | ⟨lightId, hh, h⟩ := h
    · exact .inl ⟨i, ⟨q, rest, hd, .inl hh⟩, h⟩
    · obtain ⟨-, i, hd, hi⟩ := start_cases context q _ t h
      have hissues : s.Issues i := ⟨q, rest, hd, .inr ⟨context, hh⟩⟩
      obtain ⟨now, rfl, h⟩ | ⟨l, on, x, r, g, b, rfl, h⟩ | ⟨h, -, -⟩ := hi
      · exact .inr (.inl ⟨context, now, hissues, h⟩)
      · exact .inr (.inr (.inl ⟨context, l, on, x, r, g, b, hissues, h⟩))
      · exact .inl ⟨i, hissues, h⟩
    · exact .inr (.inr (.inr (.inl h)))
    · exact .inr (.inr (.inr (.inr (.inl ⟨context, h⟩))))
    · exact .inr (.inr (.inr (.inr (.inr ⟨lightId, hh, h⟩))))

theorem setupLight_cases (lightId : LightId) (s : State) :
    (s.cfg.isBound lightId = true ∧ setupLight lightId s = s) ∨
    (s.cfg.isBound lightId = false ∧ setupLight lightId s = s.raise (.missingController lightId)) := by
  unfold setupLight
  cases s.cfg.isBound lightId with
  | true => exact .inl ⟨rfl, rfl⟩
  | false => exact .inr ⟨rfl, rfl⟩

/-- A setup check writes the log trace only. -/
theorem setupLight_frame (lightId : LightId) (s : State) :
    setupLight lightId s = { s with logTrace := (setupLight lightId s).logTrace } := by
  obtain ⟨-, h⟩ | ⟨-, h⟩ := setupLight_cases lightId s
  · rw [h]
  · rw [h]
    rfl

theorem step_seq (s t : State) (h : step s = .next t) :
    t.seq = s.seq ∨ (s.Draws t ∧ ∃ i, s.Issues i ∧ (i.op = .cmdEncode ∨ i.op = .slcFrame ∨ i.op = .lightWrite)) := by
  obtain ⟨rest, ⟨i, hi, h⟩ | ⟨context, now, -, h⟩ | ⟨context, l, on, x, r, g, b, hi, h⟩ | rfl | ⟨context, h⟩ |
    ⟨lightId, -, rfl⟩⟩ := step_issues s t h
  · exact (exec_seq i _ t h).imp_right fun ⟨hd, hop⟩ => ⟨hd, i, hi, hop⟩
  · exact .inl (startTick_seq context now _ t h :)
  · exact (startWrite_seq context l on x r g b _ t h).imp_right fun hd => ⟨hd, _, hi, .inr (.inr rfl)⟩
  · exact .inl (resumeTick_seq _ :)
  · exact .inl (resumeWrite_seq context _ t h :)
  · exact .inl (congrArg State.seq (setupLight_frame lightId { s with host := rest }) :)

/-- Settles O25. -/
theorem onlyTheEncoderDraws : Obligations.OnlyTheEncoderDraws :=
  ⟨exec_seq, step_seq⟩

/-! ### The queue -/

/-- R118: the queue as it was, one record more at its tail, or its head removed in Idle. -/
def State.QueueMoves (s t : State) : Prop :=
  t.queue = s.queue ∨
  (∃ c, t.queue = s.queue ++ [c] ∧ c.retryCount = 0 ∧ s.queue.length < s.cfg.maxQueueSize) ∨
  (∃ c, s.queue = c :: t.queue ∧ s.advState = .idle)

theorem enqueue_queue (lightId : LightId) (payload : Bytes) (s t : State) (h : enqueue lightId payload s = .ok t) :
    s.QueueMoves t := by
  obtain ⟨-, ⟨-, rfl⟩ | ⟨hroom, rfl⟩⟩ := enqueue_cases lightId payload s t h
  · exact .inl rfl
  · exact .inr (.inl ⟨_, rfl, rfl, hroom⟩)

theorem tickBody_queue (now : Time) (s t : State) (h : tickBody now s = .ok t) : s.QueueMoves t := by
  obtain ⟨-, -, -, rfl⟩ | ⟨cmd, rest, ha, -, hn, -, rfl⟩ | ⟨-, -, rfl⟩ | ⟨-, -, rfl⟩ | ⟨-, -, rfl⟩ | ⟨-, -, rfl⟩ :=
    tickBody_cases now s t h
  case inr.inl =>
    refine .inr (.inr ⟨cmd, ?_, ha⟩)
    rw [hn, broadcast_frame]
  all_goals exact .inl (by simp)

theorem startTick_queue (context : Nat) (now : Time) (s t : State) (h : startTick context now s = .ok t) :
    s.QueueMoves t := by
  obtain ⟨-, ⟨-, -, -, rfl⟩ | ⟨cmd, rest, ha, -, hn, -, rfl⟩ | ⟨-, -, rfl⟩ | ⟨-, -, rfl⟩ | ⟨-, -, rfl⟩ |
    ⟨-, -, rfl⟩⟩ := startTick_cases context now s t h
  case inr.inl => exact .inr (.inr ⟨cmd, hn, ha⟩)
  all_goals exact .inl (by simp)

theorem resumeTick_queue (s : State) : (resumeTick s).queue = s.queue := by
  obtain ⟨-, h⟩ | ⟨p, -, h⟩ := resumeTick_cases s
  · rw [h]
  · rw [h]
    obtain ⟨-, -, hqueue, -⟩ := runTick_frame p s
    exact hqueue

theorem lightWrite_queue (lightId : LightId) (isOn : Bool) (x r g b : Ratio) (s t : State)
    (h : lightWrite lightId isOn x r g b s = .ok t) : s.QueueMoves t := by
  obtain ⟨-, rfl⟩ | ⟨-, payload, u, -, -, he⟩ := lightWrite_cases lightId isOn x r g b s t h
  · exact .inl rfl
  · exact (enqueue_queue lightId payload _ t he :)

theorem startWrite_queue (context : Nat) (lightId : LightId) (isOn : Bool) (x r g b : Ratio) (s t : State)
    (h : startWrite context lightId isOn x r g b s = .ok t) : t.queue = s.queue := by
  obtain ⟨-, rfl⟩ | ⟨-, payload, u, -, -, rfl⟩ := startWrite_cases context lightId isOn x r g b s t h
  all_goals rfl

theorem resumeWrite_queue (context : Nat) (s t : State) (h : resumeWrite context s = .ok t) : s.QueueMoves t := by
  obtain ⟨-, rfl⟩ | ⟨w, s1, -, he, rfl⟩ := resumeWrite_cases context s t h
  · exact .inl rfl
  · exact enqueue_queue w.lightId w.payload s s1 he

theorem exec_queue (i : Instr) (s t : State) (h : exec i s = .next t) :
    s.QueueMoves t ∨ (t.queue = [] ∧ i = .qClear) := by
  obtain ⟨-, u, r, rfl, -⟩ | ⟨-, u, r, rfl, -⟩ | ⟨l, on, x, r, g, b, s1, -, h1, rfl⟩ | ⟨l, p, s1, -, h1, rfl⟩ |
    ⟨rfl, -, rfl⟩ | ⟨now, s1, -, -, h1, rfl⟩ := exec_cases i s t h
  · exact .inl (.inl rfl)
  · exact .inl (.inl rfl)
  · exact .inl (lightWrite_queue l on x r g b s s1 h1)
  · exact .inl (enqueue_queue l p s s1 h1)
  · exact .inr ⟨rfl, rfl⟩
  · exact .inl (tickBody_queue now s s1 h1)

theorem step_queue (s t : State) (h : step s = .next t) : s.QueueMoves t ∨ (t.queue = [] ∧ s.Issues .qClear) := by
  obtain ⟨rest, ⟨i, hi, h⟩ | ⟨context, now, -, h⟩ | ⟨context, l, on, x, r, g, b, -, h⟩ | rfl | ⟨context, h⟩ |
    ⟨lightId, -, rfl⟩⟩ := step_issues s t h
  · exact (exec_queue i _ t h).imp_right fun ⟨hq, hc⟩ => ⟨hq, hc ▸ hi⟩
  · exact .inl (startTick_queue context now _ t h :)
  · exact .inl (.inl (startWrite_queue context l on x r g b _ t h :))
  · exact .inl (.inl (resumeTick_queue _ :))
  · exact .inl (resumeWrite_queue context _ t h :)
  · exact .inl (.inl (congrArg State.queue (setupLight_frame lightId { s with host := rest }) :))

/-- Settles O42. -/
theorem queueIsAFifo : Obligations.QueueIsAFifo := by
  intro s t h
  obtain (hsame | happend | hhead) | hclear := step_queue s t h
  · exact .inl hsame
  · exact .inr (.inl happend)
  · exact .inr (.inr (.inl hhead))
  · exact .inr (.inr (.inr hclear))

/-! ### The scheduler's state and its start time -/

/-- Both are as they were. -/
def State.SchedulerSame (s t : State) : Prop := t.advState = s.advState ∧ t.stateStartTime = s.stateStartTime

/-- R123: the three transitions of a TICK at `now`. -/
def Transition (now : Time) (s t : State) : Prop :=
  (s.advState = .idle ∧ t.advState = .advertising ∧ t.stateStartTime = now ∧ s.queue ≠ []) ∨
  (s.advState = .advertising ∧ t.advState = .gap ∧ t.stateStartTime = now ∧
    s.cfg.advDuration.toNat ≤ (now.toNat + 2 ^ 32 - s.stateStartTime.toNat) % 2 ^ 32) ∨
  (s.advState = .gap ∧ t.advState = .idle ∧ t.stateStartTime = s.stateStartTime ∧
    s.cfg.advGap.toNat ≤ (now.toNat + 2 ^ 32 - s.stateStartTime.toNat) % 2 ^ 32)

theorem enqueue_scheduler (lightId : LightId) (payload : Bytes) (s t : State)
    (h : enqueue lightId payload s = .ok t) : s.SchedulerSame t := by
  have hf := enqueue_frame lightId payload s t h
  exact ⟨(congrArg State.advState hf :), (congrArg State.stateStartTime hf :)⟩

theorem broadcast_scheduler (frame : Bytes) (now : Time) (s : State) :
    s.SchedulerSame (broadcast frame now s) ∨
    ((broadcast frame now s).advState = .advertising ∧ (broadcast frame now s).stateStartTime = now) := by
  obtain ⟨-, h⟩ | ⟨-, -, h⟩ | ⟨-, -, h⟩ := broadcast_cases frame now s
  · exact .inl (by simp [State.SchedulerSame, h])
  · exact .inl (by simp [State.SchedulerSame, h])
  · exact .inr (by simp [h])

theorem tickBody_scheduler (now : Time) (s t : State) (h : tickBody now s = .ok t) :
    s.SchedulerSame t ∨ Transition now s t := by
  obtain ⟨-, -, -, rfl⟩ | ⟨cmd, rest, ha, -, hn, -, rfl⟩ | ⟨ha, hd, rfl⟩ | ⟨-, -, rfl⟩ | ⟨ha, hd, rfl⟩ |
    ⟨-, -, rfl⟩ := tickBody_cases now s t h
  · exact .inl ⟨rfl, rfl⟩
  · exact (broadcast_scheduler _ now { s with queue := rest }).imp_right fun ⟨hadv, htime⟩ =>
      .inl ⟨ha, hadv, htime, by simp [hn]⟩
  · exact .inr (.inr (.inl ⟨ha, rfl, rfl, (durationOver_iff s now).mp hd⟩))
  · exact .inl ⟨rfl, rfl⟩
  · exact .inr (.inr (.inr ⟨ha, rfl, rfl, (gapOver_iff s now).mp hd⟩))
  · exact .inl ⟨rfl, rfl⟩

theorem startTick_scheduler (context : Nat) (now : Time) (s t : State) (h : startTick context now s = .ok t) :
    s.SchedulerSame t ∨ Transition now s t := by
  obtain ⟨-, ⟨-, -, -, rfl⟩ | ⟨cmd, rest, -, -, -, -, rfl⟩ | ⟨-, -, rfl⟩ | ⟨-, -, rfl⟩ | ⟨ha, hd, rfl⟩ |
    ⟨-, -, rfl⟩⟩ := startTick_cases context now s t h
  case inr.inr.inr.inr.inl => exact .inr (.inr (.inr ⟨ha, rfl, rfl, (gapOver_iff s now).mp hd⟩))
  all_goals exact .inl (by simp [State.SchedulerSame])

/-- The writes of the TICK in progress, where it stands in its row: nothing, ADV_STATE or STATE_START_TIME. -/
theorem resumeTick_scheduler (s : State) (hs : s.TickShape) :
    s.SchedulerSame (resumeTick s) ∨
    (∃ context now, s.tickInProgress = some ⟨context, .setState (resumeTick s).advState now⟩ ∧
      (resumeTick s).tickInProgress = some ⟨context, .setTime now⟩ ∧
      (resumeTick s).stateStartTime = s.stateStartTime ∧
      ((s.advState = .idle ∧ (resumeTick s).advState = .advertising) ∨
       (s.advState = .advertising ∧ (resumeTick s).advState = .gap ∧
          s.cfg.advDuration.toNat ≤ (now.toNat + 2 ^ 32 - s.stateStartTime.toNat) % 2 ^ 32))) ∨
    (∃ context now, s.tickInProgress = some ⟨context, .setTime now⟩ ∧ (resumeTick s).tickInProgress = none ∧
      (resumeTick s).stateStartTime = now ∧ (resumeTick s).advState = s.advState ∧ s.advState ≠ .idle) := by
  cases hp : s.tickInProgress with
  | none =>
    rw [resumeTick_of_none s hp]
    exact .inl ⟨rfl, rfl⟩
  | some p =>
    obtain ⟨context, activity⟩ := p
    rw [resumeTick_of_some s _ hp]
    rw [State.TickShape, hp] at hs
    cases activity with
    | configure now frame =>
      left
      cases h : (s.configureRadio frame).1 <;> simp [runTick, h, State.SchedulerSame]
    | startRadio now =>
      left
      cases h : s.startRadio.1 <;> simp [runTick, h, State.SchedulerSame]
    | setState target now =>
      refine .inr (.inl ⟨context, now, rfl, rfl, rfl, ?_⟩)
      cases target with
      | idle => exact hs.elim
      | advertising => exact .inl ⟨hs, rfl⟩
      | gap => exact .inr ⟨hs.1, rfl, hs.2⟩
    | setTime now => exact .inr (.inr ⟨context, now, rfl, rfl, rfl, rfl, hs⟩)

theorem lightWrite_scheduler (lightId : LightId) (isOn : Bool) (x r g b : Ratio) (s t : State)
    (h : lightWrite lightId isOn x r g b s = .ok t) : s.SchedulerSame t := by
  obtain ⟨-, rfl⟩ | ⟨-, payload, u, -, -, he⟩ := lightWrite_cases lightId isOn x r g b s t h
  · exact ⟨rfl, rfl⟩
  · exact (enqueue_scheduler lightId payload _ t he :)

theorem startWrite_scheduler (context : Nat) (lightId : LightId) (isOn : Bool) (x r g b : Ratio) (s t : State)
    (h : startWrite context lightId isOn x r g b s = .ok t) : s.SchedulerSame t := by
  obtain ⟨-, rfl⟩ | ⟨-, payload, u, -, -, rfl⟩ := startWrite_cases context lightId isOn x r g b s t h
  all_goals exact ⟨rfl, rfl⟩

theorem resumeWrite_scheduler (context : Nat) (s t : State) (h : resumeWrite context s = .ok t) :
    s.SchedulerSame t := by
  obtain ⟨-, rfl⟩ | ⟨w, s1, -, he, rfl⟩ := resumeWrite_cases context s t h
  · exact ⟨rfl, rfl⟩
  · exact enqueue_scheduler w.lightId w.payload s s1 he

theorem exec_scheduler (i : Instr) (s t : State) (h : exec i s = .next t) :
    s.SchedulerSame t ∨ ∃ now, i = .tick now ∧ Transition now s t := by
  obtain ⟨-, u, r, rfl, -⟩ | ⟨-, u, r, rfl, -⟩ | ⟨l, on, x, r, g, b, s1, -, h1, rfl⟩ | ⟨l, p, s1, -, h1, rfl⟩ |
    ⟨-, -, rfl⟩ | ⟨now, s1, rfl, -, h1, rfl⟩ := exec_cases i s t h
  · exact .inl ⟨rfl, rfl⟩
  · exact .inl ⟨rfl, rfl⟩
  · exact .inl (lightWrite_scheduler l on x r g b s s1 h1)
  · exact .inl (enqueue_scheduler l p s s1 h1)
  · exact .inl ⟨rfl, rfl⟩
  · exact (tickBody_scheduler now s s1 h1).imp_right fun ht => ⟨now, rfl, ht⟩

/-- Settles O49: operations by `exec_scheduler`; a step is an operation, the start of one, or the TICK in progress. -/
theorem onlyThreeTransitions : Obligations.OnlyThreeTransitions := by
  refine ⟨exec_scheduler, fun s t hs h => ⟨step_keeps_tickShape s t hs h, ?_⟩⟩
  obtain ⟨rest, ⟨i, hi, h⟩ | ⟨context, now, hi, h⟩ | ⟨context, l, on, x, r, g, b, -, h⟩ | rfl | ⟨context, h⟩ |
    ⟨lightId, -, rfl⟩⟩ := step_issues s t h
  · obtain hsame | ⟨now, rfl, ht⟩ := exec_scheduler i _ t h
    · exact .inl hsame
    · exact .inr (.inl ⟨now, hi, ht⟩)
  · exact (startTick_scheduler context now _ t h).imp_right fun ht => .inl ⟨now, hi, ht⟩
  · exact .inl (startWrite_scheduler context l on x r g b _ t h :)
  · exact (resumeTick_scheduler { s with host := rest } hs).imp_right .inr
  · exact .inl (resumeWrite_scheduler context _ t h :)
  · have hf := setupLight_frame lightId { s with host := rest }
    exact .inl ⟨(congrArg State.advState hf :), (congrArg State.stateStartTime hf :)⟩

end Sys2Proof.Machine
end

section
/-! The radio calls and the error events of one operation or step (spec/46_queue_scheduler.md R124, R132, R142,
spec/60_exceptions.md R135), and the frame of the pure operations (spec/70_reset_and_hazards.md R171). -/

namespace Sys2Proof.Machine

/-- The radio trace and the log trace have grown by these. -/
def Grew (calls : List RadioCall) (events : List LogEvent) (s t : State) : Prop :=
  t.radioTrace = s.radioTrace ++ calls ∧ t.logTrace = s.logTrace ++ events

theorem Grew.none {s t : State} (hr : t.radioTrace = s.radioTrace) (hl : t.logTrace = s.logTrace) : Grew [] [] s t :=
  ⟨by rw [hr, List.append_nil], by rw [hl, List.append_nil]⟩

theorem Grew.refl (s : State) : Grew [] [] s s := .none rfl rfl

theorem Grew.raise (s : State) (e : LogEvent) : Grew [] [e] s (s.raise e) := ⟨by simp, rfl⟩

/-- R124, R142: the calls of a whole TICK, or of its first atomic action. -/
def TickCalls (calls : List RadioCall) (s : State) : Prop :=
  (∃ f, calls = [.configure f .fail] ∧ s.advState = .idle) ∨
  (∃ f p st, calls = [.configure f .ok, .start p st] ∧ s.advState = .idle) ∨
  (∃ st, calls = [.stop st] ∧ s.advState = .advertising)

/-- R135: a TICK raises an event only with the failed call it belongs to. -/
def TickEvents (calls : List RadioCall) (events : List LogEvent) : Prop :=
  events = [] ∨ (events = [.radioConfigFailure] ∧ ∃ f, calls = [.configure f .fail]) ∨
  (events = [.radioStartFailure] ∧ ∃ p, calls.getLast? = some (.start p .fail))

/-! ### A TICK -/

theorem broadcast_grew (frame : Bytes) (now : Time) (s : State) (ha : s.advState = .idle) :
    ∃ calls events, Grew calls events s (broadcast frame now s) ∧ TickCalls calls s ∧ TickEvents calls events := by
  obtain ⟨h1, h⟩ | ⟨h1, h2, h⟩ | ⟨h1, h2, h⟩ := broadcast_cases frame now s
  · exact ⟨[.configure frame .fail], [.radioConfigFailure], ⟨by simp [h, h1], by simp [h]⟩, .inl ⟨frame, rfl, ha⟩,
      .inr (.inl ⟨rfl, frame, rfl⟩)⟩
  · exact ⟨[.configure frame .ok, .start s.cfg.params .fail], [.radioStartFailure], ⟨by simp [h, h1, h2], by simp [h]⟩,
      .inr (.inl ⟨frame, _, _, rfl, ha⟩), .inr (.inr ⟨rfl, _, rfl⟩)⟩
  · exact ⟨[.configure frame .ok, .start s.cfg.params .ok], [], ⟨by simp [h, h1, h2], by simp [h]⟩,
      .inr (.inl ⟨frame, _, _, rfl, ha⟩), .inl rfl⟩

/-- R128: the stop call of ADVERTISING_STEP, whatever else the state after it holds. -/
theorem stop_grew (s t : State) (hr : t.radioTrace = s.stopRadio.radioTrace) (hl : t.logTrace = s.logTrace) :
    Grew [.stop s.takeStatus.1] [] s t :=
  ⟨by rw [hr, State.stopRadio_radioTrace], by rw [hl, List.append_nil]⟩

theorem tickBody_grew (now : Time) (s t : State) (h : tickBody now s = .ok t) :
    ∃ calls events, Grew calls events s t ∧ (calls = [] ∨ TickCalls calls s) ∧ TickEvents calls events := by
  obtain ⟨-, -, -, rfl⟩ | ⟨cmd, rest, ha, -, -, -, rfl⟩ | ⟨ha, -, rfl⟩ | ⟨-, -, rfl⟩ | ⟨-, -, rfl⟩ | ⟨-, -, rfl⟩ :=
    tickBody_cases now s t h
  case inr.inl =>
    obtain ⟨calls, events, hg, hc, he⟩ := broadcast_grew (formatAD s.cfg cmd.payload) now { s with queue := rest } ha
    exact ⟨calls, events, hg, .inr hc, he⟩
  case inr.inr.inl =>
    exact ⟨_, [], stop_grew s _ rfl (by simp), .inr (.inr (.inr ⟨_, rfl, ha⟩)), .inl rfl⟩
  all_goals exact ⟨[], [], .none rfl rfl, .inl rfl, .inl rfl⟩

theorem startTick_grew (context : Nat) (now : Time) (s t : State) (h : startTick context now s = .ok t) :
    ∃ calls, Grew calls [] s t ∧ (calls = [] ∨ TickCalls calls s) := by
  obtain ⟨-, ⟨-, -, -, rfl⟩ | ⟨cmd, rest, -, -, -, -, rfl⟩ | ⟨ha, -, rfl⟩ | ⟨-, -, rfl⟩ | ⟨-, -, rfl⟩ |
    ⟨-, -, rfl⟩⟩ := startTick_cases context now s t h
  case inr.inr.inl => exact ⟨_, stop_grew s _ rfl (by simp), .inr (.inr (.inr ⟨_, rfl, ha⟩))⟩
  all_goals exact ⟨[], .none rfl rfl, .inl rfl⟩

/-- The one call of the TICK in progress, where it stands in its row. -/
theorem resumeTick_grew (s : State) (hs : s.TickShape) :
    ∃ calls events, Grew calls events s (resumeTick s) ∧ TickEvents calls events ∧
      (calls = [] ∨
       (∃ context now f st, s.tickInProgress = some ⟨context, .configure now f⟩ ∧ calls = [.configure f st] ∧
          s.advState = .idle) ∨
       (∃ context now st, s.tickInProgress = some ⟨context, .startRadio now⟩ ∧ calls = [.start s.cfg.params st] ∧
          s.advState = .idle)) := by
  cases hp : s.tickInProgress with
  | none =>
    rw [resumeTick_of_none s hp]
    exact ⟨[], [], .refl s, .inl rfl, .inl rfl⟩
  | some p =>
    obtain ⟨context, activity⟩ := p
    rw [resumeTick_of_some s _ hp]
    rw [State.TickShape, hp] at hs
    cases activity with
    | configure now frame =>
      cases h : (s.configureRadio frame).1 with
      | ok =>
        exact ⟨[.configure frame .ok], [], ⟨by simp [runTick, h], by simp [runTick, h]⟩, .inl rfl,
          .inr (.inl ⟨context, now, frame, .ok, rfl, rfl, hs⟩)⟩
      | fail =>
        exact ⟨[.configure frame .fail], [.radioConfigFailure], ⟨by simp [runTick, h], by simp [runTick, h]⟩,
          .inr (.inl ⟨rfl, frame, rfl⟩), .inr (.inl ⟨context, now, frame, .fail, rfl, rfl, hs⟩)⟩
    | startRadio now =>
      cases h : s.startRadio.1 with
      | ok =>
        exact ⟨[.start s.cfg.params .ok], [], ⟨by simp [runTick, h], by simp [runTick, h]⟩, .inl rfl,
          .inr (.inr ⟨context, now, .ok, rfl, rfl, hs⟩)⟩
      | fail =>
        exact ⟨[.start s.cfg.params .fail], [.radioStartFailure], ⟨by simp [runTick, h], by simp [runTick, h]⟩,
          .inr (.inr ⟨rfl, _, rfl⟩), .inr (.inr ⟨context, now, .fail, rfl, rfl, hs⟩)⟩
    | setState target now => exact ⟨[], [], .none rfl rfl, .inl rfl, .inl rfl⟩
    | setTime now => exact ⟨[], [], .none rfl rfl, .inl rfl, .inl rfl⟩

/-! ### The other operations -/

/-- R116, R139: an offer logs nothing, or that the queue is full. -/
theorem enqueue_grew (lightId : LightId) (payload : Bytes) (s t : State) (h : enqueue lightId payload s = .ok t) :
    Grew [] [] s t ∨ Grew [] [.queueFull lightId] s t := by
  obtain ⟨-, ⟨-, rfl⟩ | ⟨-, rfl⟩⟩ := enqueue_cases lightId payload s t h
  · exact .inr (.raise s _)
  · exact .inl (.none (by simp) (by simp))

theorem lightWrite_grew (lightId : LightId) (isOn : Bool) (x r g b : Ratio) (s t : State)
    (h : lightWrite lightId isOn x r g b s = .ok t) :
    Grew [] [] s t ∨ Grew [] [.queueFull lightId] s t ∨ Grew [] [.missingController lightId] s t := by
  obtain ⟨-, rfl⟩ | ⟨-, payload, u, -, -, he⟩ := lightWrite_cases lightId isOn x r g b s t h
  · exact .inr (.inr (.raise s _))
  · exact (enqueue_grew lightId payload _ t he :).imp_right .inl

theorem startWrite_grew (context : Nat) (lightId : LightId) (isOn : Bool) (x r g b : Ratio) (s t : State)
    (h : startWrite context lightId isOn x r g b s = .ok t) :
    Grew [] [] s t ∨ Grew [] [.missingController lightId] s t := by
  obtain ⟨-, rfl⟩ | ⟨-, payload, u, -, -, rfl⟩ := startWrite_cases context lightId isOn x r g b s t h
  · exact .inr (.raise s _)
  · exact .inl (.none rfl rfl)

theorem resumeWrite_grew (context : Nat) (s t : State) (h : resumeWrite context s = .ok t) :
    Grew [] [] s t ∨ ∃ w ∈ s.writesInProgress, Grew [] [.queueFull w.lightId] s t := by
  obtain ⟨-, rfl⟩ | ⟨w, s1, hw, he, rfl⟩ := resumeWrite_cases context s t h
  · exact .inl (.refl _)
  · exact (enqueue_grew w.lightId w.payload s s1 he).imp_right fun hg => ⟨w, (pendingWrite_eq_some context s w hw).1, hg⟩

theorem setupLight_grew (lightId : LightId) (s : State) :
    Grew [] [] s (setupLight lightId s) ∨ Grew [] [.missingController lightId] s (setupLight lightId s) := by
  obtain ⟨-, h⟩ | ⟨-, h⟩ := setupLight_cases lightId s
  · rw [h]
    exact .inl (.refl s)
  · rw [h]
    exact .inr (.raise s _)

/-- R124, R135: what an operation adds to the two traces, by the operation it is. -/
theorem exec_grew (i : Instr) (s t : State) (h : exec i s = .next t) :
    Grew [] [] s t ∨
    (∃ lightId, Grew [] [.queueFull lightId] s t ∧ ((∃ payload, i = .qEnqueue lightId payload) ∨
      ∃ isOn x r g b, i = .lightWrite lightId isOn x r g b)) ∨
    (∃ lightId isOn x r g b, Grew [] [.missingController lightId] s t ∧ i = .lightWrite lightId isOn x r g b) ∨
    (∃ now, i = .tick now ∧ ∃ calls events, Grew calls events s t ∧ (calls = [] ∨ TickCalls calls s) ∧
      TickEvents calls events) := by
  obtain ⟨-, u, r, rfl, -⟩ | ⟨-, u, r, rfl, -⟩ | ⟨l, on, x, r, g, b, s1, rfl, h1, rfl⟩ | ⟨l, p, s1, rfl, h1, rfl⟩ |
    ⟨-, -, rfl⟩ | ⟨now, s1, rfl, -, h1, rfl⟩ := exec_cases i s t h
  · exact .inl (.none rfl rfl)
  · exact .inl (.none rfl rfl)
  · obtain hg | hg | hg := lightWrite_grew l on x r g b s s1 h1
    · exact .inl hg
    · exact .inr (.inl ⟨l, hg, .inr ⟨on, x, r, g, b, rfl⟩⟩)
    · exact .inr (.inr (.inl ⟨l, on, x, r, g, b, hg, rfl⟩))
  · exact (enqueue_grew l p s s1 h1).imp_right fun hg => .inl ⟨l, hg, .inl ⟨p, rfl⟩⟩
  · exact .inl (.none rfl rfl)
  · exact .inr (.inr (.inr ⟨now, rfl, tickBody_grew now s s1 h1⟩))

/-- Settles O50: operations by `exec_grew`; a step is an operation, the start of one, or an action of one in progress. -/
theorem callsAndEventsOfOneOperation : Obligations.CallsAndEventsOfOneOperation := by
  refine ⟨fun i s t h => ?operations, fun s t hs h => ?steps⟩
  case operations =>
    obtain hg | ⟨l, hg, hi⟩ | ⟨l, on, x, r, g, b, hg, hi⟩ | ⟨now, hi, calls, events, hg, hc, he⟩ := exec_grew i s t h
    · exact ⟨[], [], hg, .inl rfl, .inl rfl⟩
    · exact ⟨[], _, hg, .inl rfl, .inr (.inl ⟨l, rfl, hi⟩)⟩
    · exact ⟨[], _, hg, .inl rfl, .inr (.inr (.inl ⟨l, on, x, r, g, b, rfl, hi⟩))⟩
    · refine ⟨calls, events, hg, hc.imp_right fun hc => ⟨now, hi, hc⟩, ?_⟩
      obtain he | ⟨he, -⟩ | ⟨he, -⟩ := he
      · exact .inl he
      · exact .inr (.inr (.inr (.inl ⟨now, he, hi⟩)))
      · exact .inr (.inr (.inr (.inr ⟨now, he, hi⟩)))
  case steps =>
    obtain ⟨rest, ⟨i, hi, h⟩ | ⟨context, now, hi, h⟩ | ⟨context, l, on, x, r, g, b, hi, h⟩ | rfl | ⟨context, h⟩ |
      ⟨l, hh, rfl⟩⟩ := step_issues s t h
    · obtain hg | ⟨l, hg, ⟨p, rfl⟩ | ⟨on, x, r, g, b, rfl⟩⟩ | ⟨l, on, x, r, g, b, hg, rfl⟩ |
        ⟨now, rfl, calls, events, hg, hc, he⟩ := exec_grew i _ t h
      · exact ⟨[], [], hg, .inl rfl, .inl rfl⟩
      · exact ⟨[], _, hg, .inl rfl, .inr (.inl ⟨l, rfl, .inl ⟨p, hi⟩⟩)⟩
      · exact ⟨[], _, hg, .inl rfl, .inr (.inl ⟨l, rfl, .inr (.inl ⟨on, x, r, g, b, hi⟩)⟩)⟩
      · exact ⟨[], _, hg, .inl rfl, .inr (.inr (.inl ⟨l, rfl, .inl ⟨on, x, r, g, b, hi⟩⟩))⟩
      · exact ⟨calls, events, hg, hc.imp_right fun hc => .inl ⟨now, hi, hc⟩,
          he.imp_right fun he => .inr (.inr he)⟩
    · obtain ⟨calls, hg, hc⟩ := startTick_grew context now _ t h
      exact ⟨calls, [], hg, hc.imp_right fun hc => .inl ⟨now, hi, hc⟩, .inl rfl⟩
    · obtain hg | hg := startWrite_grew context l on x r g b _ t h
      · exact ⟨[], [], hg, .inl rfl, .inl rfl⟩
      · exact ⟨[], _, hg, .inl rfl, .inr (.inr (.inl ⟨l, rfl, .inl ⟨on, x, r, g, b, hi⟩⟩))⟩
    · obtain ⟨calls, events, hg, he, hc⟩ := resumeTick_grew { s with host := rest } hs
      exact ⟨calls, events, hg, hc.imp_right .inr, he.imp_right fun he => .inr (.inr he)⟩
    · obtain hg | ⟨w, hw, hg⟩ := resumeWrite_grew context _ t h
      · exact ⟨[], [], hg, .inl rfl, .inl rfl⟩
      · exact ⟨[], _, hg, .inl rfl, .inr (.inl ⟨w.lightId, rfl, .inr (.inr ⟨w.context, w.payload, hw⟩)⟩)⟩
    · obtain hg | hg := setupLight_grew l { s with host := rest }
      · exact ⟨[], [], hg, .inl rfl, .inl rfl⟩
      · exact ⟨[], _, hg, .inl rfl, .inr (.inr (.inl ⟨l, rfl, .inr ⟨rest, hh⟩⟩))⟩

/-! ### The pure operations -/

/-- Settles O51: an operation of R171's list is of the first kind of `exec_cases`; the other kinds are not on the list. -/
theorem pureOperationsTouchNoPersistentState : Obligations.PureOperationsTouchNoPersistentState := by
  intro i s t hi h
  obtain ⟨-, u, r, ht, -⟩ | ⟨hop | hop, -⟩ | ⟨l, on, x, r, g, b, s1, rfl, -⟩ | ⟨l, p, s1, rfl, -⟩ | ⟨rfl, -⟩ |
    ⟨now, s1, rfl, -⟩ := exec_cases i s t h
  case inl => exact ⟨u, r, ht⟩
  case inr.inl.inl | inr.inl.inr => simp [hop] at hi
  all_goals simp [Instr.op] at hi

end Sys2Proof.Machine
end

section
/-! The scheduler's TICK (spec/46_queue_scheduler.md R123 to R130): what `exec` answers for it in each row, and how the
radio's script decides the outcome in Idle. -/

namespace Sys2Proof.Machine

/-! ### What `exec` answers -/

theorem exec_tick_of_ok (now : Time) (s t : State) (hs : s.tickInProgress = none) (h : tickBody now s = .ok t) :
    exec (.tick now) s = .next (t.answer .nothing) := by
  change execTick now s = _
  simp only [execTick, hs, h, bind_ok]
  rfl

theorem exec_tick_of_error (now : Time) (s : State) (stop : Stop) (hs : s.tickInProgress = none)
    (h : tickBody now s = .error stop) : exec (.tick now) s = conclude (.error stop) := by
  change execTick now s = _
  simp only [execTick, hs, h, bind_error]

theorem exec_tick_of_overlap (now : Time) (s : State) (p : PendingTick) (hs : s.tickInProgress = some p) :
    exec (.tick now) s = .fault .tickOverlap := by
  change execTick now s = _
  simp only [execTick, hs]

/-- Everything a whole TICK that answers a next state can have done. -/
theorem exec_tick_cases (now : Time) (s t : State) (h : exec (.tick now) s = .next t) :
    ∃ s1, s.tickInProgress = none ∧ tickBody now s = .ok s1 ∧ t = s1.answer .nothing := by
  cases hs : s.tickInProgress with
  | some p =>
    rw [exec_tick_of_overlap now s p hs] at h
    cases h
  | none =>
    cases hb : tickBody now s with
    | ok s1 =>
      rw [exec_tick_of_ok now s s1 hs hb] at h
      cases h
      exact ⟨s1, rfl, rfl, rfl⟩
    | error stop =>
      rw [exec_tick_of_error now s stop hs hb, conclude_eq_next] at h
      cases h

section
variable (now : Time) (s : State)

theorem tickBody_of_idle_nil (ha : s.advState = .idle) (hq : s.qlock = false) (hn : s.queue = []) :
    tickBody now s = .ok s := by
  simp only [tickBody, ha, idleStep, takeHead_nil s hq hn, bind_ok]
  rfl

theorem tickBody_of_idle_cons (cmd : Command) (rest : List Command) (ha : s.advState = .idle) (hq : s.qlock = false)
    (hn : s.queue = cmd :: rest) (hl : cmd.payload.length ≤ 24) :
    tickBody now s = .ok (broadcast (formatAD s.cfg cmd.payload) now { s with queue := rest }) := by
  simp only [tickBody, ha, idleStep, takeHead_cons s cmd rest hq hn, advFrame_of_le _ _ hl, bind_ok]
  rfl

theorem tickBody_of_idle_tooLong (cmd : Command) (rest : List Command) (ha : s.advState = .idle)
    (hq : s.qlock = false) (hn : s.queue = cmd :: rest) (hl : 24 < cmd.payload.length) :
    tickBody now s = .error (.refusal .advertisementTooLong) := by
  simp only [tickBody, ha, idleStep, takeHead_cons s cmd rest hq hn, advFrame_of_gt _ _ hl, bind_ok, bind_error]

theorem tickBody_of_idle_locked (ha : s.advState = .idle) (hq : s.qlock = true) :
    tickBody now s = .error (.fault .queueLockHeld) := by
  simp only [tickBody, ha, idleStep, takeHead, State.acquire_of_held s hq, bind_error]

theorem tickBody_of_advertising (ha : s.advState = .advertising) :
    tickBody now s = .ok (if s.durationOver now then s.stopRadio.enter .gap now else s) := by
  simp only [tickBody, ha]
  rfl

theorem tickBody_of_gap (ha : s.advState = .gap) :
    tickBody now s = .ok (if s.gapOver now then { s with advState := .idle } else s) := by
  simp only [tickBody, ha]
  rfl

theorem durationOver_of_lt
    (h : (now.toNat + 2 ^ 32 - s.stateStartTime.toNat) % 2 ^ 32 < s.cfg.advDuration.toNat) :
    s.durationOver now = false := by
  rw [← Bool.not_eq_true, durationOver_iff]
  exact Nat.not_le_of_lt h

theorem gapOver_of_lt (h : (now.toNat + 2 ^ 32 - s.stateStartTime.toNat) % 2 ^ 32 < s.cfg.advGap.toNat) :
    s.gapOver now = false := by
  rw [← Bool.not_eq_true, gapOver_iff]
  exact Nat.not_le_of_lt h

end

/-! ### The script of statuses -/

/-- A scripted status is the one returned (R60). -/
theorem State.takeStatus_fst_of_scripted (s : State) (st : RadioStatus) (h : s.radioStatuses[0]? = some st) :
    s.takeStatus.1 = st := by
  obtain ⟨sts, hs⟩ := List.head?_eq_some_iff.mp (List.head?_eq_getElem? ▸ h)
  rw [State.takeStatus_cons s st sts hs]

theorem State.configureRadio_radioStatuses (s : State) (frame : Bytes) :
    (s.configureRadio frame).2.radioStatuses = s.radioStatuses.drop 1 := by rw [State.configureRadio_eq]
theorem State.configureRadio_freeIndex (s : State) (frame : Bytes) :
    (s.configureRadio frame).2.freeIndex = s.freeIndex + 1 + (1 - s.radioStatuses.length) := by
  rw [State.configureRadio_eq]
theorem State.startRadio_radioStatuses (s : State) : s.startRadio.2.radioStatuses = s.radioStatuses.drop 1 := by
  rw [State.startRadio_eq]
theorem State.startRadio_freeIndex (s : State) :
    s.startRadio.2.freeIndex = s.freeIndex + 1 + (1 - s.radioStatuses.length) := by rw [State.startRadio_eq]

/-- A stop call as one update. -/
theorem State.stopRadio_eq (s : State) :
    s.stopRadio = { s with
      radioStatuses := s.radioStatuses.drop 1
      freeIndex := s.freeIndex + 1 + (1 - s.radioStatuses.length)
      radioOn := onAfterStop s.takeStatus.1 (s.freeIndex + (1 - s.radioStatuses.length))
      radioTrace := s.radioTrace ++ [.stop s.takeStatus.1] } := by
  cases hs : s.radioStatuses with
  | nil => simp [State.stopRadio, State.takeStatus, hs]
  | cons st sts => simp [State.stopRadio, State.takeStatus, hs]

/-- The statuses of these calls are those of the script, and so many statuses and free values have been used. -/
def FollowsScript (calls : List RadioCall) (s t : State) : Prop :=
  t.radioStatuses = s.radioStatuses.drop calls.length ∧
  t.freeIndex = s.freeIndex + calls.length + (calls.length - s.radioStatuses.length) ∧
  ∀ k st, k < calls.length → s.radioStatuses[k]? = some st → (calls[k]?).map RadioCall.status = some st

theorem configure_followsScript (frame : Bytes) (s : State) :
    FollowsScript [.configure frame (s.configureRadio frame).1] s (s.configureRadio frame).2 := by
  refine ⟨s.configureRadio_radioStatuses frame, s.configureRadio_freeIndex frame, fun k st hk h => ?_⟩
  obtain rfl : k = 0 := by simpa using hk
  exact congrArg some (s.takeStatus_fst_of_scripted st h)

theorem configure_start_followsScript (frame : Bytes) (s : State) :
    FollowsScript [.configure frame (s.configureRadio frame).1, .start s.cfg.params (s.configureRadio frame).2.startRadio.1]
      s (s.configureRadio frame).2.startRadio.2 := by
  refine ⟨?_, ?_, fun k st hk h => ?_⟩
  · rw [State.startRadio_radioStatuses, State.configureRadio_radioStatuses, List.drop_drop]
    rfl
  · rw [State.startRadio_freeIndex, State.configureRadio_freeIndex, State.configureRadio_radioStatuses, List.length_drop]
    simp only [List.length_cons, List.length_nil]
    omega
  · obtain rfl | rfl : k = 0 ∨ k = 1 := by simp only [List.length_cons, List.length_nil] at hk; omega
    · exact congrArg some (s.takeStatus_fst_of_scripted st h)
    · refine congrArg some (State.takeStatus_fst_of_scripted _ st ?_)
      rwa [State.configureRadio_radioStatuses, List.getElem?_drop]

/-- R127, R130: the three outcomes of IDLE_STEP's radio calls, with the calls made, what they used of the script, and the
events. -/
theorem broadcast_outcome (frame : Bytes) (now : Time) (s t : State) (ha : s.advState = .idle)
    (ht : t = broadcast frame now s) :
    ∃ (calls : List RadioCall) (events : List LogEvent), Grew calls events s t ∧ FollowsScript calls s t ∧
      ((calls = [.configure frame .ok, .start s.cfg.params .ok] ∧ events = [] ∧
          t.advState = .advertising ∧ t.stateStartTime = now ∧ t.radioOn = true ∧ t.radioData = frame) ∨
       (calls = [.configure frame .fail] ∧ events = [.radioConfigFailure] ∧
          t.advState = .idle ∧ t.stateStartTime = s.stateStartTime ∧ (s.radioOn = false → t.radioOn = false)) ∨
       (calls = [.configure frame .ok, .start s.cfg.params .fail] ∧ events = [.radioStartFailure] ∧
          t.advState = .idle ∧ t.stateStartTime = s.stateStartTime ∧ t.radioData = frame ∧
          (s.radioOn = false → t.radioOn = false))) := by
  have hc := configure_followsScript frame s
  have hcs := configure_start_followsScript frame s
  obtain ⟨h1, h⟩ | ⟨h1, h2, h⟩ | ⟨h1, h2, h⟩ := broadcast_cases frame now s
  · rw [h1] at hc
    rw [h] at ht
    subst ht
    refine ⟨_, [.radioConfigFailure], ⟨by rw [State.raise_radioTrace, State.configureRadio_radioTrace, h1], by simp⟩, hc,
      .inr (.inl ⟨rfl, rfl, by simp [ha], by simp, fun hoff => s.configureRadio_radioOn_of_off frame hoff⟩)⟩
  · rw [h1, h2] at hcs
    rw [h] at ht
    subst ht
    refine ⟨_, [.radioStartFailure], ⟨?_, by simp⟩, hcs, .inr (.inr ⟨rfl, rfl, by simp [ha], by simp, ?_, fun hoff => ?_⟩)⟩
    · rw [State.raise_radioTrace, State.startRadio_radioTrace, State.configureRadio_radioTrace, h1, h2]
      simp
    · simpa using State.configureRadio_radioData_of_ok s frame h1
    · exact State.startRadio_radioOn_of_off _ (s.configureRadio_radioOn_of_off frame hoff) h2
  · rw [h1, h2] at hcs
    rw [h] at ht
    subst ht
    refine ⟨_, [], ⟨?_, by simp⟩, hcs, .inl ⟨rfl, rfl, rfl, rfl, State.startRadio_radioOn_of_ok _ h2, ?_⟩⟩
    · rw [State.enter_radioTrace, State.startRadio_radioTrace, State.configureRadio_radioTrace, h1, h2]
      simp
    · simpa using State.configureRadio_radioData_of_ok s frame h1

/-! ### The obligations -/

/-- Settles O43. -/
theorem tickInIdleWithEmptyQueue : Obligations.TickInIdleWithEmptyQueue := by
  intro now s hs hq ha hn
  exact exec_tick_of_ok now s s hs (tickBody_of_idle_nil now s ha hq hn)

/-- Settles O44: the state answered is that of `broadcast`, whose outcomes are the three of the statement. -/
theorem tickInIdleBroadcastsTheHead : Obligations.TickInIdleBroadcastsTheHead := by
  intro now s cmd rest hs hq ha hn hl
  have hexec := exec_tick_of_ok now s _ hs (tickBody_of_idle_cons now s cmd rest ha hq hn hl)
  have hframe := broadcast_frame (formatAD s.cfg cmd.payload) now { s with queue := rest }
  obtain ⟨calls, events, ⟨hr, hlog⟩, ⟨hst, hfi, hscript⟩, houtcome⟩ :=
    broadcast_outcome (formatAD s.cfg cmd.payload) now { s with queue := rest } _ ha rfl
  refine ⟨_, _, _, calls, events, hexec, ?_, hscript, houtcome⟩
  rw [hr, hlog, hst, hfi] at hframe
  exact congrArg (fun x : State => x.answer .nothing) hframe

/-- Settles O45: the calls of the outcome of O44 return the scripted statuses, so the statuses select the outcome. -/
theorem tickFollowsTheRadioStatuses : Obligations.TickFollowsTheRadioStatuses := by
  intro now s cmd rest st1 st2 sts hs hq ha hn hl hscript
  obtain ⟨t, on, data, calls, events, hexec, ht, hcalls, houtcome⟩ :=
    tickInIdleBroadcastsTheHead now s cmd rest hs hq ha hn hl
  have hst : t.radioStatuses = (st1 :: st2 :: sts).drop calls.length := by
    rw [ht, hscript]
  have hlog : t.logTrace = s.logTrace ++ events := by
    rw [ht]
  have h0 := hcalls 0 st1
  have h1 := hcalls 1 st2
  refine ⟨t, hexec, ?_⟩
  obtain ⟨rfl, rfl, hadv, -⟩ | ⟨rfl, rfl, hadv, -⟩ | ⟨rfl, rfl, hadv, -⟩ := houtcome
  · obtain rfl : RadioStatus.ok = st1 := by simpa [hscript, RadioCall.status] using h0
    obtain rfl : RadioStatus.ok = st2 := by simpa [hscript, RadioCall.status] using h1
    simp [hst, hadv]
  · obtain rfl : RadioStatus.fail = st1 := by simpa [hscript, RadioCall.status] using h0
    simp [hst, hadv, hlog]
  · obtain rfl : RadioStatus.ok = st1 := by simpa [hscript, RadioCall.status] using h0
    obtain rfl : RadioStatus.fail = st2 := by simpa [hscript, RadioCall.status] using h1
    simp [hst, hadv, hlog]

/-- Settles O46. -/
theorem tickInAdvertising : Obligations.TickInAdvertising := by
  intro now s hs ha
  have hexec := exec_tick_of_ok now s _ hs (tickBody_of_advertising now s ha)
  refine ⟨fun hover => ?elapsed, fun hlt => ?before⟩
  case elapsed =>
    rw [if_pos ((durationOver_iff s now).mpr hover), State.stopRadio_eq] at hexec
    refine ⟨_, _, _, _, hexec, fun hok => by rw [hok]; rfl, fun hnil => by simp [hnil], fun st sts hcons => ?_⟩
    rw [State.takeStatus_cons s st sts hcons]
    simp [hcons]
  case before =>
    rw [durationOver_of_lt now s hlt] at hexec
    exact hexec

/-- Settles O47. -/
theorem tickInGap : Obligations.TickInGap := by
  intro now s hs ha
  have hexec := exec_tick_of_ok now s _ hs (tickBody_of_gap now s ha)
  refine ⟨fun hover => ?elapsed, fun hlt => ?before⟩
  case elapsed =>
    rw [if_pos ((gapOver_iff s now).mpr hover)] at hexec
    exact hexec
  case before =>
    rw [gapOver_of_lt now s hlt] at hexec
    exact hexec

end Sys2Proof.Machine
end

section
/-! The queue operations and the framer (spec/46_queue_scheduler.md R115 to R122): what `exec` answers for Q_ENQUEUE and
ADV_FRAME, the queue after a run of offers, and where a held lock stops an operation. -/

namespace Sys2Proof.Machine

/-! ### Q_ENQUEUE -/

theorem exec_qEnqueue_of_ok (lightId : LightId) (payload : Bytes) (s t : State)
    (h : enqueue lightId payload s = .ok t) : exec (.qEnqueue lightId payload) s = .next (t.answer .nothing) := by
  change execQEnqueue lightId payload s = _
  rw [execQEnqueue, h, bind_ok]
  rfl

theorem enqueue_of_locked (lightId : LightId) (payload : Bytes) (s : State) (hq : s.qlock = true) :
    enqueue lightId payload s = .error (.fault .queueLockHeld) := by
  simp only [enqueue, State.acquire_of_held s hq, bind_error]

/-- R115: with the lock free an offer always ends well. -/
theorem enqueue_of_free (lightId : LightId) (payload : Bytes) (s : State) (hq : s.qlock = false) :
    ∃ t, enqueue lightId payload s = .ok t := by
  obtain hroom | hfull := Nat.lt_or_ge s.queue.length s.cfg.maxQueueSize
  · exact ⟨_, enqueue_of_room lightId payload s hq hroom⟩
  · exact ⟨_, enqueue_of_full lightId payload s hq hfull⟩

/-- Settles O36. -/
theorem qEnqueueAppendsAtTheTail : Obligations.QEnqueueAppendsAtTheTail := by
  intro lightId payload s hq hroom
  have hexec := exec_qEnqueue_of_ok lightId payload s _ (enqueue_of_room lightId payload s hq hroom)
  cases hc : s.clockReads with
  | nil =>
    rw [State.readClock_nil s hc] at hexec
    exact ⟨_, _, _, hexec, fun _ => ⟨hc, rfl⟩, fun _ _ h => by cases h⟩
  | cons c cs =>
    rw [State.readClock_cons s c cs hc] at hexec
    exact ⟨_, _, _, hexec, fun h => (by cases h), fun _ _ h => by cases h; exact ⟨rfl, rfl, rfl⟩⟩

/-- Settles O37. -/
theorem qEnqueueAtCapacityDropsTheNewest : Obligations.QEnqueueAtCapacityDropsTheNewest := by
  intro lightId payload s hq hfull
  exact exec_qEnqueue_of_ok lightId payload s _ (enqueue_of_full lightId payload s hq hfull)

/-! ### A run of offers -/

theorem execAll_cons (i : Instr) (is : List Instr) (s t : State) (h : exec i s = .next t) :
    execAll (i :: is) s = execAll is t := by
  rw [execAll, h]

/-- R116, R117: an offer keeps the payloads queued, and adds its own while there is room. -/
theorem enqueue_payloads (lightId : LightId) (payload : Bytes) (s t : State)
    (h : enqueue lightId payload s = .ok t) (hle : s.queue.length ≤ s.cfg.maxQueueSize) :
    t.queue.map Command.payload = (s.queue.map Command.payload ++ [payload]).take s.cfg.maxQueueSize := by
  obtain ⟨-, ⟨hfull, rfl⟩ | ⟨hroom, rfl⟩⟩ := enqueue_cases lightId payload s t h
  · have hlen : (s.queue.map Command.payload).length = s.cfg.maxQueueSize := by
      rw [List.length_map]
      exact Nat.le_antisymm hle hfull
    rw [← hlen, List.take_left]
    rfl
  · have hlen : (s.queue.map Command.payload ++ [payload]).length ≤ s.cfg.maxQueueSize := by
      simpa using hroom
    rw [List.take_of_length_le hlen, List.map_append]
    rfl

/-- Cutting a list before something is appended does not show in a cut at the same place. -/
theorem take_append_take {α : Type} (n : Nat) (l l' : List α) : (l.take n ++ l').take n = (l ++ l').take n := by
  simp only [List.take_append, List.take_take, Nat.min_self, List.length_take]
  congr 2
  omega

/-- FC's capacity law from any queue within its capacity. -/
theorem execAll_offers (offers : List (LightId × Bytes)) (s : State) (hq : s.qlock = false)
    (hle : s.queue.length ≤ s.cfg.maxQueueSize) :
    ∃ t, execAll (offers.map (fun o => .qEnqueue o.1 o.2)) s = .next t ∧
      t.queue.map Command.payload =
        (s.queue.map Command.payload ++ offers.map Prod.snd).take s.cfg.maxQueueSize := by
  induction offers generalizing s with
  | nil =>
    refine ⟨s, rfl, ?_⟩
    rw [List.map_nil, List.append_nil, List.take_of_length_le (by simpa using hle)]
  | cons o offers ih =>
    obtain ⟨s1, h1⟩ := enqueue_of_free o.1 o.2 s hq
    have hf := enqueue_frame o.1 o.2 s s1 h1
    have hcfg : s1.cfg = s.cfg := by rw [hf]
    have hlock : s1.qlock = false := by rw [hf]; exact hq
    have hp := enqueue_payloads o.1 o.2 s s1 h1 hle
    have hle1 : s1.queue.length ≤ s1.cfg.maxQueueSize := by
      rw [hcfg, ← List.length_map Command.payload, hp]
      exact List.length_take_le _ _
    obtain ⟨t, ht, hqueue⟩ := ih (s1.answer .nothing) hlock hle1
    refine ⟨t, ?_, ?_⟩
    · rw [List.map_cons, execAll_cons _ _ _ _ (exec_qEnqueue_of_ok o.1 o.2 s s1 h1), ht]
    · rw [hqueue, State.answer_queue, State.answer_cfg, hcfg, hp, take_append_take, List.append_assoc]
      rfl

/-- Settles O38: the run of offers, from an empty queue. -/
theorem queueRetainsTheOldest : Obligations.QueueRetainsTheOldest := by
  intro offers s hq hn
  obtain ⟨t, ht, hqueue⟩ := execAll_offers offers s hq (by simp [hn])
  exact ⟨t, ht, by simpa [hn] using hqueue⟩

/-! ### ADV_FRAME -/

/-- Settles O41. -/
theorem advFrameWrapsThePayload : Obligations.AdvFrameWrapsThePayload := by
  intro payload s
  refine ⟨fun hle => ⟨BitVec.ofNat 8 (3 + payload.length), ?_, ?_⟩, fun hgt => ?_⟩
  · rw [BitVec.toNat_ofNat]
    omega
  · change execAdvFrame payload s = _
    rw [execAdvFrame, advFrame_of_le s.cfg payload hle, bind_ok]
    rfl
  · change execAdvFrame payload s = _
    rw [execAdvFrame, advFrame_of_gt s.cfg payload hgt, bind_error]
    rfl

end Sys2Proof.Machine
end

section
/-! The light value mapper, the single-light framer and LIGHT_WRITE (spec/45_light_mapper.md R104 to R112): what `exec`
answers for each, within the operand limits and outside them. -/

namespace Sys2Proof

/-! ### Operands -/

/-- R28 (log 22): BOUND, by the twelve bits that are read. -/
theorem Config.isBound_iff (cfg : Config) (lightId : LightId) :
    cfg.isBound lightId = true ↔ lightId.extractLsb' 0 12 ∈ cfg.bound := by
  simp [Config.isBound, lightIdRead]

theorem Config.isBound_eq_false_iff (cfg : Config) (lightId : LightId) :
    cfg.isBound lightId = false ↔ lightId.extractLsb' 0 12 ∉ cfg.bound := by
  rw [← Config.isBound_iff, Bool.not_eq_true]

end Sys2Proof

namespace Sys2Proof.Machine

/-! ### LV_MAP -/

/-- Settles O26. -/
theorem lvMapOffIsOneZeroByte : Obligations.LvMapOffIsOneZeroByte := by
  intro x r g b s hx hr hg hb hr1 hg1 hb1
  exact exec_lvMap_of_inLimits false x r g b s hx hr hg hb hr1 hg1 hb1

/-- R47 (log 19): an operand with denominator 0 is no number. -/
theorem lvMap_of_notARational (isOn : Bool) (x r g b : Ratio) (h : x.den = 0 ∨ r.den = 0 ∨ g.den = 0 ∨ b.den = 0) :
    lvMap isOn x r g b = .error (.refusal .notARational) := by
  have hwf : (x.wf && r.wf && g.wf && b.wf) = false := by
    obtain h | h | h | h := h
    all_goals simp [Ratio.wf, h]
  simp only [lvMap, hwf, Bool.not_false, if_true]

/-- R105, R106: truncation of a product is the floor of the rational product. -/
theorem truncMul_eq_floor (q : Ratio) (n : Nat) : ⌊(q.num : ℚ) / (q.den : ℚ) * n⌋₊ = truncMul q n := by
  rw [div_mul_eq_mul_div, ← Nat.cast_mul, Nat.floor_div_eq_div, truncMul]

/-- R108: a number is zero where its numerator is. -/
theorem isZero_iff (q : Ratio) (h : q.den ≠ 0) : q.isZero = true ↔ (q.num : ℚ) / (q.den : ℚ) = 0 := by
  simp [Ratio.isZero, h]

/-- Settles O27. -/
theorem lvMapOnQuantises : Obligations.LvMapOnQuantises := by
  intro x r g b s hx hr hg hb hr1 hg1 hb1 q bq channel
  have hbq : BitVec.ofNat 8 (128 + bq) = brightnessByte x := by
    simp only [bq, q, brightnessByte, brightnessLevel, ← truncMul_eq_floor]
    rfl
  have hchannel : ∀ c, channel c = channelByte c := by
    intro c
    simp only [channel, q, channelByte, ← truncMul_eq_floor]
    rfl
  have hzero : (r.isZero && g.isZero && b.isZero) = true ↔ q r = 0 ∧ q g = 0 ∧ q b = 0 := by
    rw [Bool.and_eq_true, Bool.and_eq_true, isZero_iff r hr, isZero_iff g hg, isZero_iff b hb, and_assoc]
  rw [exec_lvMap_of_inLimits true x r g b s hx hr hg hb hr1 hg1 hb1, hbq]
  simp only [hchannel, ← hzero]
  rfl

/-! ### Fractions of one number -/

/-- R47 (log 19): the two pairs are fractions of one number. -/
def SameNumber (q q' : Ratio) : Prop := q.den ≠ 0 ∧ q'.den ≠ 0 ∧ q.num * q'.den = q'.num * q.den

theorem SameNumber.wf {q q' : Ratio} (h : SameNumber q q') : q.wf = q'.wf := by
  obtain ⟨hq, hq', -⟩ := h
  rw [Ratio.wf, Ratio.wf, bne_iff_ne.mpr hq, bne_iff_ne.mpr hq']

theorem SameNumber.isZero {q q' : Ratio} (h : SameNumber q q') : q.isZero = q'.isZero := by
  obtain ⟨hq, hq', he⟩ := h
  have : q.num = 0 ↔ q'.num = 0 := by
    constructor
    · intro h0
      simpa [h0, hq, eq_comm] using he
    · intro h0
      simpa [h0, hq', eq_comm] using he
  simpa [Ratio.isZero, Bool.beq_eq_decide_eq] using this

theorem SameNumber.aboveOne {q q' : Ratio} (h : SameNumber q q') : q.aboveOne = q'.aboveOne := by
  obtain ⟨hq, hq', he⟩ := h
  have : q.den < q.num ↔ q'.den < q'.num := by
    rw [← Nat.mul_lt_mul_right (Nat.pos_of_ne_zero hq'), he, ← Nat.mul_lt_mul_right (Nat.pos_of_ne_zero hq),
      Nat.mul_comm q.den]
    rw [Nat.mul_lt_mul_right (Nat.pos_of_ne_zero hq), Nat.mul_lt_mul_right (Nat.pos_of_ne_zero hq)]
  simpa [Ratio.aboveOne] using this

theorem SameNumber.truncMul {q q' : Ratio} (h : SameNumber q q') (n : Nat) : truncMul q n = truncMul q' n := by
  obtain ⟨hq, hq', he⟩ := h
  unfold Machine.truncMul
  rw [← Nat.mul_div_mul_right _ _ (Nat.pos_of_ne_zero hq'),
    ← Nat.mul_div_mul_right (q'.num * n) _ (Nat.pos_of_ne_zero hq), Nat.mul_right_comm, he, Nat.mul_right_comm,
    Nat.mul_comm q.den]

theorem lightData_congr (isOn : Bool) {x r g b x' r' g' b' : Ratio} (hx : SameNumber x x') (hr : SameNumber r r')
    (hg : SameNumber g g') (hb : SameNumber b b') : lightData isOn x r g b = lightData isOn x' r' g' b' := by
  simp only [lightData, lightDataOn, brightnessByte, brightnessLevel, channelByte, hx.truncMul, hr.truncMul, hg.truncMul,
    hb.truncMul, hr.isZero, hg.isZero, hb.isZero]

theorem lvMap_congr (isOn : Bool) {x r g b x' r' g' b' : Ratio} (hx : SameNumber x x') (hr : SameNumber r r')
    (hg : SameNumber g g') (hb : SameNumber b b') : lvMap isOn x r g b = lvMap isOn x' r' g' b' := by
  simp only [lvMap, hx.wf, hr.wf, hg.wf, hb.wf, hr.aboveOne, hg.aboveOne, hb.aboveOne,
    lightData_congr isOn hx hr hg hb]

/-- Settles O28: the limits, the zero test and the truncated products depend on the number only. -/
theorem lvMapDependsOnTheNumbersOnly : Obligations.LvMapDependsOnTheNumbersOnly := by
  intro isOn x r g b x' r' g' b' s h
  have hlv : lvMap isOn x r g b = lvMap isOn x' r' g' b' :=
    lvMap_congr isOn (h (x, x') (by simp)) (h (r, r') (by simp)) (h (g, g') (by simp)) (h (b, b') (by simp))
  change execLvMap isOn x r g b s = execLvMap isOn x' r' g' b' s
  rw [execLvMap, execLvMap, hlv]

/-! ### SLC_FRAME -/

theorem exec_slcFrame (lightId : LightId) (lightData : Bytes) (s : State) (h : lightData.length ≤ 14) :
    exec (.slcFrame lightId lightData) s =
      exec (.cmdEncode kindSingle lightId (formatSL s.cfg lightId lightData) true) s := by
  change execSlcFrame lightId lightData s = execCmdEncode kindSingle lightId (formatSL s.cfg lightId lightData) true s
  rw [execSlcFrame, slcFrame_of_le lightId lightData s h, execCmdEncode]

/-- R92: CMD_ENCODE completes, drawing a sequence value. -/
theorem exec_cmdEncode (kind : Kind) (lightId : LightId) (body : Bytes) (forward : Bool) (s : State) :
    ∃ (u : Units) (payload : Bytes),
      cmdEncode kind lightId body forward s = .ok (payload, { s with seq := seqNext s.seq, units := u }) ∧
      exec (.cmdEncode kind lightId body forward) s =
        .next (({ s with seq := seqNext s.seq, units := u } : State).answer (.bytes payload)) := by
  obtain ⟨u, hu, -⟩ := cmdEncode_eq kind lightId body forward s
  refine ⟨u, _, hu, ?_⟩
  change execCmdEncode kind lightId body forward s = _
  rw [execCmdEncode, hu, bind_ok]
  rfl

/-- R110: the two nibbles of the sub-header. -/
theorem subHeader0_high (cfg : Config) (m : Nat) (h : m ≤ 14) :
    ((subHeader0 cfg m).extractLsb' 4 4).toNat = m + 1 := by
  unfold subHeader0
  generalize cfg.ctrlType = c
  revert c
  interval_cases m <;> decide

theorem subHeader0_low (cfg : Config) (m : Nat) : (subHeader0 cfg m).extractLsb' 0 4 = cfg.ctrlType := by
  unfold subHeader0
  apply BitVec.eq_of_getLsbD_eq
  intro i hi
  have hi8 : i < 8 := by omega
  simp [hi, hi8]

/-- Settles O30. -/
theorem slcFrameIsAnEncodedSingleLightFrame : Obligations.SlcFrameIsAnEncodedSingleLightFrame := by
  intro lightId d s hd
  obtain ⟨u, payload, -, hexec⟩ := exec_cmdEncode kindSingle lightId (formatSL s.cfg lightId d) true s
  refine ⟨subHeader0 s.cfg d.length, _, _, _, (exec_slcFrame lightId d s hd).trans hexec, hexec,
    subHeader0_high s.cfg d.length hd, subHeader0_low s.cfg d.length, rfl, ?_⟩
  simp [formatSL, lightIdLow, Nat.add_comm 2]

/-! ### LIGHT_WRITE -/

theorem exec_lightWrite_of_ok (lightId : LightId) (isOn : Bool) (x r g b : Ratio) (s t : State)
    (h : lightWrite lightId isOn x r g b s = .ok t) :
    exec (.lightWrite lightId isOn x r g b) s = .next (t.answer .nothing) := by
  change execLightWrite lightId isOn x r g b s = _
  rw [execLightWrite, h, bind_ok]
  rfl

theorem exec_lightWrite_of_error (lightId : LightId) (isOn : Bool) (x r g b : Ratio) (s : State) (stop : Stop)
    (h : lightWrite lightId isOn x r g b s = .error stop) :
    exec (.lightWrite lightId isOn x r g b) s = conclude (.error stop) := by
  change execLightWrite lightId isOn x r g b s = _
  rw [execLightWrite, h, bind_error]

theorem lightWrite_of_unbound (lightId : LightId) (isOn : Bool) (x r g b : Ratio) (s : State)
    (hb : s.cfg.isBound lightId = false) :
    lightWrite lightId isOn x r g b s = .ok (s.raise (.missingController lightId)) := by
  simp only [lightWrite, hb]
  rfl

theorem lightWrite_of_bound (lightId : LightId) (isOn : Bool) (x r g b : Ratio) (s : State)
    (hb : s.cfg.isBound lightId = true) :
    lightWrite lightId isOn x r g b s =
      (lightEncode lightId isOn x r g b s >>= fun p => enqueue lightId p.1 p.2) := by
  simp only [lightWrite, hb]
  rfl

/-- R112: within the operand limits the part before the Q_ENQUEUE is SLC_FRAME of the light data. -/
theorem lightEncode_of_inLimits (lightId : LightId) (isOn : Bool) (x r g b : Ratio) (s : State) (hx : x.den ≠ 0)
    (hr : r.den ≠ 0) (hg : g.den ≠ 0) (hb : b.den ≠ 0) (hr1 : r.num ≤ r.den) (hg1 : g.num ≤ g.den)
    (hb1 : b.num ≤ b.den) :
    ∃ (u : Units) (payload : Bytes),
      lightEncode lightId isOn x r g b s = .ok (payload, { s with seq := seqNext s.seq, units := u }) ∧
      exec (.slcFrame lightId (lightData isOn x r g b)) s =
        .next (({ s with seq := seqNext s.seq, units := u } : State).answer (.bytes payload)) := by
  have hlen : (lightData isOn x r g b).length ≤ 14 :=
    (lightData_length_le isOn x r g b).trans (by decide)
  obtain ⟨u, payload, hu, hexec⟩ :=
    exec_cmdEncode kindSingle lightId (formatSL s.cfg lightId (lightData isOn x r g b)) true s
  refine ⟨u, payload, ?_, (exec_slcFrame lightId _ s hlen).trans hexec⟩
  rw [lightEncode, lvMap_of_inLimits isOn x r g b hx hr hg hb hr1 hg1 hb1, bind_ok,
    slcFrame_of_le lightId _ s hlen, hu]

/-- R48, R112: where LV_MAP stops, so do its operation and a LIGHT_WRITE to a bound light. -/
theorem exec_of_lvMap_error (isOn : Bool) (x r g b : Ratio) (s : State) (stop : Stop)
    (h : lvMap isOn x r g b = .error stop) :
    exec (.lvMap isOn x r g b) s = conclude (.error stop) ∧
      ∀ lightId : LightId, lightId.extractLsb' 0 12 ∈ s.cfg.bound →
        exec (.lightWrite lightId isOn x r g b) s = conclude (.error stop) := by
  refine ⟨?_, fun lightId hbound => ?_⟩
  · change execLvMap isOn x r g b s = _
    rw [execLvMap, h, bind_error]
  · apply exec_lightWrite_of_error
    rw [lightWrite_of_bound lightId isOn x r g b s ((s.cfg.isBound_iff lightId).mpr hbound), lightEncode, h, bind_error,
      bind_error]

/-- Settles O31. -/
theorem operandLimitsAreRefused : Obligations.OperandLimitsAreRefused := by
  refine ⟨fun lightId d s hd => ?tooLong, fun isOn x r g b s hx hr hg hb h => ?aboveOne, fun isOn x r g b s h => ?zeroDen⟩
  case tooLong =>
    change execSlcFrame lightId d s = _
    simp only [execSlcFrame, slcFrame, hd, if_true, bind_error, conclude_refusal]
  case aboveOne => exact exec_of_lvMap_error isOn x r g b s _ (lvMap_of_aboveOne isOn x r g b hx hr hg hb h)
  case zeroDen => exact exec_of_lvMap_error isOn x r g b s _ (lvMap_of_notARational isOn x r g b h)

/-- Settles O32. -/
theorem lightWriteIsMapThenFrameThenEnqueue : Obligations.LightWriteIsMapThenFrameThenEnqueue := by
  intro lightId isOn x r g b s hbound hq hx hr hg hb hr1 hg1 hb1
  obtain ⟨u, payload, hu, hslc⟩ := lightEncode_of_inLimits lightId isOn x r g b s hx hr hg hb hr1 hg1 hb1
  obtain ⟨t, ht⟩ := enqueue_of_free lightId payload { s with seq := seqNext s.seq, units := u } hq
  have hwrite : lightWrite lightId isOn x r g b s = .ok t := by
    rw [lightWrite_of_bound lightId isOn x r g b s hbound, hu, bind_ok, ht]
  exact ⟨lightData isOn x r g b, payload, seqNext s.seq, u, t.answer .nothing,
    exec_lvMap_of_inLimits isOn x r g b s hx hr hg hb hr1 hg1 hb1, hslc,
    exec_lightWrite_of_ok lightId isOn x r g b s t hwrite, exec_qEnqueue_of_ok lightId payload _ t ht⟩

/-- Settles O33. -/
theorem lightWriteToAnUnboundLight : Obligations.LightWriteToAnUnboundLight := by
  intro lightId isOn x r g b s hb
  exact exec_lightWrite_of_ok lightId isOn x r g b s _
    (lightWrite_of_unbound lightId isOn x r g b s ((s.cfg.isBound_eq_false_iff lightId).mpr hb))

/-- R52, R111: the framed data is padded up to SLC_PAD_LEN. -/
theorem formatSL_length (cfg : Config) (lightId : LightId) (lightData : Bytes) :
    (formatSL cfg lightId lightData).length = max (2 + lightData.length) cfg.slcPadLen := by
  simp only [formatSL, List.length_append, List.length_cons, List.length_nil, List.length_replicate]
  omega

/-- Settles O35: at most 6 bytes of light data frame to at most 12, CMD_ENCODE adds 12, ADV_FRAME adds 7. -/
theorem singleLightPayloadsFitAnAdvertisement : Obligations.SingleLightPayloadsFitAnAdvertisement := by
  intro lightId isOn x r g b s d payload t hpad hlv hslc
  have hd := lvMap_length isOn x r g b d hlv
  obtain ⟨-, hlen, -⟩ := slcFrame_cases lightId d s _ hslc
  have hpayload : payload.length ≤ 24 := by
    rw [formatSL_length] at hlen
    simp only at hlen
    omega
  refine ⟨hpayload, _, advFrame_of_le s.cfg payload hpayload, ?_⟩
  rw [formatAD_length]
  omega

/-! ### A held lock -/

/-- Settles O40. -/
theorem aHeldLockStopsTheQueue : Obligations.AHeldLockStopsTheQueue := by
  intro s hq
  refine ⟨fun lightId payload => ?enqueue, ?clear, fun lightId isOn x r g b hbound hx hr hg hb hr1 hg1 hb1 => ?write,
    fun now hs ha => ?tick⟩
  case enqueue =>
    change execQEnqueue lightId payload s = _
    rw [execQEnqueue, enqueue_of_locked lightId payload s hq, bind_error]
    rfl
  case clear =>
    change execQClear s = _
    simp only [execQClear, clearQueue, State.acquire_of_held s hq, bind_error, conclude_fault]
  case write =>
    obtain ⟨u, payload, hu, -⟩ := lightEncode_of_inLimits lightId isOn x r g b s hx hr hg hb hr1 hg1 hb1
    have hlock := enqueue_of_locked lightId payload { s with seq := seqNext s.seq, units := u } hq
    refine exec_lightWrite_of_error lightId isOn x r g b s (.fault .queueLockHeld) ?_
    rw [lightWrite_of_bound lightId isOn x r g b s hbound, hu, bind_ok, hlock]
  case tick => exact exec_tick_of_error now s _ hs (tickBody_of_idle_locked now s ha hq)

end Sys2Proof.Machine
end

section
/-! The host port (spec/30_encoding.md R59, spec/20_memory.md R38 to R42, spec/70_reset_and_hazards.md R171, R173): what a
step does for each move, requests in pieces and as a whole, and what is in progress running to its end. -/

namespace Sys2Proof.Machine

/-! ### One step -/

theorem step_of_move (s : State) (a : HostAction) (rest : List HostAction) (h : s.host = a :: rest) :
    step s = runAction a { s with host := rest } := by
  simp only [step, stepHost, h]

theorem step_of_noMove (s : State) (h : s.host = []) : step s = drain s := by
  simp only [step, stepHost, h]

theorem serve_of_ok (q : Request) (i : Instr) (s : State) (h : decode q = .ok i) : serve q s = exec i s := by
  simp only [serve, h]

theorem serve_of_error (q : Request) (e : DecodeError) (s : State) (h : decode q = .error e) :
    serve q s = .refused (.badRequest e) := by
  simp only [serve, h]

/-- R38, R41: every operation but TICK and LIGHT_WRITE is one atomic action. -/
theorem start_of_oneAction (context : Nat) (q : Request) (i : Instr) (s : State) (hc : context ∉ s.contextsInProgress)
    (hd : decode q = .ok i) (ht : i.op ≠ .tick) (hw : i.op ≠ .lightWrite) : start context q s = exec i s := by
  simp only [start, hc, if_false, hd]
  cases i
  case tick now => exact absurd rfl ht
  case lightWrite l on x r g b => exact absurd rfl hw
  all_goals rfl

theorem start_tick (context : Nat) (now : Time) (s : State) (hc : context ∉ s.contextsInProgress) :
    start context (encode (.tick now)) s = conclude (startTick context now s) := by
  simp only [start, hc, if_false, decode_encode_tick]

theorem start_lightWrite (context : Nat) (lightId : LightId) (isOn : Bool) (x r g b : Ratio) (s : State)
    (hwf : (Instr.lightWrite lightId isOn x r g b).wf = true) (hc : context ∉ s.contextsInProgress) :
    start context (encode (.lightWrite lightId isOn x r g b)) s =
      conclude (startWrite context lightId isOn x r g b s) := by
  simp only [start, hc, if_false, decode_encode _ hwf]

theorem drain_of_tick (s : State) (h : s.tickInProgress ≠ none) : drain s = .next (resumeTick s) := by
  cases hp : s.tickInProgress with
  | none => exact absurd hp h
  | some p => simp only [drain, resumeTick, hp]

theorem drain_of_write (s : State) (w : PendingWrite) (ws : List PendingWrite) (ht : s.tickInProgress = none)
    (hw : s.writesInProgress = w :: ws) : drain s = conclude (resumeWrite w.context s) := by
  simp only [drain, ht, hw]

theorem drain_of_nothing (s : State) (ht : s.tickInProgress = none) (hw : s.writesInProgress = []) :
    drain s = .next s := by
  simp only [drain, ht, hw]

/-- Settles O5: a step runs its move, and each move is what the lemmas above say. -/
theorem stepRunsTheRequestedOperation : Obligations.StepRunsTheRequestedOperation := by
  refine ⟨fun s q i rest hh hd => ?request, fun s context q i rest hh hc hd ht hw => ?start,
    fun s q e rest hh hd => ?badRequest, fun s rest hh => ?resumeTick, fun s context rest hh => ?resumeWrite,
    fun s hh ht hw => ?atRest, fun s hh ht => ?drainTick, fun s w ws hh ht hw => ?drainWrite⟩
  case request => exact (step_of_move s _ rest hh).trans (serve_of_ok q i _ hd)
  case start => exact (step_of_move s _ rest hh).trans (start_of_oneAction context q i _ hc hd ht hw)
  case badRequest => exact (step_of_move s _ rest hh).trans (serve_of_error q e _ hd)
  case resumeTick => exact step_of_move s _ rest hh
  case resumeWrite => exact step_of_move s _ rest hh
  case atRest => exact (step_of_noMove s hh).trans (drain_of_nothing s ht hw)
  case drainTick => exact (step_of_noMove s hh).trans (drain_of_tick s ht)
  case drainWrite => exact (step_of_noMove s hh).trans (drain_of_write s w ws ht hw)

/-- Settles O34. -/
theorem setupReportsAnUnboundLight : Obligations.SetupReportsAnUnboundLight := by
  intro lightId rest s hh
  have hstep : step s = .next (setupLight lightId { s with host := rest }) := step_of_move s _ rest hh
  obtain ⟨hb, h⟩ | ⟨hb, h⟩ := setupLight_cases lightId { s with host := rest }
  · have hmem := (s.cfg.isBound_iff lightId).mp hb
    exact ⟨fun hnot => absurd hmem hnot, fun _ => hstep.trans (congrArg _ h)⟩
  · have hnot := (s.cfg.isBound_eq_false_iff lightId).mp hb
    exact ⟨fun _ => hstep.trans (congrArg _ h), fun hmem => absurd hmem hnot⟩

/-- Settles O48. -/
theorem whereATickStops : Obligations.WhereATickStops := by
  refine ⟨fun now s cmd rest hs hq ha hn hl => ?tooLong, fun now s p hp => ⟨?whole, fun context rest hh hc => ?started⟩,
    fun s context q rest hh hbusy => ?busy⟩
  case tooLong => exact exec_tick_of_error now s _ hs (tickBody_of_idle_tooLong now s cmd rest ha hq hn hl)
  case whole => exact exec_tick_of_overlap now s p hp
  case started =>
    have hstart := start_tick context now { s with host := rest } hc
    rw [step_of_move s _ rest hh, runAction, hstart]
    simp only [startTick, hp, conclude_fault]
  case busy =>
    refine (step_of_move s _ rest hh).trans (start_of_busy context q _ ?_)
    rw [State.contextsInProgress_host, State.mem_contextsInProgress]
    obtain ⟨activity, hp⟩ | ⟨lightId, payload, hw⟩ := hbusy
    · exact .inl ⟨_, hp, rfl⟩
    · exact .inr ⟨_, hw, rfl⟩

/-! ### What is in progress runs to its end -/

/-- R40: how many atomic actions a TICK in progress has left, a failed call apart. -/
def TickActivity.actionsLeft : TickActivity → Nat
  | .configure _ _ => 4
  | .startRadio _ => 3
  | .setState _ _ => 2
  | .setTime _ => 1

/-- How many atomic actions are left of all that is in progress. -/
def State.actionsLeft (s : State) : Nat :=
  (s.tickInProgress.elim 0 fun p => p.activity.actionsLeft) + s.writesInProgress.length

theorem TickActivity.actionsLeft_pos (a : TickActivity) : 0 < a.actionsLeft := by
  cases a <;> exact Nat.succ_pos _

theorem State.actionsLeft_eq_zero (s : State) (h : s.actionsLeft = 0) :
    s.tickInProgress = none ∧ s.writesInProgress = [] := by
  obtain ⟨ht, hw⟩ := Nat.add_eq_zero_iff.mp h
  refine ⟨?_, List.length_eq_zero_iff.mp hw⟩
  cases hp : s.tickInProgress with
  | none => rfl
  | some p =>
    rw [hp] at ht
    exact absurd ht p.activity.actionsLeft_pos.ne'

/-- A resume leaves the TICK in progress fewer actions. -/
theorem runTick_actionsLeft (p : PendingTick) (s : State) :
    ((runTick p s).tickInProgress.elim 0 fun p => p.activity.actionsLeft) < p.activity.actionsLeft := by
  obtain ⟨now, f, ha, ⟨-, h⟩ | ⟨-, h⟩⟩ | ⟨now, ha, ⟨-, h⟩ | ⟨-, h⟩⟩ | ⟨a, now, ha, h⟩ | ⟨now, ha, h⟩ :=
    runTick_cases p s
  all_goals
    rw [h, ha]
    simp [TickActivity.actionsLeft]

/-- With no move left, the lock free and something in progress, a step completes an action of it. -/
theorem step_actionsLeft (s : State) (hh : s.host = []) (hq : s.qlock = false) (h : s.actionsLeft ≠ 0) :
    ∃ t, step s = .next t ∧ t.host = [] ∧ t.qlock = false ∧ t.actionsLeft < s.actionsLeft := by
  rw [step_of_noMove s hh]
  cases hp : s.tickInProgress with
  | some p =>
    obtain ⟨-, -, -, hlock, -, hhost, -, hwrites⟩ := runTick_frame p s
    have hless := runTick_actionsLeft p s
    rw [drain_of_tick s (by simp [hp]), resumeTick_of_some s p hp]
    refine ⟨_, rfl, hhost.trans hh, hlock.trans hq, ?_⟩
    rw [State.actionsLeft, State.actionsLeft, hwrites, hp]
    exact Nat.add_lt_add_right hless _
  | none =>
    cases hw : s.writesInProgress with
    | nil => simp [State.actionsLeft, hp, hw] at h
    | cons w ws =>
      obtain ⟨s1, h1⟩ := enqueue_of_free w.lightId w.payload s hq
      have hf := enqueue_frame w.lightId w.payload s s1 h1
      have hpending : s.pendingWrite w.context = some w := by simp [State.pendingWrite, hw]
      rw [drain_of_write s w ws hp hw]
      refine ⟨({ s1 with writesInProgress := s1.writesInProgress.erase w } : State).answer .nothing, ?_, ?_, ?_, ?_⟩
      · simp only [resumeWrite, hpending, h1, bind_ok]
        rfl
      · rw [hf]
        exact hh
      · rw [hf]
        exact hq
      · rw [hf]
        simp [State.actionsLeft, hp, hw]

/-- R173: what is in progress ends in some number of steps. -/
theorem run_to_end (n : Nat) (s : State) (hn : s.actionsLeft ≤ n) (hh : s.host = []) (hq : s.qlock = false) :
    ∃ m t, run m s = .next t ∧ t.tickInProgress = none ∧ t.writesInProgress = [] ∧ step t = .next t := by
  induction n generalizing s with
  | zero =>
    obtain ⟨ht, hw⟩ := s.actionsLeft_eq_zero (Nat.le_zero.mp hn)
    exact ⟨0, s, rfl, ht, hw, (step_of_noMove s hh).trans (drain_of_nothing s ht hw)⟩
  | succ n ih =>
    by_cases h : s.actionsLeft = 0
    · exact ih s (by omega) hh hq
    · obtain ⟨s1, h1, hh1, hq1, hless⟩ := step_actionsLeft s hh hq h
      obtain ⟨m, t, hm, hend⟩ := ih s1 (by omega) hh1 hq1
      refine ⟨m + 1, t, ?_, hend⟩
      rw [run, h1]
      exact hm

/-- Settles O57. -/
theorem aTickInPiecesIsTheTick : Obligations.ATickInPiecesIsTheTick := by
  refine ⟨fun context now s t hc h => ?pieces, fun s hh hq => run_to_end s.actionsLeft s le_rfl hh hq⟩
  obtain ⟨s1, hs, h1, rfl⟩ := exec_tick_cases now s t h
  obtain ⟨s2, k, h2, hk, hends⟩ := startTick_of_tickBody context now s s1 hs h1
  exact ⟨s2, k, by rw [start_tick context now s hc, h2, conclude_ok], hk, hends⟩

/-! ### A LIGHT_WRITE in pieces -/

/-- An offer does not look at the LIGHT_WRITEs in progress. -/
theorem enqueue_withWrites (lightId : LightId) (payload : Bytes) (s t : State) (ws : List PendingWrite)
    (h : enqueue lightId payload s = .ok t) :
    enqueue lightId payload { s with writesInProgress := ws } = .ok { t with writesInProgress := ws } := by
  obtain ⟨hq, ⟨hfull, rfl⟩ | ⟨hroom, rfl⟩⟩ := enqueue_cases lightId payload s t h
  · exact enqueue_of_full lightId payload _ hq hfull
  · rw [enqueue_of_room lightId payload { s with writesInProgress := ws } hq hroom]
    cases hc : s.clockReads with
    | nil => simp only [State.readClock_nil, hc]
    | cons c cs => simp only [State.readClock, hc]

/-- The write a context has just begun is the one found for it. -/
theorem pendingWrite_of_new (s : State) (w : PendingWrite) (hc : w.context ∉ s.contextsInProgress) :
    ({ s with writesInProgress := s.writesInProgress ++ [w] } : State).pendingWrite w.context = some w := by
  have hnone : s.writesInProgress.find? (fun v => v.context == w.context) = none := by
    rw [List.find?_eq_none]
    intro v hv hvw
    exact hc ((s.mem_contextsInProgress _).mpr (.inr ⟨v, hv, by simpa using hvw⟩))
  simp [State.pendingWrite, List.find?_append, hnone]

/-- R42: the second atomic action of a LIGHT_WRITE just begun ends it as its Q_ENQUEUE ends. -/
theorem resumeWrite_of_new (s t : State) (w : PendingWrite) (hc : w.context ∉ s.contextsInProgress)
    (h : enqueue w.lightId w.payload s = .ok t) :
    resumeWrite w.context { s with writesInProgress := s.writesInProgress ++ [w] } = .ok (t.answer .nothing) := by
  have hnew : w ∉ s.writesInProgress := fun hw => hc ((s.mem_contextsInProgress _).mpr (.inr ⟨w, hw, rfl⟩))
  have herase : (s.writesInProgress ++ [w]).erase w = s.writesInProgress := by
    rw [List.erase_append_right _ hnew, List.erase_cons_head, List.append_nil]
  have hwrites : s.writesInProgress = t.writesInProgress := by rw [enqueue_frame _ _ s t h]
  simp only [resumeWrite, pendingWrite_of_new s w hc, enqueue_withWrites _ _ s t _ h, bind_ok, herase]
  rw [hwrites]
  rfl

/-- Settles O58. -/
theorem aLightWriteInPiecesIsTheLightWrite : Obligations.ALightWriteInPiecesIsTheLightWrite := by
  intro context lightId isOn x r g b s t hwf hc h
  rw [start_lightWrite context lightId isOn x r g b s hwf hc]
  obtain ⟨s1, hs1, ht⟩ := (bind_eq_ok _ _ _).mp ((conclude_eq_next _ t).mp h)
  cases ht
  obtain ⟨hb, rfl⟩ | ⟨hb, payload, u, -, hencode, henq⟩ := lightWrite_cases lightId isOn x r g b s s1 hs1
  · refine ⟨(s.raise (.missingController lightId)).answer .nothing, ?_, fun _ => rfl, fun hbound => ?_⟩
    · simp only [startWrite, hb]
      rfl
    · rw [hb] at hbound
      cases hbound
  · refine ⟨{ s with
      seq := seqNext s.seq
      units := u
      writesInProgress := s.writesInProgress ++ [⟨context, lightId, payload⟩] }, ?_, fun hnot => ?_, fun _ =>
        ⟨resumeWrite_of_new { s with seq := seqNext s.seq, units := u } s1 ⟨context, lightId, payload⟩ hc henq, rfl,
          payload, rfl⟩⟩
    · simp only [startWrite, hb, hencode, bind_ok]
      rfl
    · rw [hb] at hnot
      cases hnot

/-! ### An offer during a TICK -/

/-- R117 with a scripted clock value, as one update. -/
def State.offered (s : State) (payload : Bytes) (c : Time) (cs : List Time) : State :=
  { s with queue := s.queue ++ [⟨payload, c, 0⟩], clockReads := cs, results := s.results ++ [.nothing] }

theorem exec_qEnqueue_of_scripted (lightId : LightId) (payload : Bytes) (s : State) (c : Time) (cs : List Time)
    (hq : s.qlock = false) (hroom : s.queue.length < s.cfg.maxQueueSize) (hc : s.clockReads = c :: cs) :
    exec (.qEnqueue lightId payload) s = .next (s.offered payload c cs) := by
  rw [exec_qEnqueue_of_ok lightId payload s _ (enqueue_of_room lightId payload s hq hroom), State.readClock_cons s c cs hc]
  rfl

theorem configureRadio_offered (s : State) (payload : Bytes) (c : Time) (cs : List Time) (frame : Bytes) :
    (s.offered payload c cs).configureRadio frame =
      ((s.configureRadio frame).1, (s.configureRadio frame).2.offered payload c cs) := by
  simp only [State.configureRadio_eq]
  rw [State.takeStatus_fst_congr (s.offered payload c cs) s rfl rfl]
  rfl

theorem startRadio_offered (s : State) (payload : Bytes) (c : Time) (cs : List Time) :
    (s.offered payload c cs).startRadio = (s.startRadio.1, s.startRadio.2.offered payload c cs) := by
  simp only [State.startRadio_eq]
  rw [State.takeStatus_fst_congr (s.offered payload c cs) s rfl rfl]
  rfl

/-- R133: no action of a TICK in progress looks at the queue's tail, the clock or the results. -/
theorem runTick_offered (p : PendingTick) (s : State) (payload : Bytes) (c : Time) (cs : List Time) :
    runTick p (s.offered payload c cs) = (runTick p s).offered payload c cs := by
  obtain ⟨context, activity⟩ := p
  cases activity with
  | configure now frame =>
    simp only [runTick, configureRadio_offered]
    cases (s.configureRadio frame).1 <;> rfl
  | startRadio now =>
    simp only [runTick, startRadio_offered]
    cases s.startRadio.1 <;> rfl
  | setState target now => rfl
  | setTime now => rfl

/-- Settles O59. -/
theorem enqueueCommutesWithATickInProgress : Obligations.EnqueueCommutesWithATickInProgress := by
  intro lightId payload s p hp hq hroom hclock
  obtain ⟨c, cs, hc⟩ := List.exists_cons_of_ne_nil hclock
  obtain ⟨hcfg, -, hqueue, hlock, -, -, hreads, -⟩ := runTick_frame p s
  refine ⟨s.offered payload c cs, exec_qEnqueue_of_scripted lightId payload s c cs hq hroom hc, ?_⟩
  rw [resumeTick_of_some s p hp, resumeTick_of_some (s.offered payload c cs) p hp, runTick_offered]
  exact exec_qEnqueue_of_scripted lightId payload (runTick p s) c cs (hlock.trans hq)
    (by rwa [hcfg, hqueue]) (hreads.trans hc)

end Sys2Proof.Machine
end

section
/-! Bit reversal (spec/40_bitrev.md R64, R66) and the CRC engine (spec/41_crc16.md R68 to R74). -/

namespace Sys2Proof.Machine

/-! ### The reversals -/

theorem exec_rev16 (h : Half) (s : State) : exec (.rev16 h) s = .next (s.answer (.half (rev16 h))) := rfl

/-- R64: each byte reversed, and the two exchanged. -/
theorem rev16_eq_append (h : Half) : rev16 h = rev8 (h.extractLsb' 0 8) ++ rev8 (h.extractLsb' 8 8) := by
  apply BitVec.eq_of_getLsbD_eq
  intro i hi
  rw [getLsbD_rev16 h i hi, BitVec.getLsbD_append]
  by_cases hlow : i < 8
  · have hbyte : 7 - i < 8 := by omega
    have hindex : 8 + (7 - i) = 15 - i := by omega
    rw [if_pos hlow, getLsbD_rev8 _ i hlow, BitVec.getLsbD_extractLsb', hindex]
    simp [hbyte]
  · have hhigh : i - 8 < 8 := by omega
    have hbyte : 15 - i < 8 := by omega
    have hindex : 7 - (i - 8) = 15 - i := by omega
    rw [if_neg hlow, getLsbD_rev8 _ (i - 8) hhigh, hindex, BitVec.getLsbD_extractLsb', Nat.zero_add]
    simp [hbyte]

/-- Settles O7. -/
theorem rev16ReversesTheBits : Obligations.Rev16ReversesTheBits := by
  intro h s
  exact ⟨rev16 h, exec_rev16 h s, getLsbD_rev16 h, rev16_eq_append h⟩

theorem rev8_involutive : Function.Involutive rev8 := by
  intro b
  apply BitVec.eq_of_getLsbD_eq
  intro i hi
  rw [getLsbD_rev8 _ i hi, getLsbD_rev8 _ (7 - i) (by omega), show 7 - (7 - i) = i by omega]

theorem rev16_involutive : Function.Involutive rev16 := by
  intro h
  apply BitVec.eq_of_getLsbD_eq
  intro i hi
  rw [getLsbD_rev16 _ i hi, getLsbD_rev16 _ (15 - i) (by omega), show 15 - (15 - i) = i by omega]

theorem byteRev_involutive : Function.Involutive byteRev := List.reverse_reverse

theorem rev8_xor (a b : Byte) : rev8 (a ^^^ b) = rev8 a ^^^ rev8 b := by
  apply BitVec.eq_of_getLsbD_eq
  intro i hi
  rw [BitVec.getLsbD_xor, getLsbD_rev8 _ i hi, getLsbD_rev8 _ i hi, getLsbD_rev8 _ i hi, BitVec.getLsbD_xor]

theorem rev16_xor (a b : Half) : rev16 (a ^^^ b) = rev16 a ^^^ rev16 b := by
  apply BitVec.eq_of_getLsbD_eq
  intro i hi
  rw [BitVec.getLsbD_xor, getLsbD_rev16 _ i hi, getLsbD_rev16 _ i hi, getLsbD_rev16 _ i hi, BitVec.getLsbD_xor]

/-- A complement is an exclusive or with all ones, which their own reversal is. -/
theorem rev16_not (h : Half) : rev16 (~~~h) = ~~~(rev16 h) := by
  have hones : rev16 (BitVec.allOnes 16) = BitVec.allOnes 16 := by decide
  rw [← BitVec.xor_allOnes, ← BitVec.xor_allOnes, rev16_xor, hones]

/-- Settles O9. -/
theorem reversalLaws : Obligations.ReversalLaws :=
  ⟨rev8_involutive, rev16_involutive, byteRev_involutive, rev8_involutive.bijective, rev16_involutive.bijective,
    byteRev_involutive.bijective, rev8_xor, rev16_xor, rev16_not⟩

/-! ### The accumulator -/

theorem exec_crc16 (address data : Bytes) (s : State) :
    exec (.crc16 address data) s =
      .next (({ s with units := s.units.runCrc s.cfg.round address data } : State).answer
        (.half (crcFinal (s.units.runCrc s.cfg.round address data).crcAcc))) := rfl

/-- R69: what FOLD does to the accumulator: the byte into the upper half, then four rounds. -/
def foldAcc (round : CrcRound) (acc : Half) (x : Byte) : Half :=
  (fun a => (round a).2)^[4] (acc ^^^ (x.setWidth 16 <<< 8))

theorem foldl_crcFold_acc (round : CrcRound) (xs : Bytes) (c : CrcRegs) :
    (xs.foldl (crcFold round) c).acc = xs.foldl (foldAcc round) c.acc :=
  (List.foldl_hom CrcRegs.acc fun _ _ => rfl).symm

/-- R68, R71, R72: the accumulator after the address, last byte first, and the data through REV8. -/
theorem crcRun_acc_eq (round : CrcRound) (address data : Bytes) (tmp : Half) :
    (crcRun round address data tmp).acc =
      (byteRev address ++ data.map rev8).foldl (foldAcc round) 0xFFFF := by
  rw [List.foldl_append, crcRun, ← foldl_crcFold_acc round (byteRev address) ⟨0xFFFF, tmp⟩, ← foldl_crcFold_acc,
    List.foldl_map]

/-- Settles O10. -/
theorem crc16FoldsAddressThenData : Obligations.Crc16FoldsAddressThenData := by
  refine ⟨fun address data s => ?run, fun round => ?configured, fun cfg h acc => ?default⟩
  case run =>
    refine ⟨_, _, exec_crc16 address data s, ?_, runCrc_final s.cfg.round address data s.units ▸ rfl⟩
    refine (crcRun_acc_eq s.cfg.round address data s.units.crcTmp).trans ?_
    rw [List.foldl_append, List.foldl_map]
    rfl
  case configured =>
    obtain ⟨cfg, hcfg⟩ := Config.engine_surjective ⟨fun acc => (0, round acc), whWiring⟩
    have hround : cfg.round = fun acc => (0, round acc) := congrArg Engine.round hcfg
    exact ⟨cfg, fun acc => by rw [hround]⟩
  case default =>
    rw [Config.round_default cfg h]
    rfl

/-! ### One step of the shift register -/

/-- R70, R74 (b): one step: a shift, and the constant where a one was shifted out. -/
def crcBit (acc : Half) : Half := if acc.getLsbD 15 then (acc <<< 1) ^^^ 0x1021 else acc <<< 1

/-- R70, R74 (b): a round is two steps, and four rounds are the eight steps of a byte. -/
theorem foldAcc_crcRound (acc : Half) (x : Byte) :
    foldAcc crcRound acc x = crcBit^[8] (acc ^^^ (x.setWidth 16 <<< 8)) := rfl

/-- Settles O11. -/
theorem crcIsTheBitwiseProcedure : Obligations.CrcIsTheBitwiseProcedure := by
  intro address data tmp
  rw [crcRun_acc_eq]
  rfl

theorem crcBit_eq (acc : Half) : crcBit acc = (acc <<< 1) ^^^ (if acc.getLsbD 15 then 0x1021 else 0) := by
  unfold crcBit
  split <;> simp

/-- R74: the step is linear over exclusive or. -/
theorem crcBit_xor (a b : Half) : crcBit (a ^^^ b) = crcBit a ^^^ crcBit b := by
  have hconst : ∀ p q : Bool, (if (p ^^ q) then (0x1021 : Half) else 0) =
      (if p then 0x1021 else 0) ^^^ (if q then 0x1021 else 0) := by decide
  rw [crcBit_eq, crcBit_eq a, crcBit_eq b, BitVec.shiftLeft_xor_distrib, BitVec.getLsbD_xor, hconst]
  ac_rfl

/-- The bit shifted out comes back as bit 0 of the constant. -/
theorem getLsbD_zero_crcBit (acc : Half) : (crcBit acc).getLsbD 0 = acc.getLsbD 15 := by
  rw [crcBit_eq, BitVec.getLsbD_xor]
  cases acc.getLsbD 15 <;> simp

/-- The step loses nothing. -/
theorem crcBit_injective : Function.Injective crcBit := by
  intro a b h
  have htop : a.getLsbD 15 = b.getLsbD 15 := by
    rw [← getLsbD_zero_crcBit, ← getLsbD_zero_crcBit, h]
  have hshift : a <<< 1 = b <<< 1 := by
    rw [crcBit_eq, crcBit_eq, htop] at h
    exact BitVec.xor_left_inj _ |>.mp h
  apply BitVec.eq_of_getLsbD_eq
  intro i hi
  obtain rfl | hlt : i = 15 ∨ i < 15 := by omega
  · exact htop
  · have hlt' : i + 1 < 16 := by omega
    have hbit := congrArg (fun v : Half => v.getLsbD (i + 1)) hshift
    simpa [hi, hlt'] using hbit

theorem crcBit_iterate_xor (n : Nat) (a b : Half) : crcBit^[n] (a ^^^ b) = crcBit^[n] a ^^^ crcBit^[n] b := by
  induction n generalizing a b with
  | zero => rfl
  | succ n ih => rw [Function.iterate_succ_apply, crcBit_xor, ih]; rfl

/-- A byte in the lower half moves up, nothing being shifted out on the way. -/
theorem crcBit_iterate_lowByte (n : Nat) (x : Byte) (h : n ≤ 8) :
    crcBit^[n] (x.setWidth 16) = x.setWidth 16 <<< n := by
  induction n with
  | zero => simp
  | succ n ih =>
    have htop : ((x.setWidth 16 : Half) <<< n).getLsbD 15 = false := by
      have hhigh : x.getLsbD (15 - n) = false := BitVec.getLsbD_of_ge x (15 - n) (by omega)
      simp [hhigh]
    rw [Function.iterate_succ_apply', ih (by omega), crcBit_eq, htop]
    simp [BitVec.shiftLeft_add]

/-! ### Two adjacent bytes -/

/-- U6: folding two bytes is sixteen steps from the accumulator with the two bytes in its halves. -/
theorem foldAcc_foldAcc (acc : Half) (x y : Byte) :
    foldAcc crcRound (foldAcc crcRound acc x) y =
      crcBit^[16] (acc ^^^ (x.setWidth 16 <<< 8 ^^^ y.setWidth 16)) := by
  rw [foldAcc_crcRound, foldAcc_crcRound, ← crcBit_iterate_lowByte 8 y le_rfl, ← crcBit_iterate_xor,
    ← Function.iterate_add_apply, BitVec.xor_assoc]

theorem foldAcc_injective (x : Byte) : Function.Injective fun acc => foldAcc crcRound acc x := by
  intro a b h
  exact (BitVec.xor_left_inj _).mp (crcBit_injective.iterate 8 h)

theorem foldl_foldAcc_injective (xs : Bytes) : Function.Injective fun acc => xs.foldl (foldAcc crcRound) acc := by
  induction xs with
  | nil => exact Function.injective_id
  | cons x xs ih => exact ih.comp (foldAcc_injective x)

/-- Two bytes are determined by the half they make up. -/
theorem bytes_eq_of_xor_eq (x y x' y' : Byte)
    (h : (x.setWidth 16 <<< 8 ^^^ y.setWidth 16 : Half) = x'.setWidth 16 <<< 8 ^^^ y'.setWidth 16) :
    x = x' ∧ y = y' := by
  have hbit (i : Nat) := congrArg (fun v : Half => v.getLsbD i) h
  constructor
  · apply BitVec.eq_of_getLsbD_eq
    intro i hi
    have hlt : i + 8 < 16 := by omega
    simpa [hlt] using hbit (i + 8)
  · apply BitVec.eq_of_getLsbD_eq
    intro i hi
    have hlt : i < 16 := by omega
    simpa [hi, hlt] using hbit i

theorem crcFinal_injective : Function.Injective crcFinal := by
  intro a b h
  exact rev16_involutive.injective (BitVec.not_inj.mp h)

theorem crc16_eq (round : CrcRound) (address data : Bytes) :
    crc16 round address data = crcFinal ((byteRev address ++ data.map rev8).foldl (foldAcc round) 0xFFFF) := by
  rw [crc16, crcRun_acc_eq]

/-- Settles O12: equal values would come, back through the rest of the data, from equal accumulators after the two bytes,
hence from equal bytes. -/
theorem crcDetectsEveryTwoByteError : Obligations.CrcDetectsEveryTwoByteError := by
  intro address before after x y x' y' hne heq
  rw [crc16_eq, crc16_eq] at heq
  have hacc := crcFinal_injective heq
  simp only [List.map_append, List.foldl_append, List.map_cons, List.map_nil, List.foldl_cons, List.foldl_nil] at hacc
  have htwo := foldl_foldAcc_injective _ hacc
  rw [foldAcc_foldAcc, foldAcc_foldAcc] at htwo
  obtain ⟨hx, hy⟩ := bytes_eq_of_xor_eq _ _ _ _ ((BitVec.xor_right_inj _).mp (crcBit_injective.iterate 16 htwo))
  exact hne (Prod.ext (rev8_involutive.injective hx) (rev8_involutive.injective hy))

end Sys2Proof.Machine
end

section
/-! The whitening engine (spec/42_whitening.md R75 to R82). -/

namespace Sys2Proof.Machine

/-! ### The clock -/

/-- R77: one clock of the register. -/
def whClock (w : WhState) : WhState := (whStep w).1

/-- The stream bit of a clock is the register's last. -/
theorem whStep_snd (w : WhState) : (whStep w).2 = w.w6 := rfl

theorem getLsbD_bitByte_shiftLeft (b : Bool) (k j : Nat) (hj : j < 8) :
    (bitByte b <<< k).getLsbD j = (decide (j = k) && b) := by
  rw [bitByte, BitVec.getLsbD_shiftLeft, BitVec.getLsbD_setWidth, BitVec.getLsbD_ofBool]
  by_cases h : j = k
  · subst h
    simp [hj]
  · by_cases hlt : j < k
    · simp [h, hlt]
    · have : j - k ≠ 0 := by omega
      simp [h, this]

/-- R78: what `n` clocks from clock `k` on do to the register and to each bit of the byte. -/
theorem whClocks_fst (n k : Nat) (w : WhState) (c : Byte) : (whClocks n k w c).1 = whClock^[n] w := by
  induction n generalizing k w c with
  | zero => rfl
  | succ n ih => exact ih (k + 1) (whStep w).1 _

theorem getLsbD_whClocks (n k j : Nat) (w : WhState) (c : Byte) (hj : j < 8) :
    (whClocks n k w c).2.getLsbD j =
      (c.getLsbD j ^^ if k ≤ j ∧ j < k + n then (whClock^[j - k] w).w6 else false) := by
  induction n generalizing k w c with
  | zero =>
    rw [if_neg (by omega), Bool.xor_false]
    rfl
  | succ n ih =>
    rw [whClocks, ih, BitVec.getLsbD_xor, getLsbD_bitByte_shiftLeft _ _ _ hj, whStep_snd]
    obtain hlt | rfl | hgt := Nat.lt_trichotomy j k
    · rw [if_neg (by omega), if_neg (by omega)]
      simp [hlt.ne]
    · rw [if_neg (by omega), if_pos (by omega)]
      simp
    · have hrange : (k + 1 ≤ j ∧ j < k + 1 + n) ↔ (k ≤ j ∧ j < k + (n + 1)) := by omega
      rw [if_congr hrange rfl rfl, show j - k = j - (k + 1) + 1 by omega, Function.iterate_succ_apply]
      simp only [hgt.ne', decide_false, Bool.false_and, Bool.xor_false]
      rfl

/-- R78: a byte step is eight clocks. -/
theorem whByte_fst (w : WhState) (c : Byte) : (whByte w c).1 = whClock^[8] w := whClocks_fst 8 0 w c

theorem getLsbD_whByte (w : WhState) (c : Byte) (k : Nat) (hk : k < 8) :
    (whByte w c).2.getLsbD k = (c.getLsbD k ^^ (whClock^[k] w).w6) := by
  rw [whByte, getLsbD_whClocks 8 0 k w c hk]
  simp [hk]

/-! ### The encoding, byte by byte -/

/-- R81: the register before byte `i` of the buffer. -/
def whStateAt (wiring : WhWiring) (w : WhState) (buffer : Bytes) (i : Nat) : WhState :=
  (whEncode wiring w (buffer.take i)).1

theorem whStateAt_length (wiring : WhWiring) (w : WhState) (buffer : Bytes) :
    whStateAt wiring w buffer buffer.length = (whEncode wiring w buffer).1 := by
  rw [whStateAt, List.take_length]

/-- R81: each byte and the register after it are the byte step of the register before and the operand's byte. -/
theorem byteStep_whStateAt (wiring : WhWiring) (w : WhState) (buffer : Bytes) (i : Nat) (h : i < buffer.length) :
    wiring.byteStep (whStateAt wiring w buffer i) (buffer.getD i 0) =
      (whStateAt wiring w buffer (i + 1), (whEncode wiring w buffer).2.getD i 0) := by
  induction buffer generalizing w i with
  | nil => exact absurd h (Nat.not_lt_zero i)
  | cons c cs ih =>
    cases i with
    | zero => rfl
    | succ i => exact ih (wiring.byteStep w c).1 i (Nat.lt_of_succ_lt_succ h)

theorem whStateAt_succ (wiring : WhWiring) (w : WhState) (buffer : Bytes) (i : Nat) (h : i < buffer.length) :
    whStateAt wiring w buffer (i + 1) = (wiring.byteStep (whStateAt wiring w buffer i) (buffer.getD i 0)).1 :=
  (congrArg Prod.fst (byteStep_whStateAt wiring w buffer i h)).symm

theorem getD_whEncode (wiring : WhWiring) (w : WhState) (buffer : Bytes) (i : Nat) (h : i < buffer.length) :
    (whEncode wiring w buffer).2.getD i 0 = (wiring.byteStep (whStateAt wiring w buffer i) (buffer.getD i 0)).2 :=
  (congrArg Prod.snd (byteStep_whStateAt wiring w buffer i h)).symm

/-- R77, R78: with the spec's byte step the register has made eight clocks a byte. -/
theorem whStateAt_of_whByte (wiring : WhWiring) (hw : wiring.byteStep = whByte) (w : WhState) (buffer : Bytes) (i : Nat)
    (h : i ≤ buffer.length) : whStateAt wiring w buffer i = whClock^[8 * i] w := by
  induction i with
  | zero => rfl
  | succ i ih =>
    rw [whStateAt_succ wiring w buffer i h, hw, whByte_fst, ih (Nat.le_of_succ_le h), ← Function.iterate_add_apply,
      Nat.mul_succ, Nat.add_comm]

/-- R82 (b): each bit of a byte is the operand's with the stream bit of its own clock. -/
theorem getLsbD_whEncode (wiring : WhWiring) (hw : wiring.byteStep = whByte) (w : WhState) (buffer : Bytes) (i k : Nat)
    (hi : i < buffer.length) (hk : k < 8) :
    ((whEncode wiring w buffer).2.getD i 0).getLsbD k =
      ((buffer.getD i 0).getLsbD k ^^ (whClock^[8 * i + k] w).w6) := by
  rw [getD_whEncode wiring w buffer i hi, whStateAt_of_whByte wiring hw w buffer i hi.le, hw, getLsbD_whByte _ _ k hk,
    ← Function.iterate_add_apply, Nat.add_comm k]

theorem Config.wiring_byteStep_default (cfg : Config) (h : cfg.whByteTable = []) : cfg.wiring.byteStep = whByte := by
  rw [Config.wiring, h]
  rfl

theorem exec_whEncode (state : WhState) (buffer : Bytes) (s : State) :
    exec (.whEncode state buffer) s =
      .next (({ s with units := { s.units with w := (whEncode s.cfg.wiring state buffer).1 } } : State).answer
        (.whBuffer (whEncode s.cfg.wiring state buffer).1 (whEncode s.cfg.wiring state buffer).2)) := rfl

/-- Settles O14. -/
theorem whEncodeAddsTheStream : Obligations.WhEncodeAddsTheStream := by
  refine ⟨fun state buffer s => ?encode, fun wiring => ?configured⟩
  case encode =>
    refine ⟨_, _, exec_whEncode state buffer s, whEncode_length _ _ _,
      ⟨whStateAt s.cfg.wiring state buffer, rfl, whStateAt_length _ _ _, byteStep_whStateAt _ _ _⟩, fun hdefault => ?_⟩
    have hw := Config.wiring_byteStep_default s.cfg hdefault
    refine ⟨?_, fun i k hi hk => getLsbD_whEncode _ hw state buffer i k hi hk⟩
    rw [← whStateAt_length, whStateAt_of_whByte _ hw state buffer _ le_rfl]
    rfl
  case configured =>
    obtain ⟨cfg, hcfg⟩ := Config.engine_surjective ⟨crcRound, wiring⟩
    exact ⟨cfg, congrArg Engine.wiring hcfg⟩

/-- Settles O13. -/
theorem whInitLoadsTheSeed : Obligations.WhInitLoadsTheSeed := by
  intro seed s
  refine ⟨s.cfg.wiring.init seed, rfl, rfl, fun hdefault => ?_⟩
  rw [Config.wiring, hdefault]
  rfl

/-! ### The parallel form -/

/-- R80: the data passes through the parallel form by exclusive or. -/
theorem whByteParallel_eq (w : WhState) (c : Byte) :
    whByteParallel w c = ((whByteParallel w 0).1, c ^^^ (whByteParallel w 0).2) := by
  refine Prod.ext rfl (BitVec.eq_of_getLsbD_eq fun i hi => ?_)
  simp only [whByteParallel, getLsbD_ofBits, BitVec.getLsbD_xor]
  simp [hi]

/-- R79: on the data byte 0 the two forms agree, state by state. -/
theorem whByteParallel_zero (w : WhState) : whByteParallel w 0 = whByte w 0 := by
  obtain ⟨a, b, c, d, e, f, g⟩ := w
  revert a b c d e f g
  decide +kernel

/-- Settles O15: both forms pass the data through, and they agree on the data byte 0. -/
theorem parallelWhiteningIsTheSerialForm : Obligations.ParallelWhiteningIsTheSerialForm := by
  intro w c
  rw [whByteParallel_eq, whByte_eq, whByteParallel_zero]

/-! ### The period -/

/-- The state with only `W[0]` set, from which the cycle of R82 (f) is counted. -/
def whUnit : WhState := ⟨true, false, false, false, false, false, false⟩

/-- The state the clock does not move. -/
def whZero : WhState := ⟨false, false, false, false, false, false, false⟩

/-- R82 (f): the clock returns to its start after 127 clocks. -/
theorem whClock_period_unit : whClock^[127] whUnit = whUnit := by decide +kernel

/-- R82 (f): the first 127 states of the cycle are all the states but zero. -/
theorem mem_cycle (w : WhState) (h : w ≠ whZero) : w ∈ List.iterate whClock whUnit 127 := by
  obtain ⟨a, b, c, d, e, f, g⟩ := w
  revert a b c d e f g
  decide +kernel

theorem exists_iterate_unit (w : WhState) (h : w ≠ whZero) : ∃ n < 127, whClock^[n] whUnit = w := by
  obtain ⟨n, hn, hw⟩ := List.mem_iterate.mp (mem_cycle w h)
  exact ⟨n, hn, hw.symm⟩

/-- R82 (f): every state returns after 127 clocks. -/
theorem whClock_period (w : WhState) : whClock^[127] w = w := by
  by_cases h : w = whZero
  · rw [h]
    exact Function.iterate_fixed rfl 127
  · obtain ⟨n, -, rfl⟩ := exists_iterate_unit w h
    rw [← Function.iterate_add_apply, Nat.add_comm, Function.iterate_add_apply, whClock_period_unit]

/-- R82 (f): the register's cycle is a whole number of bytes after 127 of them. -/
theorem whClock_period_bytes (w : WhState) : whClock^[8 * 127] w = w := by
  rw [Nat.mul_comm, Function.iterate_mul, Function.iterate_fixed (whClock_period w)]

/-- R82 (f): every state but zero is reached from every other within one cycle. -/
theorem exists_iterate (w w' : WhState) (h : w ≠ whZero) (h' : w' ≠ whZero) : ∃ n < 127, whClock^[n] w = w' := by
  obtain ⟨m, hm, rfl⟩ := exists_iterate_unit w h
  obtain ⟨m', hm', rfl⟩ := exists_iterate_unit w' h'
  by_cases hle : m ≤ m'
  · refine ⟨m' - m, by omega, ?_⟩
    rw [← Function.iterate_add_apply, Nat.sub_add_cancel hle]
  · refine ⟨m' + 127 - m, by omega, ?_⟩
    rw [← Function.iterate_add_apply, Nat.sub_add_cancel (by omega), Function.iterate_add_apply, whClock_period_unit]

/-- Byte `i` of a key stream is what the byte step makes of a zero byte after `8 * i` clocks. -/
theorem getElem?_keyStream (seed : Byte) (n i : Nat) (h : i < n) :
    (keyStream whWiring seed n)[i]? = some (whByte (whClock^[8 * i] (whInit seed)) 0).2 := by
  have hi : i < (List.replicate n (0 : Byte)).length := by rwa [List.length_replicate]
  have hbyte := getD_whEncode whWiring (whInit seed) (List.replicate n 0) i hi
  have hlen : i < (keyStream whWiring seed n).length := by rwa [keyStream_length]
  rw [whStateAt_of_whByte whWiring rfl _ _ i hi.le, List.getD_eq_getElem _ 0 hi, List.getElem_replicate] at hbyte
  rw [List.getElem?_eq_getElem hlen, ← List.getD_eq_getElem _ 0 hlen]
  exact congrArg some hbyte

/-- Settles O16. -/
theorem whiteningHasPeriod127 : Obligations.WhiteningHasPeriod127 := by
  refine ⟨whClock_period, exists_iterate, fun seed n i h => ?_⟩
  rw [getElem?_keyStream seed n _ h, getElem?_keyStream seed n i (by omega), Nat.mul_add,
    Function.iterate_add_apply, whClock_period_bytes]

/-! ### Involution and locality -/

theorem zipWith_xor_zipWith_xor (a k : Bytes) (h : a.length ≤ k.length) :
    List.zipWith (· ^^^ ·) (List.zipWith (· ^^^ ·) a k) k = a := by
  induction a generalizing k with
  | nil => rfl
  | cons x a ih =>
    cases k with
    | nil => cases h
    | cons y k =>
      simp only [List.zipWith_cons_cons, ih k (Nat.le_of_succ_le_succ h), BitVec.xor_assoc, BitVec.xor_self,
        BitVec.xor_zero]

/-- Settles O17: the encoding adds a stream that depends on the length only. -/
theorem whiteningIsAnInvolutionAndLocal : Obligations.WhiteningIsAnInvolutionAndLocal := by
  refine ⟨fun w buffer => ?_, fun w p a b hlen hdrop => ?_⟩
  · rw [whEncode_eq w (whEncode whWiring w buffer).2, whEncode_length, whEncode_eq w buffer]
    exact zipWith_xor_zipWith_xor _ _ (by simp)
  · rw [whEncode_eq w a, whEncode_eq w b, hlen, List.drop_zipWith, List.drop_zipWith, hdrop]

end Sys2Proof.Machine
end

section
/-! The RF payload builder (spec/43_rf_payload.md R84 to R91) and the command encoder (spec/44_command_encoder.md R92 to
R103). -/

namespace Sys2Proof.Machine

/-! ### Format RB, region by region -/

/-- R54: the 15 zeros and the reversed marker bytes. -/
def rbHead : Bytes := List.replicate 15 0 ++ [0x8E, 0xF0, 0xAA]

/-- R54, R88: the CRC, low byte first. -/
def crcBytes (round : CrcRound) (address data : Bytes) : Bytes :=
  [(crc16 round address data).extractLsb' 0 8, (crc16 round address data).extractLsb' 8 8]

/-- R54: format RB is its four regions. -/
theorem formatRB_eq (round : CrcRound) (address data : Bytes) :
    formatRB round address data = rbHead ++ ((byteRev address).map rev8 ++ (data ++ crcBytes round address data)) := by
  simp only [formatRB, rbHead, crcBytes, List.append_assoc]

section
variable (round : CrcRound) (address data : Bytes)

theorem formatRB_take : (formatRB round address data).take 0x12 = rbHead := by
  rw [formatRB_eq]
  exact List.take_left' rfl

/-- R54: what stands after the head. -/
theorem getElem?_formatRB_afterHead (k : Nat) :
    (formatRB round address data)[0x12 + k]? =
      ((byteRev address).map rev8 ++ (data ++ crcBytes round address data))[k]? := by
  rw [formatRB_eq, List.getElem?_append_right (by simp [rbHead]), show rbHead.length = 0x12 from rfl,
    Nat.add_sub_cancel_left]

/-- R54: what stands after the address. -/
theorem getElem?_formatRB_afterAddress (j : Nat) :
    (formatRB round address data)[0x12 + address.length + j]? = (data ++ crcBytes round address data)[j]? := by
  have hlen : ((byteRev address).map rev8).length = address.length := by simp
  rw [Nat.add_assoc, getElem?_formatRB_afterHead, List.getElem?_append_right (by omega), hlen, Nat.add_sub_cancel_left]

theorem getElem?_formatRB_address (k : Nat) (h : k < address.length) :
    (formatRB round address data)[0x12 + k]? = (address[address.length - 1 - k]?).map rev8 := by
  rw [getElem?_formatRB_afterHead, List.getElem?_append_left (by simpa using h), List.getElem?_map,
    getElem?_byteRev address k h]

theorem getElem?_formatRB_data (j : Nat) (h : j < data.length) :
    (formatRB round address data)[0x12 + address.length + j]? = data[j]? := by
  rw [getElem?_formatRB_afterAddress, List.getElem?_append_left h]

theorem getElem?_formatRB_crc (j : Nat) :
    (formatRB round address data)[0x12 + address.length + (data.length + j)]? = (crcBytes round address data)[j]? := by
  rw [getElem?_formatRB_afterAddress, List.getElem?_append_right (by omega), Nat.add_sub_cancel_left]

end

/-! ### RF_BUILD and RF_PREPARE -/

/-- R84 to R88: RF_BUILD completes and answers format RB, which the buffer holds. -/
theorem exec_rfBuild (address data : Bytes) (s : State) : ∃ buf : Buf, buf.wf ∧
    buf.toBytes = formatRB s.cfg.round address data ∧
    exec (.rfBuild address data) s =
      .next (({ s with units := { s.units.runCrc s.cfg.round address data with buf := buf } } : State).answer
        (.bytes (formatRB s.cfg.round address data))) := by
  obtain ⟨buf, hbuild, hwf, hbytes⟩ := rfBuild_eq s.cfg.engine address data s.units
  refine ⟨buf, hwf, hbytes, ?_⟩
  change execRfBuild address data s = _
  rw [execRfBuild, hbuild]
  simp only [hbytes]
  rfl

/-- Settles O18. -/
theorem rfBuildLaysOutTheBuffer : Obligations.RfBuildLaysOutTheBuffer := by
  intro address data s
  obtain ⟨buf, hwf, hbytes, hexec⟩ := exec_rfBuild address data s
  refine ⟨_, _, hexec, rfl, hbytes, hwf, ?_, formatRB_take _ _ _, getElem?_formatRB_address _ _ _,
    getElem?_formatRB_data _ _ _, getElem?_formatRB_crc _ _ _ 0, getElem?_formatRB_crc _ _ _ 1, rfl⟩
  rw [formatRB_length]
  omega

/-- R89: RF_PREPARE completes and answers the payload; the buffer is discarded. -/
theorem exec_rfPrepare (address data : Bytes) (s : State) : ∃ u : Units, u.buf = Buf.discarded ∧
    rfPrepare s.cfg.engine address data s.units = some (rfPayload s.cfg.engine address data, u) ∧
    exec (.rfPrepare address data) s =
      .next (({ s with units := u } : State).answer (.bytes (rfPayload s.cfg.engine address data))) := by
  obtain ⟨w, hw⟩ := rfPrepare_eq s.cfg.engine address data s.units
  refine ⟨_, rfl, hw, ?_⟩
  change execRfPrepare address data s = _
  rw [execRfPrepare, hw]

/-- R55: a byte of format PL is that of format RB with the stream byte of its offset in RB. -/
theorem getElem?_formatPL (round : CrcRound) (address data : Bytes) (q : Nat)
    (h : q < address.length + data.length + 5) :
    ∃ x k, (formatRB round address data)[15 + q]? = some x ∧
      (keyStream whWiring whSeed (15 + (address.length + data.length + 5)))[15 + q]? = some k ∧
      (formatPL ⟨round, whWiring⟩ address data)[q]? = some (x ^^^ k) := by
  have hlen : (formatRB round address data).length = 15 + (address.length + data.length + 5) := by
    rw [formatRB_length]
    omega
  have hx : 15 + q < (formatRB round address data).length := by omega
  have hk : 15 + q < (keyStream whWiring whSeed (15 + (address.length + data.length + 5))).length := by
    rw [keyStream_length]
    omega
  refine ⟨_, _, List.getElem?_eq_getElem hx, List.getElem?_eq_getElem hk, ?_⟩
  simp only [formatPL, hlen]
  rw [List.getElem?_drop, List.getElem?_zipWith, List.getElem?_eq_getElem hx, List.getElem?_eq_getElem hk]

/-- The configured functions are the default wiring, where there are no exceptions from it. -/
theorem Config.engine_default (cfg : Config) (hi : cfg.whInitTable = []) (hb : cfg.whByteTable = []) :
    cfg.engine = ⟨cfg.round, whWiring⟩ := by
  rw [Config.engine, Config.wiring_default cfg hi hb]

/-- R55: without wiring exceptions the payload is format PL. -/
theorem rfPayload_default (cfg : Config) (hi : cfg.whInitTable = []) (hb : cfg.whByteTable = []) (address data : Bytes) :
    rfPayload cfg.engine address data = formatPL cfg.engine address data :=
  rfPayload_eq_formatPL cfg.engine (Config.wiring_default cfg hi hb) address data

/-- Settles O19. -/
theorem rfPrepareWhitensAndTrims : Obligations.RfPrepareWhitensAndTrims := by
  intro address data s
  obtain ⟨u, hu, -, hexec⟩ := exec_rfPrepare address data s
  refine ⟨_, u, hexec, hu, rfPayload_length _ _ _, rfl, fun hi hb => ⟨fun q hq => ?_, rfPayload_default _ hi hb _ _⟩⟩
  rw [rfPayload_length] at hq ⊢
  rw [rfPayload_default _ hi hb, Config.engine_default _ hi hb]
  exact getElem?_formatPL s.cfg.round address data q hq

/-! ### The head that payloads of one address share -/

/-- A beginning of the operand encodes to a beginning of the answer. -/
theorem whEncode_take_left (wiring : WhWiring) (w : WhState) (a b : Bytes) :
    (whEncode wiring w (a ++ b)).2.take a.length = (whEncode wiring w a).2 := by
  rw [whEncode_append]
  exact List.take_left' (whEncode_length wiring w a)

/-- R90: the marker and address bytes of a payload are those of the encoded head and address. -/
theorem rfPayload_take (e : Engine) (address data : Bytes) :
    (rfPayload e address data).take (3 + address.length) =
      (whEncode e.wiring (e.wiring.init whSeed) (rbHead ++ (byteRev address).map rev8)).2.drop prefixLen := by
  have hlen : (rbHead ++ (byteRev address).map rev8).length = prefixLen + (3 + address.length) := by
    simp [rbHead, prefixLen]
    omega
  rw [rfPayload, formatRB_eq, ← List.append_assoc, List.take_drop, ← hlen, whEncode_take_left]

/-- R90 (D12): the whitened head of the address `C1 C2 C3`. -/
theorem whitenedHead_of_C1C2C3 :
    (whEncode whWiring (whWiring.init whSeed) (rbHead ++ (byteRev [0xC1, 0xC2, 0xC3]).map rev8)).2.drop prefixLen =
      [0x6D, 0xB6, 0x43, 0x68, 0x93, 0x1D] := by
  decide +kernel

/-- Settles O20: the shared head depends on the address and the wiring only, and is evaluated for `C1 C2 C3`. -/
theorem payloadsOfOneAddressShareTheirHead : Obligations.PayloadsOfOneAddressShareTheirHead := by
  refine ⟨fun round round' address data data' => ?_, fun round data => ?_⟩
  · rw [rfPayload_take, rfPayload_take]
  · exact (rfPayload_take ⟨round, whWiring⟩ [0xC1, 0xC2, 0xC3] data).trans whitenedHead_of_C1C2C3

/-! ### The header -/

/-- R93: the three fields of header byte 0. -/
theorem header0_fields (kind : Kind) (lightId : LightId) (forward : Bool) :
    (header0 kind lightId forward).getLsbD 7 = forward ∧ (header0 kind lightId forward).extractLsb' 4 3 = kind ∧
      (header0 kind lightId forward).extractLsb' 0 4 = lightId.extractLsb' 8 4 := by
  rw [header0, ← lightIdHigh]
  generalize lightIdHigh lightId = high
  revert kind high forward
  decide

theorem toNat_checksum (h0 h1 h2 : Byte) (body : Bytes) :
    (checksum h0 h1 h2 body).toNat = (h0.toNat + h1.toNat + h2.toNat + (body.map BitVec.toNat).sum) % 256 :=
  BitVec.toNat_ofNat _ _

/-! ### The encrypted frame -/

section
variable (key : Key) (seq : Byte) (kind : Kind) (lightId : LightId) (body : Bytes) (forward : Bool)

/-- R51, R98: the first four bytes are the clear header under ENC_KEY. -/
theorem formatCE_take :
    (formatCE key seq kind lightId body forward).take 4 =
      xorKey encKey 0 (clearHeader key seq kind lightId body forward) := List.take_left' rfl

/-- R51, R99: the rest is the body under the mesh key. -/
theorem formatCE_drop : (formatCE key seq kind lightId body forward).drop 4 = xorKey key 0 body := List.drop_left' rfl

theorem getElem?_formatCE_body (j : Nat) :
    (formatCE key seq kind lightId body forward)[4 + j]? = (body[j]?).map fun x => x ^^^ keyByte key j := by
  rw [← List.getElem?_drop, formatCE_drop, getElem?_xorKey, Nat.zero_add]

/-- R51, R98: the header, byte by byte. -/
theorem formatCE_header :
    (formatCE key seq kind lightId body forward).take 4 =
      [header0 kind lightId forward ^^^ 0x5E, seq ^^^ 0x36, key.k3 ^^^ 0x7B,
        checksum (header0 kind lightId forward) seq key.k3 body ^^^ 0xC4] := rfl

end

/-- R51: a key's bytes, by position mod 4. -/
theorem keyByte_eq_getD (key : Key) (j : Nat) : keyByte key j = [key.k0, key.k1, key.k2, key.k3].getD (j % 4) 0 := by
  have h : j % 4 < 4 := Nat.mod_lt j (by decide)
  unfold keyByte
  interval_cases j % 4 <;> rfl

theorem xorKey_xorKey (key : Key) (j : Nat) (xs : Bytes) : xorKey key j (xorKey key j xs) = xs := by
  induction xs generalizing j with
  | nil => rfl
  | cons x xs ih => simp only [xorKey, ih, BitVec.xor_assoc, BitVec.xor_self, BitVec.xor_zero]

/-- Settles O22. -/
theorem cipherRoundTrip : Obligations.CipherRoundTrip := by
  intro key seq kind lightId body forward
  rw [formatCE_take, formatCE_drop, xorKey_xorKey, xorKey_xorKey]
  exact ⟨rfl, rfl⟩

/-- R97: different sequence values give different sums. -/
theorem checksum_injective (h0 h2 : Byte) (body : Bytes) : Function.Injective fun seq => checksum h0 seq h2 body := by
  intro a b h
  have hnat := congrArg BitVec.toNat h
  simp only [toNat_checksum] at hnat
  apply BitVec.eq_of_toNat_eq
  omega

/-- Settles O23. -/
theorem sequenceValueReachesTwoFrameBytes : Obligations.SequenceValueReachesTwoFrameBytes := by
  intro key seq seq' kind lightId body forward
  refine ⟨fun i h1 h3 => ?same, fun hne => ⟨_, _, _, _, rfl, rfl, rfl, rfl, ?second, ?fourth⟩⟩
  case same =>
    obtain rfl | rfl | ⟨j, rfl⟩ : i = 0 ∨ i = 2 ∨ ∃ j, i = 4 + j := by
      obtain h | h := Nat.lt_or_ge i 4
      · omega
      · exact .inr (.inr ⟨i - 4, by omega⟩)
    · rfl
    · rfl
    · rw [getElem?_formatCE_body, getElem?_formatCE_body]
  case second => exact fun h => hne ((BitVec.xor_left_inj _).mp h)
  case fourth => exact fun h => hne (checksum_injective _ _ body ((BitVec.xor_left_inj _).mp h))

/-! ### CMD_ENCODE -/

/-- R92, R100: CMD_ENCODE hands the encrypted frame to RF_PREPARE, and draws. -/
theorem exec_cmdEncode_of_rfPrepare (kind : Kind) (lightId : LightId) (body : Bytes) (forward : Bool) (s : State)
    (payload : Bytes) (u : Units)
    (h : rfPrepare s.cfg.engine (addressBytes s.cfg.meshAddress)
      (formatCE s.cfg.meshKey s.seq kind lightId body forward) s.units = some (payload, u)) :
    exec (.cmdEncode kind lightId body forward) s =
      .next (({ s with seq := seqNext s.seq, units := u } : State).answer (.bytes payload)) := by
  change execCmdEncode kind lightId body forward s = _
  simp only [execCmdEncode, cmdEncode, h, bind_ok]
  rfl

/-- Settles O21. -/
theorem cmdEncodeEmitsTheEncryptedFrame : Obligations.CmdEncodeEmitsTheEncryptedFrame := by
  intro kind lightId body forward s
  obtain ⟨u, -, hprepare, hexec⟩ := exec_rfPrepare (addressBytes s.cfg.meshAddress)
    (formatCE s.cfg.meshKey s.seq kind lightId body forward) s
  obtain ⟨hforward, hkind, hlight⟩ := header0_fields kind lightId forward
  have hencode := exec_cmdEncode_of_rfPrepare kind lightId body forward s _ u hprepare
  rw [seqNext_eq] at hencode
  refine ⟨_, _, _, _, u, hencode, hforward, hkind, hlight, toNat_checksum _ _ _ _, formatCE_length _ _ _ _ _ _,
    formatCE_header _ _ _ _ _ _, fun j _ => ?_, hexec, ?_, fun hi hb => rfPayload_default _ hi hb _ _⟩
  · rw [getElem?_formatCE_body, keyByte_eq_getD]
  · rw [rfPayload_length, formatCE_length]
    simp only [addressBytes, List.length_cons, List.length_nil]
    omega

/-! ### The sequence of values -/

/-- R95: a draw below 254 moves on by one, and from 254 on it starts again at 1. -/
theorem toNat_seqNext (seq : Byte) : (seqNext seq).toNat = if 254 ≤ seq.toNat then 1 else seq.toNat + 1 := by
  rw [seqNext_eq]
  split
  · rfl
  · next h =>
    rw [BitVec.toNat_add, show (1 : Byte).toNat = 1 from rfl]
    omega

/-- R96, from a counter the block has drawn from: `n` more encodings move it `n` places on in the cycle 1 to 254. -/
theorem execAll_cmdEncode (is : List Instr) (s : State) (hs : 1 ≤ s.seq.toNat) (hs' : s.seq.toNat ≤ 254)
    (his : ∀ i ∈ is, ∃ kind lightId body forward, i = .cmdEncode kind lightId body forward) :
    ∃ t, execAll is s = .next t ∧ t.seq.toNat = (s.seq.toNat - 1 + is.length) % 254 + 1 := by
  induction is generalizing s with
  | nil =>
    refine ⟨s, rfl, ?_⟩
    simp only [List.length_nil]
    omega
  | cons i is ih =>
    obtain ⟨kind, lightId, body, forward, rfl⟩ := his i List.mem_cons_self
    obtain ⟨u, payload, -, hexec⟩ := exec_cmdEncode kind lightId body forward s
    have hnext := toNat_seqNext s.seq
    have hle := seqNext_le s.seq
    obtain ⟨t, ht, hseq⟩ := ih (({ s with seq := seqNext s.seq, units := u } : State).answer (.bytes payload))
      (by simp only [State.answer_seq]; split at hnext <;> omega) hle (fun j hj => his j (List.mem_cons_of_mem _ hj))
    refine ⟨t, (execAll_cons _ is s _ hexec).trans ht, ?_⟩
    simp only [State.answer_seq] at hseq
    rw [List.length_cons]
    split at hnext <;> omega

/-- Settles O24: the first encoding draws 0 and leaves 1, from which the others go round the cycle. -/
theorem sequenceLaw : Obligations.SequenceLaw := by
  intro is s hs his hne
  cases is with
  | nil => exact absurd rfl hne
  | cons i is =>
    obtain ⟨kind, lightId, body, forward, rfl⟩ := his i List.mem_cons_self
    obtain ⟨u, payload, -, hexec⟩ := exec_cmdEncode kind lightId body forward s
    have hone : (seqNext s.seq).toNat = 1 := by rw [hs]; rfl
    obtain ⟨t, ht, hseq⟩ := execAll_cmdEncode is
      (({ s with seq := seqNext s.seq, units := u } : State).answer (.bytes payload)) hone.ge (by simp [hone])
      (fun j hj => his j (List.mem_cons_of_mem _ hj))
    refine ⟨t, (execAll_cons _ is s _ hexec).trans ht, ?_⟩
    rw [hseq, State.answer_seq, hone, List.length_cons, Nat.sub_self, Nat.zero_add, Nat.add_sub_cancel]

end Sys2Proof.Machine
end

section
/-! Two LIGHT_WRITEs of different contexts (spec/20_memory.md R42): a run in which they enqueue in the opposite order to
their draws. -/

namespace Sys2Proof.Machine.Litmus

/-! ### The run -/

/-- Lights 1 and 2 bound, and room for two commands. -/
def cfg : Config := { Config.atReset with maxQueueSize := 2, bound := [1, 2] }

/-- The light data of full brightness and no colour. -/
def white : Bytes := lightData true ⟨1, 1⟩ ⟨0, 1⟩ ⟨0, 1⟩ ⟨0, 1⟩

/-- The LIGHT_WRITE of full brightness and no colour. -/
def write (lightId : LightId) : Instr := .lightWrite lightId true ⟨1, 1⟩ ⟨0, 1⟩ ⟨0, 1⟩ ⟨0, 1⟩

/-- The payload it encodes to with a sequence value. -/
def payload (cfg : Config) (seq : Byte) (lightId : LightId) : Bytes :=
  rfPayload cfg.engine (addressBytes cfg.meshAddress)
    (formatCE cfg.meshKey seq kindSingle lightId (formatSL cfg lightId white) true)

/-- Context 0 begins first, context 1 ends first. -/
def before : State :=
  { State.configured cfg with
    host := [.start 0 (encode (write 1)), .start 1 (encode (write 2)), .resumeWrite 1, .resumeWrite 0]
    clockReads := [10, 20] }

/-- The state in which a context has begun its write: a sequence value is drawn, and the payload is pending. -/
def begun (s : State) (context : Nat) (lightId : LightId) (u : Units) : State :=
  { s with
    host := s.host.tail
    seq := seqNext s.seq
    units := u
    writesInProgress := s.writesInProgress ++ [⟨context, lightId, payload s.cfg s.seq lightId⟩] }

/-- The state in which a context has ended its write: the pending payload is at the tail. -/
def ended (s : State) (w : PendingWrite) (c : Time) : State :=
  ({ s with
    host := s.host.tail
    queue := s.queue ++ [⟨w.payload, c, 0⟩]
    clockReads := s.clockReads.tail
    writesInProgress := s.writesInProgress.erase w } : State).answer .nothing

theorem payload_ne : payload cfg 0 1 ≠ payload cfg 1 2 := by decide +kernel

/-! ### Its two kinds of step -/

theorem step_begin (s : State) (context : Nat) (lightId : LightId) (rest : List HostAction)
    (hhost : s.host = .start context (encode (write lightId)) :: rest) (hc : context ∉ s.contextsInProgress)
    (hb : s.cfg.isBound lightId = true) : ∃ u : Units, step s = .next (begun s context lightId u) := by
  obtain ⟨u, hu, -⟩ := cmdEncode_eq kindSingle lightId (formatSL s.cfg lightId white) true { s with host := rest }
  have hlv : lvMap true ⟨1, 1⟩ ⟨0, 1⟩ ⟨0, 1⟩ ⟨0, 1⟩ = .ok white := by
    apply lvMap_of_inLimits <;> decide
  refine ⟨u, ?_⟩
  rw [step_of_move s _ rest hhost, runAction, write,
    start_lightWrite context lightId true _ _ _ _ { s with host := rest } rfl hc]
  simp only [startWrite, hb, lightEncode, hlv, bind_ok]
  rw [slcFrame_of_le _ _ _ (by decide), hu, begun, hhost]
  rfl

theorem step_end (s : State) (w : PendingWrite) (rest : List HostAction) (c : Time) (cs : List Time)
    (hhost : s.host = .resumeWrite w.context :: rest) (hw : s.pendingWrite w.context = some w) (hq : s.qlock = false)
    (hroom : s.queue.length < s.cfg.maxQueueSize) (hc : s.clockReads = c :: cs) :
    step s = .next (ended s w c) := by
  have henq := enqueue_of_room w.lightId w.payload { s with host := rest } hq hroom
  rw [State.readClock_cons { s with host := rest } c cs hc] at henq
  have hpending : ({ s with host := rest } : State).pendingWrite w.context = some w := hw
  rw [step_of_move s _ rest hhost, runAction, resumeWrite, hpending]
  simp only [henq, bind_ok]
  rw [ended, hhost, hc]
  rfl

end Sys2Proof.Machine.Litmus

namespace Sys2Proof.Machine

open Litmus in
/-- Settles O60, with the run of `Litmus.before`. -/
theorem lightWritesMayEnqueueOutOfOrder : Obligations.LightWritesMayEnqueueOutOfOrder := by
  obtain ⟨u1, h1⟩ := step_begin before 0 1 _ rfl (by decide) (by decide)
  obtain ⟨u2, h2⟩ := step_begin (begun before 0 1 u1) 1 2 _ rfl
    (by simp [State.contextsInProgress, begun, before, State.configured]) rfl
  have h3 := step_end (begun (begun before 0 1 u1) 1 2 u2) ⟨1, 2, payload cfg 1 2⟩ _ 10 [20] rfl rfl rfl
    Nat.zero_lt_two rfl
  have hlast : (ended (begun (begun before 0 1 u1) 1 2 u2) ⟨1, 2, payload cfg 1 2⟩ 10).writesInProgress =
      [⟨0, 1, payload cfg 0 1⟩] := by
    change ([⟨0, 1, payload cfg 0 1⟩, ⟨1, 2, payload cfg 1 2⟩] : List PendingWrite).erase ⟨1, 2, payload cfg 1 2⟩ = _
    rw [List.erase_cons_tail (by simp), List.erase_cons_head]
  have h4 := step_end (ended (begun (begun before 0 1 u1) 1 2 u2) ⟨1, 2, payload cfg 1 2⟩ 10) ⟨0, 1, payload cfg 0 1⟩
    _ 20 [] rfl rfl rfl Nat.one_lt_two rfl
  refine ⟨before, _, _, _, _, ⟨1, 1⟩, ⟨0, 1⟩, ⟨0, 1⟩, ⟨0, 1⟩, payload cfg 0 1, payload cfg 1 2, rfl, rfl, rfl, rfl,
    payload_ne, h1, rfl, rfl, h2, rfl, rfl, h3, rfl, hlast, h4, rfl, ?_⟩
  rw [ended, State.answer_writesInProgress, hlast, List.erase_cons_head]

end Sys2Proof.Machine
end
